-- ==== Sys2Proof/Word.lean ====
section
/-!
DEFINITION. The words of the machine and the plain vocabulary of the 1-Wire line.

Widths are the spec's fixed ones (00_scope.md R7, R8). The bus vocabulary stands here because the free values of
Config.lean, which answer the bus, are functions of it.
-/

namespace Sys2Proof

/-- An 8-bit value: the checksum accumulator, DATA, ARG (R7). -/
abbrev Byte := BitVec 8
/-- The 16 bits of an accepted command word that `cmd_last` and `pending` keep (R32). -/
abbrev Half := BitVec 16
/-- A host register, and a command word as the host writes it (R8, R130). -/
abbrev Word := BitVec 32
/-- A ROM Code or the working ROM buffer: bit p-1 is search position p (R14, R46). -/
abbrev Rom := BitVec 64

/-- What OWC does to the line (R32): it drives it low or releases it, and never drives it high (R97). -/
inductive Drive where
  | released
  | low
  deriving DecidableEq, Repr, Inhabited

/-- The outcome of a reset slot (R18). -/
inductive ResetOutcome where
  | ok
  | noPresence
  | releaseFailure
  deriving DecidableEq, Repr, Inhabited

/-- One event of the bus history H (R99). -/
inductive BusEvent where
  /-- A reset slot and its outcome. -/
  | rst (o : ResetOutcome)
  /-- A write slot and the bit written. -/
  | w (b : Bool)
  /-- A read slot and the bit sampled. -/
  | r (b : Bool)
  /-- OWC reset cut a command short on the bus (R311). -/
  | abort
  deriving DecidableEq, Repr, Inhabited

end Sys2Proof
end

