-- ==== Sys2Proof/Syntax.lean ====
section
/-!
DEFINITION. The nine commands (30_encoding.md R135), one constructor per row of spec/opcode_table.json.
-/

namespace Sys2Proof

/-- A decoded command: the mnemonic of OP, and the argument byte where the command takes one (R140). -/
inductive Instr where
  /-- OW_RESET (R170). -/
  | owReset
  /-- OW_WRITE_BIT: the bit is `arg[0]` and `arg[7:1]` must be 0 (R133, R174). -/
  | owWriteBit (arg : Byte)
  /-- OW_READ_BIT (R177). -/
  | owReadBit
  /-- OW_WRITE_BYTE (R180). -/
  | owWriteByte (arg : Byte)
  /-- OW_READ_BYTE (R185). -/
  | owReadByte
  /-- CRC_CLEAR (R205). -/
  | crcClear
  /-- CRC_STEP (R206). -/
  | crcStep (arg : Byte)
  /-- SEARCH_FIRST (R237). -/
  | searchFirst
  /-- SEARCH_NEXT (R238). -/
  | searchNext
  deriving DecidableEq, Repr

/-- The mnemonic as R135 and spec/opcode_table.json spell it. -/
def Instr.mnemonic : Instr → String
  | .owReset => "OW_RESET"
  | .owWriteBit _ => "OW_WRITE_BIT"
  | .owReadBit => "OW_READ_BIT"
  | .owWriteByte _ => "OW_WRITE_BYTE"
  | .owReadByte => "OW_READ_BYTE"
  | .crcClear => "CRC_CLEAR"
  | .crcStep _ => "CRC_STEP"
  | .searchFirst => "SEARCH_FIRST"
  | .searchNext => "SEARCH_NEXT"

/-- The OP column of R135. -/
def Instr.op : Instr → BitVec 4
  | .owReset => 1
  | .owWriteBit _ => 2
  | .owReadBit => 3
  | .owWriteByte _ => 4
  | .owReadByte => 5
  | .crcClear => 6
  | .crcStep _ => 7
  | .searchFirst => 8
  | .searchNext => 9

/-- The argument byte: 0x00 for a command without an operand (R133). -/
def Instr.arg : Instr → Byte
  | .owWriteBit a => a
  | .owWriteByte a => a
  | .crcStep a => a
  | .owReset => 0
  | .owReadBit => 0
  | .owReadByte => 0
  | .crcClear => 0
  | .searchFirst => 0
  | .searchNext => 0

end Sys2Proof
end

