-- ==== Sys2Proof/WellFormed.lean ====
section
/-!
DEFINITION. Which commands a legal word can name.
-/

namespace Sys2Proof

/-- R133: `arg[7:1]` must be 0 for OW_WRITE_BIT. Every other command as `Instr` writes it is well formed: the operand
of OW_WRITE_BYTE and CRC_STEP is any byte, and a command without an operand carries none. -/
def Instr.wellFormed : Instr → Bool
  | .owWriteBit a => a.extractLsb' 1 7 == 0#7
  | .owReset => true
  | .owReadBit => true
  | .owWriteByte _ => true
  | .owReadByte => true
  | .crcClear => true
  | .crcStep _ => true
  | .searchFirst => true
  | .searchNext => true

end Sys2Proof
end

