-- ==== Sys2Proof/Decode.lean ====
section
/-!
DEFINITION. The command word (30_encoding.md): its fields, the legality predicate, the decoder, the encoder and the
match and mask table.
-/

namespace Sys2Proof

/-! ## Fields (R130 to R133) -/

/-- `word[3:0]` (R131). -/
def fieldOp (w : Word) : BitVec 4 := w.extractLsb' 0 4
/-- `word[7:4]`, reserved (R132). -/
def fieldRsv0 (w : Word) : BitVec 4 := w.extractLsb' 4 4
/-- `word[15:8]` (R133). -/
def fieldArg (w : Word) : Byte := w.extractLsb' 8 8
/-- `word[31:16]`, reserved (R132). -/
def fieldRsv1 (w : Word) : BitVec 16 := w.extractLsb' 16 16

/-- R138, clause by clause. -/
def legal (w : Word) : Bool :=
  w.extractLsb' 16 16 == 0#16 && w.extractLsb' 4 4 == 0#4 &&
    ((fieldOp w == 4 || fieldOp w == 7) ||
     (fieldOp w == 2 && w.extractLsb' 9 7 == 0#7) ||
     ((fieldOp w == 1 || fieldOp w == 3 || fieldOp w == 5 || fieldOp w == 6 || fieldOp w == 8 || fieldOp w == 9) &&
       w.extractLsb' 8 8 == 0#8))

/-! ## Decoding -/

/-- Why a word names no command. -/
inductive DecodeReject where
  /-- RSV1 is not 0 (R132). -/
  | reservedHigh
  /-- RSV0 is not 0 (R132). -/
  | reservedLow
  /-- OP 0x0 or 0xA to 0xF (R137). -/
  | reservedOp
  /-- A command without an operand, with ARG not 0 (R133). -/
  | argumentNotZero
  /-- OW_WRITE_BIT with ARG[7:1] not 0 (R133). -/
  | argumentNotABit
  deriving DecidableEq, Repr

/-- A command that takes no operand: ARG must be 0x00 (R133). -/
def noOperand (arg : Byte) (i : Instr) : Except DecodeReject Instr :=
  if arg = 0 then .ok i else .error .argumentNotZero

/-- OW_WRITE_BIT's operand (R133). -/
def bitOperand (arg : Byte) : Except DecodeReject Instr :=
  if arg.extractLsb' 1 7 = 0#7 then .ok (.owWriteBit arg) else .error .argumentNotABit

/-- The OP column of R135, with the operand rule of each command. -/
def decodeOp (op : Nat) (arg : Byte) : Except DecodeReject Instr :=
  match op with
  | 1 => noOperand arg .owReset
  | 2 => bitOperand arg
  | 3 => noOperand arg .owReadBit
  | 4 => .ok (.owWriteByte arg)
  | 5 => noOperand arg .owReadByte
  | 6 => noOperand arg .crcClear
  | 7 => .ok (.crcStep arg)
  | 8 => noOperand arg .searchFirst
  | 9 => noOperand arg .searchNext
  | _ => .error .reservedOp

/-- Decode (R140), total: a word that is not legal is rejected by name. -/
def decode (w : Word) : Except DecodeReject Instr :=
  if fieldRsv1 w ≠ 0 then .error .reservedHigh
  else if fieldRsv0 w ≠ 0 then .error .reservedLow
  else decodeOp (fieldOp w).toNat (fieldArg w)

/-- The command the controller runs for a `pending` word (R145): `pending` keeps bits 15:0, and bits 31:16 of a legal
word are 0. -/
def decodePending (p : Half) : Except DecodeReject Instr := decode (p.setWidth 32)

/-- The host's row check: the table's bit 0 is the least significant bit of the one 32-bit command word. -/
def decodeTableWord (nbits w : Nat) : Option Instr :=
  match decode (BitVec.ofNat 32 (w % 2 ^ nbits)) with
  | .ok i => if w % 2 ^ nbits < 2 ^ 32 then some i else none
  | .error _ => none

/-! ## Encoding -/

/-- R141: the assembled word is `{16'b0, imm8, 4'b0, OP}`. -/
def encode (i : Instr) : Word := 0#16 ++ i.arg ++ 0#4 ++ i.op

/-! ## The match and mask table (R136) -/

/-- One row of R136. -/
structure OpcodeRow where
  mnemonic : String
  matchWord : Word
  mask : Word
  deriving DecidableEq, Repr

/-- R136: `(w AND mask) = match`. -/
def OpcodeRow.selects (row : OpcodeRow) (w : Word) : Bool := w &&& row.mask == row.matchWord

/-- The nine rows of R136, as that rule and spec/opcode_table.json print them. -/
def opcodeTable : List OpcodeRow :=
  [⟨"OW_RESET", 0x00000001, 0xFFFFFFFF⟩,
   ⟨"OW_WRITE_BIT", 0x00000002, 0xFFFFFEFF⟩,
   ⟨"OW_READ_BIT", 0x00000003, 0xFFFFFFFF⟩,
   ⟨"OW_WRITE_BYTE", 0x00000004, 0xFFFF00FF⟩,
   ⟨"OW_READ_BYTE", 0x00000005, 0xFFFFFFFF⟩,
   ⟨"CRC_CLEAR", 0x00000006, 0xFFFFFFFF⟩,
   ⟨"CRC_STEP", 0x00000007, 0xFFFF00FF⟩,
   ⟨"SEARCH_FIRST", 0x00000008, 0xFFFFFFFF⟩,
   ⟨"SEARCH_NEXT", 0x00000009, 0xFFFFFFFF⟩]

end Sys2Proof
end

