-- ==== Sys2Proof/Config.lean ====
section
/-!
DEFINITION. What a platform or an implementation fixes, and the free values.

Every `opaque` below has no body: nothing can be proved about its value, so a claim holds whatever it is.
-/

namespace Sys2Proof

/-- The timing parameters of R12, in microseconds. A model may set them (D37). No command rule reads them (R328). -/
structure Timing where
  tRstl : Nat
  tRel : Nat
  tPdwait : Nat
  tPdrel : Nat
  tPoll : Nat
  tWLow : Nat
  tWVal : Nat
  tWRec : Nat
  tRLow : Nat
  tRSample : Nat
  tRRest : Nat
  tol : Nat
  deriving DecidableEq, Repr

/-- The defaults of R12. -/
def Timing.defaults : Timing where
  tRstl := 750
  tRel := 15
  tPdwait := 240
  tPdrel := 240
  tPoll := 1
  tWLow := 2
  tWVal := 60
  tWRec := 2
  tRLow := 2
  tRSample := 10
  tRRest := 48
  tol := 1

/-- R12's constraint T_RSTL ≥ 480 µs; and T_POLL ≥ 1 µs, without which the polling loop of R161 would never end
(DEDUCED, log 19). -/
def Timing.wellFormed (t : Timing) : Bool := 480 ≤ t.tRstl && 0 < t.tPoll

/-- Where the platform puts the register window, counted in blocks of 32 bytes (R9: OWC_BASE is open and a multiple
of 32; log 6). -/
opaque Config.owcBlock : Nat

/-- OWC_BASE (R9). -/
def Config.owcBase : Nat := 32 * Config.owcBlock

/-- The bus oracle's answer to a reset slot, given the history so far (R100; log 4). -/
opaque Config.oracleReset : List BusEvent → ResetOutcome

/-- The bus oracle's answer to a read slot, given the history so far (R100; log 4). -/
opaque Config.oracleRead : List BusEvent → Bool

/-- The unspecified value that the n-th host read draws its result fields from while `busy = 1` (R56; log 5). -/
opaque Config.busyRead : Nat → Word

/-- What a host read outside the register window returns: the platform decides (U3; log 7). -/
opaque Config.foreignRead : Nat → Word

end Sys2Proof
end

