-- ==== Sys2Proof/Machine/State.lean ====
section
/-!
DEFINITION. The machine's state: the spec's state variables (10_state.md R32, one field per row), the bus history and
the bus agent (20_memory.md), and the queue of inputs that stands for the host. Plain data throughout.
-/

namespace Sys2Proof.Machine

/-! ## The result fields that are enums -/

/-- STATUS.PRES (R39). -/
inductive Pres where
  /-- No OW_RESET has completed since OWC reset. -/
  | none
  | ok
  | noPresence
  | releaseFailure
  deriving DecidableEq, Repr

/-- STATUS.SRES (R41). -/
inductive SearchResult where
  /-- No search command has completed since OWC reset. -/
  | none
  | found
  | failed
  | exhausted
  deriving DecidableEq, Repr

/-! ## The bus agent -/

/-- Where a reference slave device is in its own protocol (R102 to R105). -/
inductive Phase where
  /-- Not constrained by the rules: before the first reset slot (R313), after a slot cut short (R311), or after a slot
  its protocol step does not expect (U8). Its answers are free. -/
  | unknown
  /-- Takes no part until the next reset slot (R103, R104, R105). -/
  | ignoring
  /-- Collecting the ROM command byte; the bits so far, oldest first (R103). -/
  | romCommand (bits : List Bool)
  /-- Participating in a search at position `p`; `slot` 0 is the first read, 1 the second read, 2 the write (R104). -/
  | search (p : Nat) (slot : Nat)
  /-- Comparing the 64 write slots of Match ROM; `p` is the next position (R103). -/
  | matchRom (p : Nat)
  /-- Selected, and collecting a function command byte (R105). -/
  | function (bits : List Bool)
  /-- Sending the scratchpad; `n` bits are already sent (R105). -/
  | sending (n : Nat)
  deriving DecidableEq, Repr

/-- One slave of the reference set S (R101). -/
structure Device where
  /-- The 64-bit ROM Code, position p in bit p-1 (R14). -/
  romCode : Rom
  /-- The temperature value a conversion copies to the scratchpad (R101, R105). -/
  temperature : BitVec 16
  /-- The scratchpad temperature: byte 0 low, byte 1 high (R105). -/
  scratchpad : BitVec 16
  phase : Phase
  deriving DecidableEq, Repr

/-- When the slaves pull the line low within one slot: intervals [from, to) in µs from the slot's start (R93). -/
abbrev Wave := List (Nat × Nat)

/-- What is on the line and answers OWC's slots (R100). -/
inductive Bus where
  /-- An arbitrary bus: the next reset outcomes and the next sampled bits, and after those the free oracle (R100). -/
  | oracle (resets : List ResetOutcome) (reads : List Bool)
  /-- The reference slave set, on a healthy or a stuck-low line (R101, R109). -/
  | reference (devices : List Device) (stuckLow : Bool)
  /-- A line given slot by slot by what the slaves pull; after the last wave nobody pulls (R93, R161 to R163). -/
  | waveform (slots : List Wave)
  deriving DecidableEq, Repr

/-! ## What the outside does -/

/-- The width of a host access. Only 32 bits has a meaning (R84). -/
inductive AccessWidth where
  | byte
  | half
  | word
  deriving DecidableEq, Repr

/-- One action of the host or of the world around the block. -/
inductive Input where
  /-- A host read at a byte address (R17, R82). -/
  | read (addr : Nat) (width : AccessWidth)
  /-- A host write at a byte address (R17, R83). -/
  | write (addr : Nat) (width : AccessWidth) (value : Word)
  /-- Time passes until the executing command has completed (R145). -/
  | run
  /-- The host lets `micros` µs pass on its own timer before its next action (R265, R293; log 25). -/
  | wait (micros : Nat)
  /-- Reset is asserted when the executing command has finished `slots` of its slots (R310, R311). -/
  | assertReset (slots : Nat)
  /-- Reset ends (R310). -/
  | releaseReset
  /-- What is on the line changes (R246: devices join or leave). -/
  | changeBus (bus : Bus)
  deriving DecidableEq, Repr

/-! ## State -/

/-- The whole machine. -/
structure State where
  /-- A command is executing (R36). -/
  busy : Bool
  /-- The accepted command word being executed (R52). -/
  pending : Option Half
  /-- The last accepted command word (R34). -/
  cmdLast : Half
  /-- Sticky: a command word was rejected as illegal (R37). -/
  ill : Bool
  /-- Sticky: a command word was written while busy (R38). -/
  ovr : Bool
  /-- Result of the last OW_RESET (R39). -/
  pres : Pres
  /-- Result of the last search command (R41). -/
  sres : SearchResult
  /-- Result of the last OW_READ_BIT or OW_READ_BYTE (R42). -/
  data : Byte
  /-- The checksum accumulator (R43). -/
  acc : Byte
  /-- `last_discrepancy` (R48). -/
  ld : BitVec 7
  /-- `last_family_discrepancy` (R50). -/
  lfd : BitVec 7
  /-- `last_device_flag` (R49). -/
  ldf : Bool
  /-- The working ROM buffer (R51). -/
  rom : Rom
  /-- What OWC does to the line (R54). -/
  drive : Drive
  /-- The bus history H, oldest first (R99). -/
  history : List BusEvent
  /-- The bus agent and the slaves' own state (R55, R100). -/
  bus : Bus
  /-- The level of the reset input (R310). -/
  inReset : Bool
  /-- The model's own: what the host and the world will do, next first (log 2). -/
  inputs : List Input
  /-- The model's own: the values host reads have returned, oldest first (log 2). -/
  responses : List Word
  /-- The model's own: how many reads were served, which indexes the free values of reads (log 5). -/
  draws : Nat
  /-- The model's own: how many µs the host has waited on its own timer (R293; log 25). -/
  hostClock : Nat
  deriving DecidableEq, Repr

/-- Why the machine stops with a fault. The spec has none (93, Part 1): both are raised only by the controller step, in
states no run from reset reaches (log 17). -/
inductive Fault where
  /-- Raised by the controller step when `busy = 1` and `pending` is none. Safe: R52 rules the state out. -/
  | busyWithoutCommand
  /-- Raised by the controller step when `busy = 1` and `pending` is not a legal word. Safe: R142 rules the state out. -/
  | pendingNotLegal
  deriving DecidableEq, Repr

/-- Why the machine has no step. -/
inductive Refusal where
  /-- Raised by exec's arm of an instruction that has no meaning yet. Safe. -/
  | notModelled (mnemonic : String)
  /-- Raised by a host access in the window that is not 32 bits wide. Safe: R84 says a model refuses it. -/
  | accessNotWordWide (width : AccessWidth)
  /-- Raised by a host access in the window whose offset is not a multiple of 4. Safe: R84 says a model refuses it. -/
  | accessMisaligned (offset : Nat)
  deriving DecidableEq, Repr

/-- The machine right after OWC reset at power-up (R58, R99, R310). The bus is the free oracle (log 4); the model's own
fields are empty (log 2, log 5). -/
def State.reset : State where
  busy := false
  pending := none
  cmdLast := 0
  ill := false
  ovr := false
  pres := .none
  sres := .none
  data := 0
  acc := 0
  ld := 0
  lfd := 0
  ldf := false
  rom := 0
  drive := .released
  history := []
  bus := .oracle [] []
  inReset := false
  inputs := []
  responses := []
  draws := 0
  hostClock := 0

end Sys2Proof.Machine
end

