-- ==== Sys2Proof/Machine/Operands.lean ====
section
/-!
DEFINITION. Operand forms: the bits of a byte in bus order, ROM bits and bytes, the argument bit, and the selection of
a host register by an address.
-/

namespace Sys2Proof.Machine

/-- The bits of a byte in the order the bus carries them: bit 0 first (R98, R168). -/
def byteBits (v : Byte) : List Bool := (List.range 8).map fun i => v.getLsbD i

/-- Bits that came in bus order, as a number: the first is bit 0 (R168). -/
def bitsValue (bits : List Bool) : Nat := bits.foldr (fun b n => 2 * n + b.toNat) 0

/-- Eight bits that came in bus order, as a byte (R168). -/
def byteOfBits (bits : List Bool) : Byte := BitVec.ofNat 8 (bitsValue bits)

/-- The bit operand of OW_WRITE_BIT: `arg[0]` (R133). -/
def argBit (arg : Byte) : Bool := arg.getLsbD 0

/-- `rombit(R, p)`: position p is bit p-1 of the little-endian 64-bit value (R14, R46). -/
def romBit (r : Rom) (p : Nat) : Bool := r.getLsbD (p - 1)

/-- `rombit(R, p) <- b` (R16). -/
def setRomBit (r : Rom) (p : Nat) (b : Bool) : Rom :=
  if b then r ||| (1#64 <<< (p - 1)) else r &&& ~~~(1#64 <<< (p - 1))

/-- `rom.byte[k]`: byte k of a ROM buffer (R45, R46, R223). -/
def romByte (r : Rom) (k : Nat) : Byte := r.extractLsb' (8 * k) 8

/-- The eight bytes of a ROM buffer, byte 0 (the family code) first (R7). -/
def romBytes (r : Rom) : List Byte := (List.range 8).map fun k => romByte r k

/-! ## Host register selection (R33, R81, R84) -/

/-- The registers of R33, and the reserved offset. -/
inductive Reg where
  | cmd
  | status
  | data
  | crc
  | search
  | rom0
  | rom1
  | reserved
  deriving DecidableEq, Repr

/-- The byte offset of a register (R33). -/
def Reg.offset : Reg → Nat
  | .cmd => 0x00
  | .status => 0x04
  | .data => 0x08
  | .crc => 0x0C
  | .search => 0x10
  | .rom0 => 0x14
  | .rom1 => 0x18
  | .reserved => 0x1C

/-- `off[4:2]` selects the register, in the order of R33 (R81). -/
def selectReg (off : Nat) : Reg :=
  match off / 4 % 8 with
  | 0 => .cmd
  | 1 => .status
  | 2 => .data
  | 3 => .crc
  | 4 => .search
  | 5 => .rom0
  | 6 => .rom1
  | _ => .reserved

/-- What an access reaches. -/
inductive Target where
  /-- Outside the window: not OWC's (R81, U3). -/
  | foreign
  /-- In the window, but of a form OWC gives no meaning (R84). -/
  | meaningless (why : Refusal)
  | reg (r : Reg)
  deriving DecidableEq, Repr

/-- An access at offset `off` of the window (R81, R84). -/
def targetAtOffset (off : Nat) (width : AccessWidth) : Target :=
  if width ≠ .word then .meaningless (.accessNotWordWide width)
  else if off % 4 ≠ 0 then .meaningless (.accessMisaligned off)
  else .reg (selectReg off)

/-- `off := a − OWC_BASE`; the access belongs to OWC if and only if `0 <= off < 32` (R81). -/
def accessTarget (addr : Nat) (width : AccessWidth) : Target :=
  if Config.owcBase ≤ addr ∧ addr < Config.owcBase + 32 then targetAtOffset (addr - Config.owcBase) width
  else .foreign

end Sys2Proof.Machine
end

