-- ==== Sys2Proof/Machine/Flags.lean ====
section
/-!
DEFINITION. The codes of the result fields, the derived field SSTATE, the layouts of STATUS and SEARCH, and the flag
writes: the two sticky error bits and their write-1-to-clear.
-/

namespace Sys2Proof.Machine

/-- The encoding of R39. -/
def Pres.code : Pres → BitVec 2
  | .none => 0
  | .ok => 1
  | .noPresence => 2
  | .releaseFailure => 3

/-- `code(o)` of R170. -/
def Pres.ofOutcome : ResetOutcome → Pres
  | .ok => .ok
  | .noPresence => .noPresence
  | .releaseFailure => .releaseFailure

/-- The encoding of R41. -/
def SearchResult.code : SearchResult → BitVec 2
  | .none => 0
  | .found => 1
  | .failed => 2
  | .exhausted => 3

/-- SSTATE, computed from `ld` and `ldf` (R40): IDLE 0, ACTIVE 1, EXHAUSTED 2. -/
def searchStateCode (ld : BitVec 7) (ldf : Bool) : BitVec 2 :=
  if ldf then 2 else if ld ≠ 0 then 1 else 0

/-- The STATUS layout of R35. -/
def packStatus (sres sstate pres : BitVec 2) (ovr ill busy : Bool) : Word :=
  0#18 ++ sres ++ 0#2 ++ sstate ++ 0#2 ++ pres ++ 0#1 ++ BitVec.ofBool ovr ++ BitVec.ofBool ill ++ BitVec.ofBool busy

/-- The SEARCH layout of R44. -/
def packSearch (ldf : Bool) (lfd ld : BitVec 7) : Word :=
  0#15 ++ BitVec.ofBool ldf ++ 0#1 ++ lfd ++ 0#1 ++ ld

/-- STATUS while no command executes (R35 to R41). -/
def statusIdle (s : State) : Word :=
  packStatus s.sres.code (searchStateCode s.ld s.ldf) s.pres.code s.ovr s.ill s.busy

/-- STATUS while a command executes: PRES, SSTATE and SRES are any value of their width, drawn from `free` (R56). -/
def statusBusy (free : Word) (s : State) : Word :=
  packStatus (free.extractLsb' 12 2) (free.extractLsb' 8 2) (free.extractLsb' 4 2) s.ovr s.ill s.busy

/-- `raise Illegal(w)`: `ill <- 1`, and nothing else changes (R19, R282). OWC takes no trap: this is the whole of it
(R280), and there is nothing to return from (R285). -/
def State.raiseIllegal (s : State) : State := { s with ill := true }

/-- `raise Overrun(w)`: `ovr <- 1`, and nothing else changes (R19, R283). -/
def State.raiseOverrun (s : State) : State := { s with ovr := true }

/-- A STATUS write: bit 1 set clears `ill`, bit 2 set clears `ovr`; the other bits are ignored (R35). -/
def State.clearFlags (v : Word) (s : State) : State :=
  { s with ill := s.ill && !v.getLsbD 1, ovr := s.ovr && !v.getLsbD 2 }

end Sys2Proof.Machine
end

