-- ==== Sys2Proof/Machine/Line.lean ====
section
/-!
DEFINITION. The line and the slot procedures of 40_bus_primitives.md (R160 to R164), microsecond by microsecond, over
any behaviour of the slaves. A slave behaviour is a function: does some slave pull the line low at this µs of the slot?

The command rules use only the outcome of a slot (R165). These procedures say where an outcome comes from, what OWC
drives meanwhile and how long the slot lasts.
-/

namespace Sys2Proof.Machine

/-- The wired-AND line: 0 if OWC drives it low or some slave pulls, else 1 through the pull-up (R93). -/
def lineLevel (drive : Drive) (pulled : Bool) : Bool :=
  match drive with
  | .low => false
  | .released => !pulled

/-- The Line Access Capability on one open-drain pin (R95): output and false drives low; output and true, and input,
release (R97). -/
def pinDrive (output value : Bool) : Drive := if output && !value then .low else .released

/-- A stretch of time in which OWC's drive does not change. -/
structure Segment where
  drive : Drive
  micros : Nat
  deriving DecidableEq, Repr

/-- Where a slot procedure has got to (R53: the time spent in the slot). -/
structure SlotClock where
  /-- µs since the slot's start. -/
  time : Nat
  drive : Drive
  /-- What OWC has driven so far, oldest first. -/
  trace : List Segment
  deriving DecidableEq, Repr

/-- Every slot starts released (R160). -/
def SlotClock.start : SlotClock := ⟨0, .released, []⟩

/-- `drive <- d` (R16). -/
def SlotClock.set (d : Drive) (c : SlotClock) : SlotClock := { c with drive := d }

/-- `wait(t)`: t µs pass on OWC's time base (R160). -/
def SlotClock.wait (us : Nat) (c : SlotClock) : SlotClock :=
  { c with time := c.time + us, trace := c.trace ++ [⟨c.drive, us⟩] }

/-- `sample()`: the line's level now (R160). -/
def SlotClock.sample (pulls : Nat → Bool) (c : SlotClock) : Bool := lineLevel c.drive (pulls c.time)

/-- The polling loop of R161: while the line is at `level`, give up once `t >= bound`, else wait T_POLL. Answers
whether the line left the level, and the clock. `fuel` bounds the polls; `bound + 1` is enough, as T_POLL ≥ 1. -/
def pollWhile (t : Timing) (pulls : Nat → Bool) (level : Bool) (bound : Nat) : Nat → Nat → SlotClock → Bool × SlotClock
  | 0, _, c => (false, c)
  | fuel + 1, elapsed, c =>
    if c.sample pulls = level then
      if bound ≤ elapsed then (false, c)
      else pollWhile t pulls level bound fuel (elapsed + t.tPoll) (c.wait t.tPoll)
    else (true, c)

/-- `BusReset()` on the line (R161). -/
def lineReset (t : Timing) (pulls : Nat → Bool) : ResetOutcome × SlotClock :=
  let c := ((SlotClock.start.set .low).wait t.tRstl).set .released |>.wait t.tRel
  match pollWhile t pulls true t.tPdwait (t.tPdwait + 1) 0 c with
  | (false, c) => (.noPresence, c)
  | (true, c) =>
    match pollWhile t pulls false t.tPdrel (t.tPdrel + 1) 0 c with
    | (false, c) => (.releaseFailure, c)
    | (true, c) => (.ok, c)

/-- `BusWriteSlot(b)` on the line (R162). -/
def lineWrite (t : Timing) (b : Bool) : SlotClock :=
  let c := (SlotClock.start.set .low).wait t.tWLow
  let c := (c.set (pinDrive true b)).wait t.tWVal
  (c.set .released).wait t.tWRec

/-- `BusReadSlot()` on the line (R163). -/
def lineRead (t : Timing) (pulls : Nat → Bool) : Bool × SlotClock :=
  let c := (SlotClock.start.set .low).wait t.tRLow
  let c := (c.set .released).wait t.tRSample
  (c.sample pulls, c.wait t.tRRest)

/-- Does a wave pull the line low at µs `us` of its slot? -/
def Wave.pulls (w : Wave) (us : Nat) : Bool := w.any fun i => decide (i.1 ≤ us) && decide (us < i.2)

/-- The longest a slot can last, by its event (R164). A slot cut short lasts no longer than a reset slot. -/
def slotBound (t : Timing) : BusEvent → Nat
  | .rst _ => t.tRstl + t.tRel + t.tPdwait + t.tPdrel + 2 * t.tPoll
  | .w _ => t.tWLow + t.tWVal + t.tWRec
  | .r _ => t.tRLow + t.tRSample + t.tRRest
  | .abort => t.tRstl + t.tRel + t.tPdwait + t.tPdrel + 2 * t.tPoll

/-- The longest a sequence of slots can last, gaps and controller overhead left out (R328). -/
def slotsBound (t : Timing) (es : List BusEvent) : Nat := (es.map (slotBound t)).sum

end Sys2Proof.Machine
end

