-- ==== Sys2Proof/Machine/Slaves.lean ====
section
/-!
DEFINITION. How the bus agent answers OWC's slots and how its own state moves (20_memory.md R99 to R109).
-/

namespace Sys2Proof.Machine

/-! ## One reference device (R101 to R105) -/

/-- A device at power-up: its scratchpad holds 0x0550 (R105), and its place in the protocol is unknown (R313). -/
def Device.powerUp (romCode : Rom) (temperature : BitVec 16) : Device := ⟨romCode, temperature, 0x0550, .unknown⟩

/-- Does the device pull the line low in the next read slot? `none` where the rules leave it open. -/
def Device.pull (d : Device) : Option Bool :=
  match d.phase with
  | .unknown => none
  | .ignoring => some false
  | .romCommand _ => some false
  | .search p 0 => some (!romBit d.romCode p)
  | .search p 1 => some (romBit d.romCode p)
  | .search _ _ => none
  | .matchRom _ => some false
  | .function _ => some false
  | .sending n => if n < 16 then some (!d.scratchpad.getLsbD n) else none

/-- After a read slot: a search moves to its next slot, and a sender to its next bit. A read where the search expects
the write leaves the device unknown (U8, log 12). In an unknown place the scratchpad stays (DESIGN CHOICE, log 26). -/
def Device.afterRead (d : Device) : Device :=
  match d.phase with
  | .search p 0 => { d with phase := .search p 1 }
  | .search p 1 => { d with phase := .search p 2 }
  | .search _ _ => { d with phase := .unknown }
  | .sending n => { d with phase := .sending (n + 1) }
  | .unknown => d
  | .ignoring => d
  | .romCommand _ => d
  | .matchRom _ => d
  | .function _ => d

/-- The ROM command byte is complete (R103). -/
def Device.romCommandByte (v : Byte) (d : Device) : Device :=
  if v = 0xF0 then { d with phase := .search 1 0 }
  else if v = 0xCC then { d with phase := .function [] }
  else if v = 0x55 then { d with phase := .matchRom 1 }
  else { d with phase := .ignoring }

/-- The function command byte is complete (R105). After Convert Temperature the rules say nothing more of the device
until the next reset: it is unknown (log 12). -/
def Device.functionByte (v : Byte) (d : Device) : Device :=
  if v = 0x44 then { d with scratchpad := d.temperature, phase := .unknown }
  else if v = 0xBE then { d with phase := .sending 0 }
  else { d with phase := .ignoring }

/-- After a write slot with bit `b` (R103 to R105). A write where the device does not expect one leaves it unknown
(U8, log 12). That write slots in an unknown place leave the scratchpad as it was, and never complete a 0x44, is the
model's (DESIGN CHOICE, log 26). -/
def Device.afterWrite (b : Bool) (d : Device) : Device :=
  match d.phase with
  | .romCommand bits =>
    if bits.length < 7 then { d with phase := .romCommand (bits ++ [b]) } else d.romCommandByte (byteOfBits (bits ++ [b]))
  | .search p 2 =>
    if romBit d.romCode p ≠ b then { d with phase := .ignoring }
    else if p < 64 then { d with phase := .search (p + 1) 0 }
    else { d with phase := .ignoring }
  | .search _ _ => { d with phase := .unknown }
  | .matchRom p =>
    if romBit d.romCode p ≠ b then { d with phase := .ignoring }
    else if p < 64 then { d with phase := .matchRom (p + 1) }
    else { d with phase := .function [] }
  | .function bits =>
    if bits.length < 7 then { d with phase := .function (bits ++ [b]) } else d.functionByte (byteOfBits (bits ++ [b]))
  | .sending _ => { d with phase := .unknown }
  | .unknown => d
  | .ignoring => d

/-- What one event of the line does to a device. A reset slot returns it to its ROM-command state (R102); a slot cut
short leaves it unknown (R311). That it leaves the scratchpad as it was, though the slave may have taken it as the last bit
of 0x44, is the model's (DESIGN CHOICE, log 26). -/
def Device.after (e : BusEvent) (d : Device) : Device :=
  match e with
  | .rst _ => { d with phase := .romCommand [] }
  | .w b => d.afterWrite b
  | .r _ => d.afterRead
  | .abort => { d with phase := .unknown }

/-! ## The bus -/

/-- The bit a read slot samples on a healthy reference bus: the wired-AND of the devices (R93, R106, R107). A device
whose answer is open leaves the bit to the oracle, unless another pulls low (log 12). -/
def sampleDevices (devices : List Device) (free : Bool) : Bool :=
  if devices.any (fun d => d.pull == some true) then false
  else if devices.any (fun d => d.pull == none) then free
  else true

/-- The outcome of the next reset slot (R100; R102 and R109 for the reference set; R161 for a waveform). -/
def Bus.resetAnswer (bus : Bus) (history : List BusEvent) : ResetOutcome :=
  match bus with
  | .oracle [] _ => Config.oracleReset history
  | .oracle (o :: _) _ => o
  | .reference devices stuckLow =>
    if stuckLow then .releaseFailure else if devices.isEmpty then .noPresence else .ok
  | .waveform [] => (lineReset Timing.defaults (Wave.pulls [])).1
  | .waveform (w :: _) => (lineReset Timing.defaults (Wave.pulls w)).1

/-- The bit the next read slot samples (R100; R104 to R109 for the reference set; R163 for a waveform). -/
def Bus.readAnswer (bus : Bus) (history : List BusEvent) : Bool :=
  match bus with
  | .oracle _ [] => Config.oracleRead history
  | .oracle _ (b :: _) => b
  | .reference devices stuckLow =>
    if stuckLow then false else sampleDevices devices (Config.oracleRead history)
  | .waveform [] => (lineRead Timing.defaults (Wave.pulls [])).1
  | .waveform (w :: _) => (lineRead Timing.defaults (Wave.pulls w)).1

/-- The bus after one event: chosen answers are used up, the devices follow their protocol (R108: they see every slot),
and each slot uses up its wave. -/
def Bus.after (e : BusEvent) (bus : Bus) : Bus :=
  match bus with
  | .oracle resets reads =>
    match e with
    | .rst _ => .oracle resets.tail reads
    | .r _ => .oracle resets reads.tail
    | .w _ => .oracle resets reads
    | .abort => .oracle resets reads
  | .reference devices stuckLow => .reference (devices.map (Device.after e)) stuckLow
  | .waveform slots => .waveform slots.tail

/-- The bus after a sequence of events, oldest first. -/
def Bus.afterAll (es : List BusEvent) (bus : Bus) : Bus := es.foldl (fun b e => b.after e) bus

end Sys2Proof.Machine
end

