-- ==== Sys2Proof/Machine/Ops.lean ====
section
/-!
DEFINITION. The shared operations: the slots, command acceptance and completion, and the host's register reads and
writes. OWC takes no traps (R280): its two `raise` forms are in Flags.lean.
-/

namespace Sys2Proof.Machine

/-! ## Slots (R165, R168) -/

/-- One slot: its event is appended to the history, the bus moves on, and the line ends released (R99, R160, R165). -/
def State.slot (e : BusEvent) (s : State) : State :=
  { s with history := s.history ++ [e], bus := s.bus.after e, drive := .released }

/-- `BusReset()` (R165). -/
def busReset (s : State) : ResetOutcome × State :=
  (s.bus.resetAnswer s.history, s.slot (.rst (s.bus.resetAnswer s.history)))

/-- `BusWriteSlot(b)` (R165). -/
def busWriteSlot (b : Bool) (s : State) : State := s.slot (.w b)

/-- `BusReadSlot()` (R165). -/
def busReadSlot (s : State) : Bool × State :=
  (s.bus.readAnswer s.history, s.slot (.r (s.bus.readAnswer s.history)))

/-- A sequence of slots with these events, oldest first. -/
def State.slots : List BusEvent → State → State
  | [], s => s
  | e :: es, s => State.slots es (s.slot e)

/-- Write slots, one for each bit in order. -/
def writeSlots : List Bool → State → State
  | [], s => s
  | b :: bs, s => writeSlots bs (busWriteSlot b s)

/-- `WriteByteSlots(v)`: bit 0 first (R168). -/
def writeByteSlots (v : Byte) (s : State) : State := writeSlots (byteBits v) s

/-- `n` read slots: the bits in slot order, and the state after. -/
def readSlots : Nat → State → List Bool × State
  | 0, s => ([], s)
  | n + 1, s =>
    let first := busReadSlot s
    let rest := readSlots n first.2
    (first.1 :: rest.1, rest.2)

/-- `ReadByteSlots()`: bit i is the bit of the (i+1)-th slot (R168). -/
def readByteSlots (s : State) : Byte × State :=
  (byteOfBits (readSlots 8 s).1, (readSlots 8 s).2)

/-! ## Result writes -/

/-- `pres <- p` (R170). -/
def State.setPres (p : Pres) (s : State) : State := { s with pres := p }
/-- `data <- v` (R42). -/
def State.setData (v : Byte) (s : State) : State := { s with data := v }
/-- `acc <- v` (R43). -/
def State.setAcc (v : Byte) (s : State) : State := { s with acc := v }
/-- `sres <- r` (R41). -/
def State.setSres (r : SearchResult) (s : State) : State := { s with sres := r }
/-- `rom <- r` (R51). -/
def State.setRom (r : Rom) (s : State) : State := { s with rom := r }
/-- `lfd <- v` (R50). -/
def State.setLfd (v : BitVec 7) (s : State) : State := { s with lfd := v }
/-- `ld <- v` (R48). -/
def State.setLd (v : BitVec 7) (s : State) : State := { s with ld := v }
/-- `ldf <- b` (R49). -/
def State.setLdf (b : Bool) (s : State) : State := { s with ldf := b }
/-- `ld <- 0 ; ldf <- 0 ; lfd <- 0`: the Idle defaults (R235). -/
def State.clearSearch (s : State) : State := ((s.setLd 0).setLdf false).setLfd 0

/-! ## Acceptance and completion (R142, R145) -/

/-- An accepted word: latched whole, and the command starts (R142). -/
def State.accept (w : Word) (s : State) : State :=
  { s with cmdLast := w.extractLsb' 0 16, pending := some (w.extractLsb' 0 16), busy := true }

/-- A host write of `w` to CMD: busy is checked before legality (R142, R286). -/
def State.offerCommand (w : Word) (s : State) : State :=
  if s.busy then s.raiseOverrun else if legal w then s.accept w else s.raiseIllegal

/-- `pending <- none ; busy <- 0`, together with the results (R87, R145). -/
def State.complete (s : State) : State := { s with pending := none, busy := false }

/-! ## Host registers -/

/-- The value of a register at a host read (R34 to R47, R82). While reset is asserted every read returns 0 (R310).
While a command executes, CMD, BUSY, ILL and OVR read exactly and the result fields are free (R56, log 5). -/
def hostRead (r : Reg) (s : State) : Word :=
  if s.inReset then 0
  else
    match r with
    | .cmd => s.cmdLast.setWidth 32
    | .status => if s.busy then statusBusy (Config.busyRead s.draws) s else statusIdle s
    | .data => if s.busy then ((Config.busyRead s.draws).extractLsb' 0 8).setWidth 32 else s.data.setWidth 32
    | .crc => if s.busy then ((Config.busyRead s.draws).extractLsb' 0 8).setWidth 32 else s.acc.setWidth 32
    | .search =>
      if s.busy then
        packSearch ((Config.busyRead s.draws).getLsbD 16) ((Config.busyRead s.draws).extractLsb' 8 7)
          ((Config.busyRead s.draws).extractLsb' 0 7)
      else packSearch s.ldf s.lfd s.ld
    | .rom0 => if s.busy then Config.busyRead s.draws else s.rom.extractLsb' 0 32
    | .rom1 => if s.busy then Config.busyRead s.draws else s.rom.extractLsb' 32 32
    | .reserved => 0

/-- A host write of `v` to a register (R83). While reset is asserted it is ignored (R310). -/
def hostWrite (r : Reg) (v : Word) (s : State) : State :=
  if s.inReset then s
  else
    match r with
    | .cmd => s.offerCommand v
    | .status => s.clearFlags v
    | .data => s
    | .crc => s
    | .search => s
    | .rom0 => s
    | .rom1 => s
    | .reserved => s

/-- A read has returned `v` to the host. Nothing of OWC changes (R82, R86). -/
def State.respond (v : Word) (s : State) : State :=
  { s with responses := s.responses ++ [v], draws := s.draws + 1 }

/-- The host has waited `micros` µs on its own timer (R293). Nothing of OWC or of the bus changes: between commands the
line is idle, for as long as the host likes (R166). -/
def State.letPass (micros : Nat) (s : State) : State := { s with hostClock := s.hostClock + micros }

/-- `MemRead(addr, 4)` and the accesses that are none (R81, R82, R84, U3). -/
def serveRead (addr : Nat) (width : AccessWidth) (s : State) : Host.Outcome State Fault Refusal :=
  match accessTarget addr width with
  | .foreign => .next (s.respond (Config.foreignRead s.draws))
  | .meaningless why => .refused why
  | .reg r => .next (s.respond (hostRead r s))

/-- `MemWrite(addr, 4, v)` and the accesses that are none (R81, R83, R84, U3). -/
def serveWrite (addr : Nat) (width : AccessWidth) (v : Word) (s : State) : Host.Outcome State Fault Refusal :=
  match accessTarget addr width with
  | .foreign => .next s
  | .meaningless why => .refused why
  | .reg r => .next (hostWrite r v s)

end Sys2Proof.Machine
end

