-- ==== Sys2Proof/Machine/BusCommands.lean ====
section
/-!
DEFINITION. The bit and byte transaction commands (40_bus_primitives.md R170 to R185). Acceptance and completion are
common to all commands and stand in Ops.lean and Controller.lean.
-/

namespace Sys2Proof.Machine

/-- OW_RESET (R170): `o := BusReset() ; pres <- code(o)`. -/
def execOwReset (s : State) : Host.Outcome State Fault Refusal :=
  .next ((busReset s).2.setPres (Pres.ofOutcome (busReset s).1))

/-- OW_WRITE_BIT (R174): `BusWriteSlot(arg[0])`. -/
def execOwWriteBit (arg : Byte) (s : State) : Host.Outcome State Fault Refusal :=
  .next (busWriteSlot (argBit arg) s)

/-- OW_READ_BIT (R177): `b := BusReadSlot() ; data <- zext_8(b)`. -/
def execOwReadBit (s : State) : Host.Outcome State Fault Refusal :=
  .next ((busReadSlot s).2.setData ((BitVec.ofBool (busReadSlot s).1).setWidth 8))

/-- OW_WRITE_BYTE (R180): `WriteByteSlots(arg)`. -/
def execOwWriteByte (arg : Byte) (s : State) : Host.Outcome State Fault Refusal :=
  .next (writeByteSlots arg s)

/-- OW_READ_BYTE (R185): `data <- ReadByteSlots()`. -/
def execOwReadByte (s : State) : Host.Outcome State Fault Refusal :=
  .next ((readByteSlots s).2.setData (readByteSlots s).1)

end Sys2Proof.Machine
end

