-- ==== Sys2Proof/Machine/Search.lean ====
section
/-!
DEFINITION. The ROM search engine (42_rom_search.md): the pass of R223 and the two search commands.
-/

namespace Sys2Proof.Machine

/-- The direction at position p, for a pair that is not 1,1 (R227, R228): the agreed bit; at a discrepancy, the bit of
the previous pass before `ld`, 1 at `ld`, and 0 after it. -/
def chooseDirection (ld : Nat) (rom : Rom) (p : Nat) (id cmp : Bool) : Bool :=
  if id ≠ cmp then id
  else if p < ld then romBit rom p
  else if p = ld then true
  else false

/-- A discrepancy at which the pass takes 0: it becomes `last_zero` (R229). -/
def takesZero (id cmp dir : Bool) : Bool := !id && !cmp && !dir

/-- `if p <= 8: lfd <- p`, where the position is recorded (R229). -/
def recordFamily (recorded : Bool) (p : Nat) (s : State) : State :=
  if recorded && decide (p ≤ 8) then s.setLfd (BitVec.ofNat 7 p) else s

/-- `if p mod 8 = 0: acc <- T[acc XOR rom.byte[(p div 8) - 1]]` (R230). -/
def foldByte (p : Nat) (s : State) : State :=
  if p % 8 = 0 then s.setAcc (crcStep s.acc (romByte s.rom (p / 8 - 1))) else s

/-- Position p is resolved to `dir`: recorded, stored, written on the bus, and the completed byte folded (R229, R230). -/
def resolvePosition (p : Nat) (dir recorded : Bool) (s : State) : State :=
  foldByte p (busWriteSlot dir ((recordFamily recorded p s).setRom (setRomBit s.rom p dir)))

/-- Where the loop of a pass stopped: `p`, `last_zero` and the state (R53). -/
structure PassEnd where
  position : Nat
  lastZero : Nat
  state : State
  deriving DecidableEq, Repr

/-- The loop of R223 from position p, with `n` positions to go: a pair of reads, then a break on 1,1 (R226) or the
resolution of the position. -/
def searchLoop : Nat → Nat → Nat → State → PassEnd
  | 0, p, lastZero, s => ⟨p, lastZero, s⟩
  | n + 1, p, lastZero, s =>
    let id := (busReadSlot s).1
    let cmp := (busReadSlot (busReadSlot s).2).1
    let after := (busReadSlot (busReadSlot s).2).2
    let dir := chooseDirection s.ld.toNat s.rom p id cmp
    if id && cmp then ⟨p, lastZero, after⟩
    else
      searchLoop n (p + 1) (if takesZero id cmp dir then p else lastZero)
        (resolvePosition p dir (takesZero id cmp dir) after)

/-- `Fail()` (R235). -/
def State.failSearch (s : State) : State := s.clearSearch.setSres .failed

/-- `ld <- last_zero ; if last_zero = 0: ldf <- 1` (R232). -/
def State.recordDiscrepancy (lastZero : Nat) (s : State) : State :=
  if lastZero = 0 then (s.setLd 0).setLdf true else s.setLd (BitVec.ofNat 7 lastZero)

/-- The end of a pass (R231 to R234), in the order of R223. -/
def finishPass (e : PassEnd) : State :=
  if e.position = 65 ∧ e.state.acc = 0 then
    if (e.state.recordDiscrepancy e.lastZero).rom ≠ 0 then (e.state.recordDiscrepancy e.lastZero).setSres .found
    else (e.state.recordDiscrepancy e.lastZero).failSearch
  else e.state.failSearch

/-- The pass from its reset slot's outcome on (R224). -/
def passAfterReset (o : ResetOutcome) (s : State) : State :=
  match o with
  | .ok => finishPass (searchLoop 64 1 0 (writeByteSlots 0xF0 s))
  | .noPresence => s.failSearch
  | .releaseFailure => s.failSearch

/-- `SearchPass()` (R223): `acc` is cleared, then the reset slot (R224). -/
def searchPass (s : State) : State :=
  passAfterReset (busReset (s.setAcc 0)).1 (busReset (s.setAcc 0)).2

/-- SEARCH_FIRST (R237): the search state and the ROM buffer are cleared, then one pass. -/
def execSearchFirst (s : State) : Host.Outcome State Fault Refusal :=
  .next (searchPass (s.clearSearch.setRom 0))

/-- SEARCH_NEXT (R238): EXHAUSTED is reported without a slot; otherwise one pass with the `ld` and `rom` of the last. -/
def execSearchNext (s : State) : Host.Outcome State Fault Refusal :=
  .next (if s.ldf then s.setSres .exhausted else searchPass s)

end Sys2Proof.Machine
end

