-- ==== Sys2Proof/Machine/Dispatch.lean ====
section
/-!
DEFINITION. Which meaning each command has: one arm per constructor of Instr (30_encoding.md R135).
-/

namespace Sys2Proof.Machine

def exec (i : Instr) (s : State) : Host.Outcome State Fault Refusal :=
  match i with
  | .owReset => Sys2Proof.Machine.execOwReset s
  | .owWriteBit arg => Sys2Proof.Machine.execOwWriteBit arg s
  | .owReadBit => Sys2Proof.Machine.execOwReadBit s
  | .owWriteByte arg => Sys2Proof.Machine.execOwWriteByte arg s
  | .owReadByte => Sys2Proof.Machine.execOwReadByte s
  | .crcClear => Sys2Proof.Machine.execCrcClear s
  | .crcStep arg => Sys2Proof.Machine.execCrcStep arg s
  | .searchFirst => Sys2Proof.Machine.execSearchFirst s
  | .searchNext => Sys2Proof.Machine.execSearchNext s

end Sys2Proof.Machine
end

