-- ==== Sys2Proof/Machine/Controller.lean ====
section
/-!
DEFINITION. The controller's step and the serving of one input: what Step.lean calls.
-/

namespace Sys2Proof.Machine

/-- The rule of the pending command, run on the state (R145): decode `pending`, then the command's meaning. -/
def runPending (s : State) : Host.Outcome State Fault Refusal :=
  match s.pending with
  | none => .fault .busyWithoutCommand
  | some p =>
    match decodePending p with
    | .error _ => .fault .pendingNotLegal
    | .ok i => exec i s

/-- The completion event: the results, and `pending` and `busy` cleared, at once (R87, R145). -/
def completing : Host.Outcome State Fault Refusal → Host.Outcome State Fault Refusal
  | .next s => .next s.complete
  | .fault r => .fault r
  | .refused r => .refused r

/-- The controller: while `busy = 1` it executes and completes the pending command (R145); otherwise, and while reset is
asserted, it does nothing. -/
def controllerStep (s : State) : Host.Outcome State Fault Refusal :=
  if s.busy && !s.inReset then completing (runPending s) else .next s

/-- The slots the pending command would perform, in order. -/
def pendingSlots (s : State) : List BusEvent :=
  match runPending s with
  | .next t => t.history.drop s.history.length
  | .fault _ => []
  | .refused _ => []

/-- What a reset leaves on the bus when the executing command has finished `slots` of its slots: those, and `Abort` if
the command was cut short on the bus (R99, R311; log 9). Nothing when no command executes. -/
def slotsBeforeReset (slots : Nat) (s : State) : List BusEvent :=
  if s.busy && !s.inReset then
    (pendingSlots s).take slots ++ (if slots < (pendingSlots s).length then [.abort] else [])
  else []

/-- Every state variable of R32 takes its reset value (R58, R310). The history, the slaves and the model's own fields
stay (R312). -/
def State.resetRegisters (s : State) : State :=
  { State.reset with
    history := s.history
    bus := s.bus
    inReset := s.inReset
    inputs := s.inputs
    responses := s.responses
    draws := s.draws
    hostClock := s.hostClock }

/-- Reset is asserted (R310, R311, R312): the executing command stops with nothing of its result written, the line is
released, and neither the history nor the slaves are reset. -/
def assertReset (slots : Nat) (s : State) : State :=
  { s.resetRegisters with
    history := s.history ++ slotsBeforeReset slots s
    bus := s.bus.afterAll (slotsBeforeReset slots s)
    inReset := true }

/-- Reset ends: every state variable holds its reset value (R310). Nothing happens if it was not asserted. -/
def releaseReset (s : State) : State := if s.inReset then { s.resetRegisters with inReset := false } else s

/-- One input is served (R89: one at a time, in order). -/
def serveInput (i : Input) (s : State) : Host.Outcome State Fault Refusal :=
  match i with
  | .read addr width => serveRead addr width s
  | .write addr width v => serveWrite addr width v s
  | .run => controllerStep s
  | .wait micros => .next (s.letPass micros)
  | .assertReset slots => .next (assertReset slots s)
  | .releaseReset => .next (releaseReset s)
  | .changeBus bus => .next { s with bus := bus }

/-- One step: the next input, or, when the world does nothing, the controller (log 2). -/
def stepOnce (s : State) : Host.Outcome State Fault Refusal :=
  match s.inputs with
  | [] => controllerStep s
  | i :: rest => serveInput i { s with inputs := rest }

/-- `w`, of `nbits` bits, accepted as the host's CMD write accepts it (R142), with the controller's turn next (log 3).
An illegal word is rejected as that write rejects it, and nothing is left to run. -/
def loadCommand (nbits w : Nat) (s : State) : State :=
  let idle : State := { s with busy := false, pending := none, inReset := false, inputs := .run :: s.inputs }
  idle.offerCommand (BitVec.ofNat 32 (w % 2 ^ nbits))

end Sys2Proof.Machine
end

