-- ==== Sys2Proof/Machine/Step.lean ====
section
/-!
DEFINITION. The machine's step, and where a command word is placed so that the next step runs it.
-/

namespace Sys2Proof.Machine

/-- One step of the machine. -/
def step (s : State) : Host.Outcome State Fault Refusal := stepOnce s

/-- OWC fetches nothing (R91): a command runs because the host's CMD write was accepted. This is the state after that
acceptance, with the controller's turn next (log 3). -/
def State.withFetchWord (s : State) (nbits w : Nat) : State := loadCommand nbits w s

end Sys2Proof.Machine
end

