-- ==== Sys2Proof/Machine/HostSeq.lean ====
section
/-!
DEFINITION. The host-side sequences of 43_host_sequences.md: host software built from OWC's commands and register
reads. They are outside the block (R5, R260) and no rule of OWC depends on them; each is a function of the machine's
state, over the same register operations and the same controller step that `step` uses (log 22).
-/

namespace Sys2Proof.Machine

/-- The state a step leads to; the state itself where the step stops, which R145 rules out for a command. -/
def stateAfter (s : State) : Host.Outcome State Fault Refusal → State
  | .next t => t
  | .fault _ => s
  | .refused _ => s

/-- `DO x`: `CMD x`, then `WAIT` until BUSY reads 0 (R143). The host waits while the controller completes. -/
def hostDo (i : Instr) (s : State) : State :=
  stateAfter s (controllerStep (hostWrite .cmd (encode i) s))

/-- A sequence of `DO` lines. -/
def hostDoAll : List Instr → State → State
  | [], s => s
  | i :: is, s => hostDoAll is (hostDo i s)

/-! ## Checksum (R261) -/

/-- `validate_rom(R)`: CRC_CLEAR, a CRC_STEP for each of bytes 0 to 6, and the comparison of CRC with byte 7. -/
def validateRom (r : Rom) (s : State) : Bool × State :=
  let t := hostDoAll (.crcClear :: ((romBytes r).take 7).map .crcStep) s
  ((hostRead .crc t).extractLsb' 0 8 == romByte r 7, t)

/-! ## Command sequencer (R262 to R268) -/

/-- A selector: the presence outcome as STATUS.PRES codes it (1 is OK), and the state after. -/
abbrev Selector := State → BitVec 2 × State

/-- PRESENCE_CHECK (R262): OW_RESET, then STATUS[5:4]. -/
def presenceCheck : Selector := fun s =>
  ((hostRead .status (hostDo .owReset s)).extractLsb' 4 2, hostDo .owReset s)

/-- A sequence that goes on only after a good presence check (R262). -/
def afterPresence (sel : Selector) (more : List Instr) : Selector := fun s =>
  if (sel s).1 = 1 then ((sel s).1, hostDoAll more (sel s).2) else sel s

/-- `select_skip_rom()` (R263). -/
def selectSkipRom : Selector := afterPresence presenceCheck [.owWriteByte 0xCC]

/-- `select_match_rom(R)` (R264): 0x55, then bytes 0 to 7. -/
def selectMatchRom (r : Rom) : Selector :=
  afterPresence presenceCheck (.owWriteByte 0x55 :: (romBytes r).map .owWriteByte)

/-- `host waits at least T_CONV` (R265): T_CONV µs, the host parameter R11 leaves open, and `slack` µs more, on the host's
own timer (R293; log 25). -/
def hostWait (tConv slack : Nat) (s : State) : State := s.letPass (tConv + slack)

/-- `convert_temperature(selector)` (R265): the selector, 0x44, and the wait. A failed presence check stops it before the
wait (R262). -/
def convertTemperature (tConv slack : Nat) (sel : Selector) : Selector := fun s =>
  let begun := afterPresence sel [.owWriteByte 0x44] s
  if begun.1 = 1 then (begun.1, hostWait tConv slack begun.2) else begun

/-- `decode_temperature(lsb, msb)` in sixteenths of a degree Celsius (R268): with `v := {msb, lsb}`, `v` if `v[15]` is 0,
else `−((NOT v + 1) mod 2^16)`. -/
def decodeTemperature (lsb msb : Byte) : Int :=
  if (msb ++ lsb).getLsbD 15 then -((~~~(msb ++ lsb) + 1#16).toNat : Int) else ((msb ++ lsb).toNat : Int)

/-- `n / 16` as an IEEE 754 binary32 pattern, exact for the magnitudes R268 gives, which are at most 32768
sixteenths (D26). -/
def binary32OfSixteenths (n : Int) : Word :=
  if n = 0 then 0
  else
    BitVec.ofNat 32
      ((if n < 0 then 2 ^ 31 else 0) + (123 + n.natAbs.log2) * 2 ^ 23 + (n.natAbs * 2 ^ (23 - n.natAbs.log2) - 2 ^ 23))

/-- What a temperature reading gives: the failed presence outcome (R262), or a binary32 value (R268). -/
inductive Reading where
  | failed (code : BitVec 2)
  | celsius (binary32 : Word)
  deriving DecidableEq, Repr

/-- Two bytes read, LSB then MSB (R266). -/
def readTwoBytes (s : State) : Byte × Byte × State :=
  let t := hostDo .owReadByte s
  let u := hostDo .owReadByte t
  ((hostRead .data t).extractLsb' 0 8, (hostRead .data u).extractLsb' 0 8, u)

/-- `read_temperature(selector)` (R266). -/
def readTemperature (sel : Selector) (s : State) : Reading × State :=
  let ready := afterPresence sel [.owWriteByte 0xBE] s
  if ready.1 = 1 then
    let got := readTwoBytes ready.2
    (.celsius (binary32OfSixteenths (decodeTemperature got.1 got.2.1)), got.2.2)
  else (.failed ready.1, ready.2)

/-- A conversion pass with its delay, then a read pass (R271, R272). -/
def fullReading (tConv slack : Nat) (sel : Selector) (s : State) : Reading × State :=
  let converted := convertTemperature tConv slack sel s
  if converted.1 = 1 then readTemperature sel converted.2 else (.failed converted.1, converted.2)

/-! ## Public operations (R267, R269 to R272) -/

/-- `init()` (R269). -/
def initBus : Selector := presenceCheck

/-- The ROM Code copied out of ROM0 and ROM1 (R267). -/
def copyRom (s : State) : Rom := hostRead .rom1 s ++ hostRead .rom0 s

/-- The loop of R270 with room for `room` more ROM Codes. -/
def enumerateLoop : Nat → State → List Rom × State
  | 0, s => ([], s)
  | room + 1, s =>
    if (hostRead .status s).extractLsb' 12 2 ≠ 1#2 then ([], s)
    else if room = 0 then ([copyRom s], s)
    else if (hostRead .status s).extractLsb' 8 2 = 2#2 then ([copyRom s], s)
    else
      let rest := enumerateLoop room (hostDo .searchNext s)
      (copyRom s :: rest.1, rest.2)

/-- `enumerate_devices(capacity)` (R270). -/
def enumerateDevices (capacity : Nat) (s : State) : List Rom × State :=
  if capacity = 0 then ([], s) else enumerateLoop capacity (hostDo .searchFirst s)

/-- `read_temperature_single()` (R271). -/
def readTemperatureSingle (tConv slack : Nat) (s : State) : Reading × State := fullReading tConv slack selectSkipRom s

/-- `read_temperature(rom)` (R272). -/
def readTemperatureOf (tConv slack : Nat) (r : Rom) (s : State) : Reading × State :=
  fullReading tConv slack (selectMatchRom r) s

end Sys2Proof.Machine
end

