-- ==== Sys2Proof/Safety.lean ====
section
/-!
DEFINITION. What counts as a safe state and a safe input, in the terms the claims use.
-/

namespace Sys2Proof.Machine

/-- Every state variable of R32 holds the reset value of R58. -/
structure State.AtReset (s : State) : Prop where
  busy : s.busy = false
  pending : s.pending = none
  cmdLast : s.cmdLast = 0
  ill : s.ill = false
  ovr : s.ovr = false
  pres : s.pres = .none
  sres : s.sres = .none
  data : s.data = 0
  acc : s.acc = 0
  ld : s.ld = 0
  lfd : s.lfd = 0
  ldf : s.ldf = false
  rom : s.rom = 0
  drive : s.drive = .released

/-- The state invariant. A run from reset never leaves it. -/
structure State.Inv (s : State) : Prop where
  /-- `pending` is none exactly when `busy = 0` (R32, R52). -/
  pending_iff_busy : s.pending.isSome = s.busy
  /-- `pending` holds an accepted, so legal, word (R142), which is the last accepted one. -/
  pending_legal : ∀ p, s.pending = some p → legal (p.setWidth 32) = true ∧ s.cmdLast = p
  /-- CMD reads a legal word or, before the first acceptance, 0 (R34, R58). -/
  last_legal : s.cmdLast = 0 ∨ legal (s.cmdLast.setWidth 32) = true
  /-- Between the controller's steps the line is released (R54, R160). -/
  drive_released : s.drive = .released
  /-- `ld` is 0 to 64 (R7). -/
  ld_range : s.ld.toNat ≤ 64
  /-- `lfd` is 0 to 8 (R7). -/
  lfd_range : s.lfd.toNat ≤ 8
  /-- EXHAUSTED has `ld = 0` (R232). -/
  exhausted_ld : s.ldf = true → s.ld = 0
  /-- IDLE has `lfd = 0` too: the Idle defaults (R235). -/
  idle_lfd : s.ldf = false → s.ld = 0 → s.lfd = 0
  /-- A found ROM Code is valid and not all zero, and leaves ACTIVE or EXHAUSTED (R231, R232, R246). -/
  found_valid : s.sres = .found → romValid s.rom = true ∧ s.rom ≠ 0 ∧ searchStateCode s.ld s.ldf ≠ 0
  /-- After a failed pass the search state is IDLE (R233). -/
  failed_idle : s.sres = .failed → s.ld = 0 ∧ s.ldf = false
  /-- EXHAUSTED is reported only in the EXHAUSTED state, whose ROM buffer still holds the last device (R238, R320). -/
  exhausted_state : s.sres = .exhausted → s.ldf = true ∧ romValid s.rom = true ∧ s.rom ≠ 0
  /-- Before any search command the search state is cleared (R58). -/
  unsearched : s.sres = .none → s.ld = 0 ∧ s.ldf = false ∧ s.rom = 0
  /-- While reset is asserted every state variable holds its reset value (R310). -/
  reset_held : s.inReset = true → s.AtReset

/-- The host's access is of a form with a meaning: 32 bits wide and aligned, or not in the window (R81, R84). -/
def Input.acceptable : Input → Bool
  | .read addr width => match accessTarget addr width with | .meaningless _ => false | _ => true
  | .write addr width _ => match accessTarget addr width with | .meaningless _ => false | _ => true
  | .run => true
  | .wait _ => true
  | .assertReset _ => true
  | .releaseReset => true
  | .changeBus _ => true

/-- One slot's event is what the bus answers to the history so far: a reset slot's outcome and a read slot's bit are its
answers, and a write slot needs none (R100, R165). `Abort` is no slot. -/
def AnswersEvent (bus : Bus) (h : List BusEvent) : BusEvent → Prop
  | .rst o => o = bus.resetAnswer h
  | .r b => b = bus.readAnswer h
  | .w _ => True
  | .abort => False

/-- Every event of `es`, appended in order to the history `h` on the bus `bus`, is what that bus then answers (R100). -/
def Answered (bus : Bus) (h : List BusEvent) : List BusEvent → Prop
  | [] => True
  | e :: es => AnswersEvent bus h e ∧ Answered (bus.after e) (h ++ [e]) es

/-- One position of a search pass: the pair of bits read and the direction written (R226 to R230). -/
structure Resolved where
  id : Bool
  cmp : Bool
  dir : Bool
  deriving DecidableEq, Repr

/-- A discrepancy at which the pass took 0 (R229). -/
def Resolved.isZero (x : Resolved) : Bool := !x.id && !x.cmp && !x.dir

/-- The three slots of a resolved position (R239). -/
def Resolved.events (x : Resolved) : List BusEvent := [.r x.id, .r x.cmp, .w x.dir]

/-- The slots after the Search ROM byte: the resolved positions, and the pair `1,1` that ended the pass, if one did
(R239). -/
def positionEvents (ts : List Resolved) (noResponse : Bool) : List BusEvent :=
  ts.flatMap Resolved.events ++ if noResponse then [.r true, .r true] else []

/-- The slots of a pass whose reset slot was answered OK: the reset, 0xF0 from bit 0, and the positions (R239). -/
def passEvents (ts : List Resolved) (noResponse : Bool) : List BusEvent :=
  [.rst .ok, .w false, .w false, .w false, .w false, .w true, .w true, .w true, .w true] ++ positionEvents ts noResponse

/-- A run is safe when no step of it stops: every step answers a next state. -/
def State.runsSafely : Nat → State → Prop
  | 0, _ => True
  | n + 1, s => ∃ t, step s = .next t ∧ t.runsSafely n

end Sys2Proof.Machine
end

