-- ==== Sys2Proof/Certificates/Slice0/Obligations.lean ====
section
/-!
DEFINITION. The statements for the provers. Each docstring names the rules of spec/ it formalises; "log n" is
notes/assumptions/n.md.

OWC has no memory (R80, R150), so there is no byte of memory a frame could speak of. Its state is the registers, the bus
history, the bus agent and the queue of inputs, and every frame below speaks of all of them: an equation `t = ...` with a
record update says that every field not named is unchanged.
-/

open Sys2Proof Sys2Proof.Machine

/-! ## Vocabulary of the statements -/

namespace Sys2Proof.Claims

/-- The host is about to read register `r`, and after that does `rest`. -/
def hostReads (r : Reg) (rest : List Input) (s : State) : State :=
  { s with inputs := .read (Config.owcBase + r.offset) .word :: rest }

/-- The host is about to write `v` to register `r`, and after that does `rest`. -/
def hostWrites (r : Reg) (v : Word) (rest : List Input) (s : State) : State :=
  { s with inputs := .write (Config.owcBase + r.offset) .word v :: rest }

/-- The host's next action is `i`, and after that it does `rest`. -/
def hostActs (i : Input) (rest : List Input) (s : State) : State := { s with inputs := i :: rest }

/-- The step that serves a read of register `r` gives the host `v`, and changes nothing else (R82, R86). Which value indexes
the next free one is the model's own (log 5). -/
def ReadAnswers (r : Reg) (s : State) (v : Word) : Prop :=
  ∀ rest, ∃ n, step (hostReads r rest s) =
    .next { s with inputs := rest, responses := s.responses ++ [v], draws := n }

/-- The word is legal, is the assembled word of the command, and decodes to it. -/
def NamesCommand (w : Word) (i : Instr) : Prop := legal w = true ∧ encode i = w ∧ decode w = .ok i

/-- The word is illegal, for the reason `why`. -/
def NamesNothing (w : Word) (why : DecodeReject) : Prop := legal w = false ∧ decode w = .error why

/-- What the step makes of a command's outcome: the completion event of R145. -/
def completed : Host.Outcome State Fault Refusal → Host.Outcome State Fault Refusal
  | .next t => .next { t with pending := none, busy := false }
  | .fault r => .fault r
  | .refused r => .refused r

/-- `n` is the deepest position up to `limit` at which the pass took 0 at a discrepancy, or 0 if there is none (R229). -/
def DeepestZero (ts : List Resolved) (limit n : Nat) : Prop :=
  (n = 0 ∧ ∀ k (h : k < ts.length), k + 1 ≤ limit → ts[k].isZero = false) ∨
  (1 ≤ n ∧ n ≤ limit ∧ (∃ h : n - 1 < ts.length, ts[n - 1].isZero = true) ∧
    ∀ k (h : k < ts.length), n < k + 1 → k + 1 ≤ limit → ts[k].isZero = false)

/-- The three conditions of R231. -/
def PassSucceeds (ts : List Resolved) (t : State) : Prop := ts.length = 64 ∧ t.acc = 0 ∧ t.rom ≠ 0

/-- What R223 to R236 say of a pass from `s` (with `ldf = 0`) to `t`, in terms of the slots it performed. -/
def PassMeetsRules (s t : State) : Prop :=
  -- R224: a reset slot that is not OK ends the pass
  (∃ o, o ≠ .ok ∧ AnswersEvent s.bus s.history (.rst o) ∧
    t = { s with
      history := s.history ++ [.rst o], bus := s.bus.after (.rst o), drive := .released,
      acc := 0, ld := 0, ldf := false, lfd := 0, sres := .failed }) ∨
  (∃ ts noResponse,
    -- R239: the slots; R226: the pass ends early exactly on a 1,1 pair
    Answered s.bus s.history (passEvents ts noResponse) ∧
    (ts.length = 64 ∧ noResponse = false ∨ ts.length < 64 ∧ noResponse = true) ∧
    -- R226 to R228: the direction at each position
    (∀ k (h : k < ts.length),
      ¬(ts[k].id = true ∧ ts[k].cmp = true) ∧
      (ts[k].id ≠ ts[k].cmp → ts[k].dir = ts[k].id) ∧
      (ts[k].id = ts[k].cmp → ts[k].dir =
        if k + 1 < s.ld.toNat then romBit s.rom (k + 1) else decide (k + 1 = s.ld.toNat))) ∧
    -- R230, R236: resolved positions of the buffer, and the others
    (∀ k, k < 64 → romBit t.rom (k + 1) = if h : k < ts.length then ts[k].dir else romBit s.rom (k + 1)) ∧
    t.acc = crc8 ((romBytes t.rom).take (ts.length / 8)) ∧
    -- R229, R231, R232
    (PassSucceeds ts t → t.sres = .found ∧ DeepestZero ts 64 t.ld.toNat ∧ t.ldf = decide (t.ld = 0) ∧
      ∃ n, DeepestZero ts 8 n ∧ t.lfd = if n = 0 then s.lfd else BitVec.ofNat 7 n) ∧
    -- R233, R235
    (¬PassSucceeds ts t → t.sres = .failed ∧ t.ld = 0 ∧ t.ldf = false ∧ t.lfd = 0) ∧
    -- R221: nothing else changes
    t = { s with
      history := s.history ++ passEvents ts noResponse, bus := s.bus.afterAll (passEvents ts noResponse),
      drive := .released, rom := t.rom, acc := t.acc, ld := t.ld, ldf := t.ldf, lfd := t.lfd, sres := t.sres })

/-- The state SEARCH_FIRST's pass starts from (R237). -/
def sessionStart (s : State) : State := { s with ld := 0, ldf := false, lfd := 0, rom := 0 }

/-- R240's rows for a command that runs one pass, from `s` (where the pass starts) to `t`: FOUND after a pass that
succeeds, in EXHAUSTED or ACTIVE by its `last_zero`, and FAILED in IDLE after any other. -/
def PassTransition (s t : State) : Prop :=
  (∃ o, o ≠ .ok ∧ t.history = s.history ++ [.rst o] ∧ t.sres = .failed ∧ searchStateCode t.ld t.ldf = 0) ∨
  (∃ ts noResponse lastZero,
    t.history = s.history ++ passEvents ts noResponse ∧ DeepestZero ts 64 lastZero ∧
    (PassSucceeds ts t → t.sres = .found ∧ searchStateCode t.ld t.ldf = if lastZero = 0 then 2 else 1) ∧
    (¬PassSucceeds ts t → t.sres = .failed ∧ searchStateCode t.ld t.ldf = 0))

/-- `w` is the IEEE 754 binary32 pattern whose value is exactly `n / 16`: 0 for 0, and for any other `n` a normal number
with the sign of `n` and `(1 + fraction / 2^23) * 2^(exponent - 127) = |n| / 16` (R268). -/
def IsBinary32OfSixteenths (w : Word) (n : Int) : Prop :=
  (n = 0 → w = 0) ∧
  (n ≠ 0 → w.getLsbD 31 = decide (n < 0) ∧
    1 ≤ (w.extractLsb' 23 8).toNat ∧ (w.extractLsb' 23 8).toNat ≤ 254 ∧
    (2 ^ 23 + (w.extractLsb' 0 23).toNat) * 2 ^ (w.extractLsb' 23 8).toNat = n.natAbs * 2 ^ (127 + 23 - 4))

/-- The selectors of R263 and R264, each with the bytes it writes after its presence check. -/
inductive SelectorWrites : Selector → List Byte → Prop where
  | skip : SelectorWrites selectSkipRom [0xCC]
  | matchRom (r : Rom) : SelectorWrites (selectMatchRom r) (0x55 :: romBytes r)

/-- The write slots of a sequence of bytes, each from bit 0 (R98). -/
def byteSlots (bytes : List Byte) : List BusEvent :=
  bytes.flatMap fun v => (List.range 8).map fun i => .w (v.getLsbD i)

/-- The polling loop of R161 looks at the line at its `k`-th sample: it has not given up before, at `bound`. -/
def Polled (t : Timing) (bound k : Nat) : Prop := k = 0 ∨ (k - 1) * t.tPoll < bound

/-- The order of R241: the first position at which two ROM Codes differ has 0 in the earlier one. -/
def RomBefore (a b : Rom) : Prop :=
  ∃ p, 1 ≤ p ∧ p ≤ 64 ∧ (∀ q, 1 ≤ q → q < p → romBit a q = romBit b q) ∧ romBit a p = false ∧ romBit b p = true

/-- The longest each command's slots last with the default timing, in µs (R328). -/
def durationBound : Instr → Nat
  | .owReset => 1247
  | .owWriteBit _ => 64
  | .owReadBit => 60
  | .owWriteByte _ => 512
  | .owReadByte => 480
  | .crcClear => 0
  | .crcStep _ => 0
  | .searchFirst => 13535
  | .searchNext => 13535

end Sys2Proof.Claims

open Sys2Proof.Claims

/-! ## Encoding -/

/-- R138, R141: decoding gives exactly the well-formed command whose assembled word it is, so encoding and decoding agree
in both directions and no bit of a word is dropped. -/
def Obligations.DecodeAgreesWithEncode : Prop :=
  ∀ (w : Word) (i : Instr), decode w = .ok i ↔ i.wellFormed = true ∧ encode i = w

/-- R138: a word decodes exactly when the legality predicate holds, `legal` computes that predicate, and the CMD write of
any other word raises Illegal: `ill` is set and nothing else changes. -/
def Obligations.DecodeAcceptsExactlyTheLegalWords : Prop :=
  ∀ w : Word,
    ((∃ i, decode w = .ok i) ↔ legal w = true) ∧
    (legal w = true ↔
      w.extractLsb' 16 16 = 0 ∧ w.extractLsb' 4 4 = 0 ∧
      ((w.extractLsb' 0 4 = 4 ∨ w.extractLsb' 0 4 = 7) ∨
       (w.extractLsb' 0 4 = 2 ∧ w.extractLsb' 9 7 = 0) ∨
       ((w.extractLsb' 0 4 = 1 ∨ w.extractLsb' 0 4 = 3 ∨ w.extractLsb' 0 4 = 5 ∨ w.extractLsb' 0 4 = 6 ∨
          w.extractLsb' 0 4 = 8 ∨ w.extractLsb' 0 4 = 9) ∧ w.extractLsb' 8 8 = 0))) ∧
    (∀ (s : State) (rest : List Input), s.inReset = false → s.busy = false → legal w = false →
      step (hostWrites .cmd w rest s) = .next { s with inputs := rest, ill := true })

/-- R136: the rows of the match and mask table that select a word are exactly the row of the command it decodes to, and
none for a word that decodes to nothing. So no two rows match the same word. -/
def Obligations.TableRowsSelectTheDecodedCommand : Prop :=
  ∀ w : Word, (opcodeTable.filter (·.selects w)).map (·.mnemonic) =
    match decode w with
    | .ok i => [i.mnemonic]
    | .error _ => []

/-- R147: the encoding examples: the legal words are the assembled words of their commands (R141) and decode to them; the
others are illegal. -/
def Obligations.SpecEncodingExamplesDecode : Prop :=
  NamesCommand 0x00000001 .owReset ∧
  NamesCommand 0x0000CC04 (.owWriteByte 0xCC) ∧
  NamesCommand 0x0000F004 (.owWriteByte 0xF0) ∧
  NamesCommand 0x00000102 (.owWriteBit 1) ∧
  NamesCommand 0x00002807 (.crcStep 0x28) ∧
  NamesNothing 0x00000202 .argumentNotABit ∧
  NamesNothing 0x00000101 .argumentNotZero ∧
  NamesNothing 0x00000000 .reservedOp ∧
  NamesNothing 0x0000000A .reservedOp ∧
  NamesNothing 0x00000014 .reservedLow ∧
  NamesNothing 0x00010001 .reservedHigh

/-! ## Host accesses -/

/-- R142, R282, R283, R286: a CMD write overruns while busy, whatever the word; otherwise a legal word is latched and
starts, and any other sets ILL. Nothing else changes in any of the three. -/
def Obligations.CommandWriteIsAcceptedOrRejected : Prop :=
  ∀ (s : State) (w : Word) (rest : List Input), s.inReset = false →
    step (hostWrites .cmd w rest s) = .next
      (if s.busy then { s with inputs := rest, ovr := true }
       else if legal w then
         { s with inputs := rest, cmdLast := w.extractLsb' 0 16, pending := some (w.extractLsb' 0 16), busy := true }
       else { s with inputs := rest, ill := true })

/-- R35 to R38: a read of STATUS, busy or not, gives the host every field at its place, the result fields while no command
executes (R56); all 0 after reset; and the write-1-to-clear of ILL and OVR, which changes nothing else, busy or not. That
the reserved bits read 0 while a command executes is the model's reading of R35 (log 5, DEDUCED). -/
def Obligations.StatusReadsItsFieldsAndClearsItsErrorBits : Prop :=
  (∀ s : State, s.inReset = false →
    ReadAnswers .status s (hostRead .status s) ∧
    (hostRead .status s).getLsbD 0 = s.busy ∧
    (hostRead .status s).getLsbD 1 = s.ill ∧
    (hostRead .status s).getLsbD 2 = s.ovr ∧
    (hostRead .status s).getLsbD 3 = false ∧
    (s.busy = false → (hostRead .status s).extractLsb' 4 2 = s.pres.code) ∧
    (hostRead .status s).extractLsb' 6 2 = 0 ∧
    (s.busy = false → (hostRead .status s).extractLsb' 8 2 = searchStateCode s.ld s.ldf) ∧
    (hostRead .status s).extractLsb' 10 2 = 0 ∧
    (s.busy = false → (hostRead .status s).extractLsb' 12 2 = s.sres.code) ∧
    (hostRead .status s).extractLsb' 14 18 = 0) ∧
  hostRead .status State.reset = 0 ∧
  (∀ (s : State) (v : Word) (rest : List Input), s.inReset = false →
    step (hostWrites .status v rest s) = .next { s with
      inputs := rest
      ill := if v.getLsbD 1 then false else s.ill
      ovr := if v.getLsbD 2 then false else s.ovr })

/-- R39 to R41: the codes of PRES and SRES, and SSTATE from `ld` and `ldf`. -/
def Obligations.ResultFieldCodesAreTheSpecs : Prop :=
  Pres.none.code = 0 ∧ Pres.ok.code = 1 ∧ Pres.noPresence.code = 2 ∧ Pres.releaseFailure.code = 3 ∧
  SearchResult.none.code = 0 ∧ SearchResult.found.code = 1 ∧ SearchResult.failed.code = 2 ∧
  SearchResult.exhausted.code = 3 ∧
  (∀ ld : BitVec 7, searchStateCode ld true = 2) ∧
  (∀ ld : BitVec 7, ld ≠ 0 → searchStateCode ld false = 1) ∧
  searchStateCode 0 false = 0

/-- R47, R83: a write to DATA, CRC, SEARCH, ROM0, ROM1 or the reserved offset has no effect. -/
def Obligations.ReadOnlyRegistersIgnoreWrites : Prop :=
  ∀ (s : State) (r : Reg) (v : Word) (rest : List Input), r ≠ .cmd → r ≠ .status →
    step (hostWrites r v rest s) = .next { s with inputs := rest }

/-- R34, R42 to R47, R82: what each register but STATUS reads while no command executes. -/
def Obligations.IdleReadsReturnTheRegisters : Prop :=
  ∀ (s : State) (r : Reg) (rest : List Input), s.inReset = false → s.busy = false → r ≠ .status →
    ∃ t v, step (hostReads r rest s) = .next t ∧
      t = { s with inputs := rest, responses := s.responses ++ [v], draws := t.draws } ∧
      v.extractLsb' 0 8 = (match r with
        | .cmd => s.cmdLast.extractLsb' 0 8
        | .data => s.data
        | .crc => s.acc
        | .search => 0#1 ++ s.ld
        | .rom0 => romByte s.rom 0
        | .rom1 => romByte s.rom 4
        | _ => 0) ∧
      v.extractLsb' 8 8 = (match r with
        | .cmd => s.cmdLast.extractLsb' 8 8
        | .search => 0#1 ++ s.lfd
        | .rom0 => romByte s.rom 1
        | .rom1 => romByte s.rom 5
        | _ => 0) ∧
      v.extractLsb' 16 8 = (match r with
        | .search => 0#7 ++ BitVec.ofBool s.ldf
        | .rom0 => romByte s.rom 2
        | .rom1 => romByte s.rom 6
        | _ => 0) ∧
      v.extractLsb' 24 8 = (match r with
        | .rom0 => romByte s.rom 3
        | .rom1 => romByte s.rom 7
        | _ => 0)

/-- R56: while a command executes, a read still answers; CMD, BUSY, ILL and OVR read exactly, and every reserved bit reads 0.
That reserved bits still read 0 is read from R35, R42 to R44 (log 5, DEDUCED). -/
def Obligations.BusyReadsAreExactWhereTheyMustBe : Prop :=
  ∀ s : State, s.inReset = false → s.busy = true →
    (∀ r, ReadAnswers r s (hostRead r s)) ∧
    hostRead .cmd s = s.cmdLast.setWidth 32 ∧
    (hostRead .status s).getLsbD 0 = true ∧
    (hostRead .status s).getLsbD 1 = s.ill ∧
    (hostRead .status s).getLsbD 2 = s.ovr ∧
    (hostRead .status s).getLsbD 3 = false ∧
    (hostRead .status s).extractLsb' 6 2 = 0 ∧
    (hostRead .status s).extractLsb' 10 2 = 0 ∧
    (hostRead .status s).extractLsb' 14 18 = 0 ∧
    (hostRead .data s).extractLsb' 8 24 = 0 ∧
    (hostRead .crc s).extractLsb' 8 24 = 0 ∧
    (hostRead .search s).getLsbD 7 = false ∧
    (hostRead .search s).getLsbD 15 = false ∧
    (hostRead .search s).extractLsb' 17 15 = 0 ∧
    hostRead .reserved s = 0

/-- R82, R86: a read, of whatever form and in whatever state, changes nothing of OWC, the line or the bus; one that selects a
register returns that register's value; and a read repeated while no command executes returns the same value. -/
def Obligations.ReadsChangeNothingAndRepeat : Prop :=
  ∀ (s t : State) (addr : Nat) (width : AccessWidth) (rest : List Input),
    step { s with inputs := .read addr width :: rest } = .next t →
      (∃ v, t = { s with inputs := rest, responses := s.responses ++ [v], draws := t.draws } ∧
        ∀ r, accessTarget addr width = .reg r → v = hostRead r s) ∧
      (s.busy = false → ∀ r, hostRead r t = hostRead r s)

/-- R84: an access in the window that is not 32 bits wide, or not at a multiple of 4, has no step. That this
holds also while reset is asserted, where R310 has writes ignored and reads return 0, is the model's reading (log 8,
DEDUCED). -/
def Obligations.MeaninglessAccessIsRefused : Prop :=
  ∀ (s : State) (off : Nat) (width : AccessWidth) (v : Word) (rest : List Input),
    off < 32 → width ≠ .word ∨ off % 4 ≠ 0 →
    ∃ why, (why = .accessNotWordWide width ∨ why = .accessMisaligned off) ∧
      step { s with inputs := .read (Config.owcBase + off) width :: rest } = .refused why ∧
      step { s with inputs := .write (Config.owcBase + off) width v :: rest } = .refused why

/-- R81: an access outside the window is not OWC's. A write leaves everything as it is, and a read gives the host some
value; what it gives is the platform's (log 7). -/
def Obligations.ForeignAccessLeavesOwcAlone : Prop :=
  ∀ (s : State) (addr : Nat) (width : AccessWidth) (v : Word) (rest : List Input),
    addr < Config.owcBase ∨ Config.owcBase + 32 ≤ addr →
    step { s with inputs := .write addr width v :: rest } = .next { s with inputs := rest } ∧
    ∃ t x, step { s with inputs := .read addr width :: rest } = .next t ∧
      t = { s with inputs := rest, responses := s.responses ++ [x], draws := t.draws }

/-! ## Reset -/

/-- R58: the reset values, that SSTATE is then IDLE, and that every register reads 0. -/
def Obligations.ResetValuesAreTheSpecs : Prop :=
  State.reset.AtReset ∧ searchStateCode State.reset.ld State.reset.ldf = 0 ∧ ∀ r, hostRead r State.reset = 0

/-- R310 to R312: asserting reset gives every state variable its reset value, leaves the slaves to what they saw on the
line, and never shortens the history. A command cut short leaves the slots it had finished and `Abort`. Where the reset
falls after the last slot of a command, or in a command without slots, no `Abort` is appended: that is the model's
reading (log 9). -/
def Obligations.AssertedResetAbortsTheCommand : Prop :=
  ∀ (s : State) (k : Nat) (rest : List Input),
    ∃ t es, step { s with inputs := .assertReset k :: rest } = .next t ∧
      t.AtReset ∧ t.inReset = true ∧ t.inputs = rest ∧ t.responses = s.responses ∧ t.draws = s.draws ∧
      t.hostClock = s.hostClock ∧
      t.history = s.history ++ es ∧ t.bus = s.bus.afterAll es ∧
      (s.busy = false → es = []) ∧
      (∀ p i u full, s.busy = true → s.inReset = false → s.pending = some p → decode (p.setWidth 32) = .ok i →
        exec i { s with inputs := rest } = .next u → u.history = s.history ++ full →
        es = if k < full.length then full.take k ++ [.abort] else full)

/-- R310: while reset is asserted, host writes are ignored, reads return 0 and the controller does nothing; when it ends,
every state variable holds its reset value. -/
def Obligations.AssertedResetIgnoresTheHost : Prop :=
  ∀ (s : State) (r : Reg) (v : Word) (rest : List Input), s.inReset = true →
    step (hostWrites r v rest s) = .next { s with inputs := rest } ∧
    (∃ t, step (hostReads r rest s) = .next t ∧
      t = { s with inputs := rest, responses := s.responses ++ [0], draws := t.draws }) ∧
    step { s with inputs := .run :: rest } = .next { s with inputs := rest } ∧
    step { s with inputs := [] } = .next { s with inputs := [] } ∧
    ∃ t, step { s with inputs := .releaseReset :: rest } = .next t ∧ t.AtReset ∧ t.inReset = false ∧
      t.inputs = rest ∧ t.history = s.history ∧ t.bus = s.bus ∧ t.responses = s.responses ∧ t.draws = s.draws ∧
      t.hostClock = s.hostClock

/-! ## Execution -/

/-- R145: while `busy = 1` a step of the controller runs exactly the decoded pending command, and completes it. The
controller steps when the host lets time pass or has nothing more to do (log 2). -/
def Obligations.StepRunsThePendingCommand : Prop :=
  ∀ (s : State) (p : Half) (i : Instr) (rest : List Input),
    s.busy = true → s.inReset = false → s.pending = some p → decode (p.setWidth 32) = .ok i →
    step { s with inputs := .run :: rest } = completed (exec i { s with inputs := rest }) ∧
    step { s with inputs := [] } = completed (exec i { s with inputs := [] })

/-- R87, R149: while `busy = 0` the controller's turn, out of reset, changes nothing: OWC waits for the next CMD write. Time
the host lets pass changes nothing but the host's own timer (R166, R293; log 25), a change of the bus nothing but the bus,
and the end of a reset that is not asserted nothing at all (log 10). -/
def Obligations.NothingHappensWithoutACommand : Prop :=
  ∀ (s : State) (rest : List Input),
    (s.busy = false → s.inReset = false →
      step (hostActs .run rest s) = .next { s with inputs := rest } ∧
      step { s with inputs := [] } = .next { s with inputs := [] }) ∧
    (∀ us, step (hostActs (.wait us) rest s) = .next { s with inputs := rest, hostClock := s.hostClock + us }) ∧
    (∀ bus, step (hostActs (.changeBus bus) rest s) = .next { s with inputs := rest, bus := bus }) ∧
    (s.inReset = false → step (hostActs .releaseReset rest s) = .next { s with inputs := rest })

/-- Where a word is placed by `withFetchWord`, the very next step runs it (log 3). -/
def Obligations.PlacedWordRunsNext : Prop :=
  ∀ (s : State) (w : Word) (i : Instr), decode w = .ok i →
    step (s.withFetchWord 32 w.toNat) = completed (exec i { s with
      busy := true, pending := some (w.extractLsb' 0 16), cmdLast := w.extractLsb' 0 16, inReset := false })

/-- R145, R290: every command completes, in every state. -/
def Obligations.EveryCommandCompletes : Prop :=
  ∀ (i : Instr) (s : State), ∃ t, exec i s = .next t

/-- R99, R100, R165: a command appends its slots to the history in order, each reset outcome and each bit read is the bus's
answer to the history so far, and the bus follows the slots. -/
def Obligations.SlotsAreAnsweredByTheBus : Prop :=
  ∀ (i : Instr) (s t : State), exec i s = .next t →
    ∃ es, t.history = s.history ++ es ∧ t.bus = s.bus.afterAll es ∧ Answered s.bus s.history es

/-! ## The bit and byte commands -/

/-- R170: OW_RESET's word; its one reset slot, whose outcome it records in PRES, and that nothing else changes; RELEASE_FAILURE
on a stuck-low line and NO_PRESENCE on an empty bus. -/
def Obligations.OwResetReportsItsSlot : Prop :=
  encode .owReset = 0x00000001 ∧ decode 0x00000001 = .ok .owReset ∧
  ∀ s : State,
    (exec .owReset s = .next { s with
      pres := match s.bus.resetAnswer s.history with
        | .ok => .ok
        | .noPresence => .noPresence
        | .releaseFailure => .releaseFailure
      history := s.history ++ [.rst (s.bus.resetAnswer s.history)]
      bus := s.bus.after (.rst (s.bus.resetAnswer s.history))
      drive := .released }) ∧
    (∀ devices, s.bus = .reference devices true → s.bus.resetAnswer s.history = .releaseFailure) ∧
    (s.bus = .reference [] false → s.bus.resetAnswer s.history = .noPresence)

/-- R174: OW_WRITE_BIT's words; its one write slot with `arg[0]`, and that no register changes; and that an ARG with bits 7:1
not zero is illegal. That such an ARG, which no accepted word has, would write its bit 0 is the model's choice (log 15). -/
def Obligations.OwWriteBitWritesOneSlot : Prop :=
  encode (.owWriteBit 0) = 0x00000002 ∧ decode 0x00000002 = .ok (.owWriteBit 0) ∧
  encode (.owWriteBit 1) = 0x00000102 ∧ decode 0x00000102 = .ok (.owWriteBit 1) ∧
  (∀ arg : Byte, arg.extractLsb' 1 7 ≠ 0 → legal (encode (.owWriteBit arg)) = false) ∧
  ∀ (s : State) (arg : Byte), exec (.owWriteBit arg) s = .next { s with
    history := s.history ++ [.w (arg.getLsbD 0)], bus := s.bus.after (.w (arg.getLsbD 0)), drive := .released }

/-- R177: OW_READ_BIT's word; its one read slot, whose bit it zero-extends into DATA, and that nothing else changes; and that
with no device on the bus the bit is 1. -/
def Obligations.OwReadBitZeroExtendsTheSample : Prop :=
  encode .owReadBit = 0x00000003 ∧ decode 0x00000003 = .ok .owReadBit ∧
  ∀ s : State,
    (exec .owReadBit s = .next { s with
      data := if s.bus.readAnswer s.history then 1 else 0
      history := s.history ++ [.r (s.bus.readAnswer s.history)]
      bus := s.bus.after (.r (s.bus.readAnswer s.history))
      drive := .released }) ∧
    (s.bus = .reference [] false → s.bus.readAnswer s.history = true)

/-- R180, R98: OW_WRITE_BYTE's word, legal for every byte; its eight write slots, bit 0 first, and that no register changes. -/
def Obligations.OwWriteByteWritesLowBitFirst : Prop :=
  ∀ (s : State) (v : Byte),
    let es : List BusEvent := [.w (v.getLsbD 0), .w (v.getLsbD 1), .w (v.getLsbD 2), .w (v.getLsbD 3),
      .w (v.getLsbD 4), .w (v.getLsbD 5), .w (v.getLsbD 6), .w (v.getLsbD 7)]
    encode (.owWriteByte v) = 0x0000#16 ++ v ++ 0x04#8 ∧ decode (0x0000#16 ++ v ++ 0x04#8) = .ok (.owWriteByte v) ∧
    exec (.owWriteByte v) s = .next { s with history := s.history ++ es, bus := s.bus.afterAll es, drive := .released }

/-- R185, R98: OW_READ_BYTE's word; its eight read slots, each answered by the bus, bit i of DATA being the bit of the
(i+1)-th, and that nothing else changes; and that with no device on the bus DATA is 0xFF. -/
def Obligations.OwReadByteAssemblesLowBitFirst : Prop :=
  encode .owReadByte = 0x00000005 ∧ decode 0x00000005 = .ok .owReadByte ∧
  ∀ s : State, ∃ t, ∃ bits : List Bool, bits.length = 8 ∧ exec .owReadByte s = .next t ∧
    Answered s.bus s.history (bits.map .r) ∧
    (∀ i (h : i < bits.length), t.data.getLsbD i = bits[i]) ∧
    (s.bus = .reference [] false → t.data = 0xFF) ∧
    t = { s with
      data := t.data, history := s.history ++ bits.map .r, bus := s.bus.afterAll (bits.map .r), drive := .released }

/-! ## The checksum engine -/

/-- R205: CRC_CLEAR's word; it zeroes the accumulator, performs no slot and changes nothing else. -/
def Obligations.CrcClearZeroesTheAccumulator : Prop :=
  encode .crcClear = 0x00000006 ∧ decode 0x00000006 = .ok .crcClear ∧
  ∀ s : State, exec .crcClear s = .next { s with acc := 0 }

/-- R202, R206: CRC_STEP's word, legal for every byte; it folds its byte by one table lookup, performs no slot and changes
nothing else; folding the accumulator's own value gives 0, so that 0 stays 0 under 0. -/
def Obligations.CrcStepFoldsOneByte : Prop :=
  ∀ (s : State) (v : Byte),
    encode (.crcStep v) = 0x0000#16 ++ v ++ 0x07#8 ∧ decode (0x0000#16 ++ v ++ 0x07#8) = .ok (.crcStep v) ∧
    exec (.crcStep v) s = .next { s with acc := crcTable[(s.acc ^^^ v).toNat]?.getD 0 } ∧
    exec (.crcStep s.acc) s = .next { s with acc := 0 }

/-- R201: the generator gives the table of R200, entry by entry. Both are the spec's general knowledge (log 16). -/
def Obligations.GeneratorGivesTheTable : Prop :=
  crcTable.length = 256 ∧ ∀ i : Byte, crcTable[i.toNat]? = some (tgen i)

/-- R203: T[0] = 0, T is a bijection, T is linear over XOR, and a step gives 0 exactly on the accumulator's own value. -/
def Obligations.TableIsLinearAndBijective : Prop :=
  crcT 0 = 0 ∧ Function.Bijective crcT ∧ (∀ a b, crcT (a ^^^ b) = crcT a ^^^ crcT b) ∧
    ∀ a v, crcStep a v = 0 ↔ v = a

/-- R207, R208: the checksum of all eight bytes is 0 exactly for the valid ROM Codes, those whose byte 7 is the checksum of
bytes 0 to 6. -/
def Obligations.ZeroResidueIsValidity : Prop :=
  ∀ r : Rom, (romValid r = true ↔ crc8 ((romBytes r).take 7) = romByte r 7) ∧
    (crc8 (romBytes r) = 0 ↔ romValid r = true)

/-- R209: seven bytes with their checksum appended are a valid ROM Code, and flipping any one bit of a valid ROM Code makes
it invalid. -/
def Obligations.SingleBitErrorsAreDetected : Prop :=
  (∀ (r : Rom), romValid ((r.extractLsb' 0 56).setWidth 64 ||| (crc8 ((romBytes r).take 7)).setWidth 64 <<< 56) = true) ∧
  (∀ (r : Rom) (i : Nat), i < 64 → romValid r = true → romValid (r ^^^ (1#64 <<< i)) = false)

/-! ## The ROM search engine -/

/-- R223 to R237, R239: SEARCH_FIRST clears the search state and the ROM buffer, and SEARCH_NEXT keeps them; each then runs
one pass that meets every rule of a pass: its slots, its directions, what it stores, and its end. -/
def Obligations.SearchPassFollowsItsRules : Prop :=
  (∀ s : State, ∃ t, exec .searchFirst s = .next t ∧ PassMeetsRules (sessionStart s) t) ∧
  (∀ s : State, s.ldf = false → ∃ t, exec .searchNext s = .next t ∧ PassMeetsRules s t)

/-- R238: in the EXHAUSTED state SEARCH_NEXT reports EXHAUSTED, performs no slot and changes nothing else. -/
def Obligations.ExhaustedSearchNextOnlyReports : Prop :=
  ∀ s : State, s.ldf = true → exec .searchNext s = .next { s with sres := .exhausted }

/-- R240: the transitions of SSTATE and the SRES reported, for every command: after a pass by its result and `last_zero`. -/
def Obligations.SearchStateTransitions : Prop :=
  ∀ (i : Instr) (s t : State), exec i s = .next t →
    (i = .searchFirst → PassTransition (sessionStart s) t) ∧
    (i = .searchNext → searchStateCode s.ld s.ldf ≠ 2 → PassTransition s t) ∧
    (i = .searchNext → searchStateCode s.ld s.ldf = 2 →
      t.sres = .exhausted ∧ searchStateCode t.ld t.ldf = 2) ∧
    (i ≠ .searchFirst → i ≠ .searchNext →
      t.sres = s.sres ∧ searchStateCode t.ld t.ldf = searchStateCode s.ld s.ldf)

/-- R243: from IDLE, where `lfd` is 0 too (an invariant, State.Inv.idle_lfd), SEARCH_NEXT does what SEARCH_FIRST does, but
for ROM positions left unresolved: those keep their value, which SEARCH_FIRST has cleared. -/
def Obligations.SearchNextFromIdleIsAFirstPass : Prop :=
  ∀ s t u : State, s.ld = 0 → s.ldf = false → s.lfd = 0 →
    exec .searchNext s = .next t → exec .searchFirst s = .next u →
    t = { u with rom := t.rom } ∧ (t.sres = .found → t = u) ∧
    ∀ p, 1 ≤ p → p ≤ 64 →
      romBit t.rom p = romBit u.rom p ∨ (romBit t.rom p = romBit s.rom p ∧ romBit u.rom p = false)

/-- R245: `lfd` gates nothing. Two states that differ only in it stay equal but for it, whatever the command. -/
def Obligations.FamilyDiscrepancyGatesNothing : Prop :=
  ∀ (i : Instr) (s t u : State) (v : BitVec 7),
    exec i s = .next t → exec i { s with lfd := v } = .next u → u = { t with lfd := u.lfd }

/-- R186, R225, R239, R246: how many slots each command performs, and that a FOUND always carries a valid ROM Code that is
not all zero, after a full pass of 201 slots. -/
def Obligations.SlotCountsAreBoundedAndFoundRomsValid : Prop :=
  ∀ (i : Instr) (s t : State), exec i s = .next t →
    (i = .owReset ∨ (∃ a, i = .owWriteBit a) ∨ i = .owReadBit → t.history.length = s.history.length + 1) ∧
    ((∃ a, i = .owWriteByte a) ∨ i = .owReadByte → t.history.length = s.history.length + 8) ∧
    (i = .crcClear ∨ (∃ a, i = .crcStep a) → t.history = s.history) ∧
    (i = .searchFirst ∨ i = .searchNext → t.history.length ≤ s.history.length + 201 ∧
      (t.sres = .found → t.history.length = s.history.length + 201 ∧ romValid t.rom = true ∧ t.rom ≠ 0 ∧ t.acc = 0))

/-! ## Whole-machine rules -/

/-- R37, R41 to R43, R48 to R51, R57, R171: what no command writes, and which commands alone write each result field. -/
def Obligations.CommandsWriteOnlyTheirOwnRegisters : Prop :=
  ∀ (i : Instr) (s t : State), exec i s = .next t →
    (t.busy = s.busy ∧ t.pending = s.pending ∧ t.cmdLast = s.cmdLast ∧ t.ill = s.ill ∧ t.ovr = s.ovr ∧
      t.inReset = s.inReset ∧ t.inputs = s.inputs ∧ t.responses = s.responses ∧ t.draws = s.draws ∧
      t.hostClock = s.hostClock) ∧
    (i ≠ .owReset → t.pres = s.pres) ∧
    (i ≠ .owReadBit → i ≠ .owReadByte → t.data = s.data) ∧
    (i ≠ .searchFirst → i ≠ .searchNext →
      t.ld = s.ld ∧ t.lfd = s.lfd ∧ t.ldf = s.ldf ∧ t.rom = s.rom ∧ t.sres = s.sres) ∧
    (i ≠ .crcClear → (∀ a, i ≠ .crcStep a) → i ≠ .searchFirst → i ≠ .searchNext → t.acc = s.acc)

/-- The state after reset meets the invariant. -/
def Obligations.ResetStateMeetsTheInvariant : Prop := State.reset.Inv

/-- R7, R34, R52, R54, R231 to R235, R310, R320: every step, whatever the host and the bus do, keeps the invariant.
Its clause that the line is released also while a command executes is the model's choice (log 21): R54 gives it for an idle
block. -/
def Obligations.StepKeepsTheInvariant : Prop :=
  ∀ s t : State, s.Inv → step s = .next t → t.Inv

/-- R84, R145, R290: from a state that meets the invariant, a run whose accesses are of the one form with a meaning never
stops: no fault and no refusal, however long, whatever the bus answers. -/
def Obligations.AcceptableInputsNeverStopTheMachine : Prop :=
  ∀ (n : Nat) (s : State), s.Inv → (∀ i ∈ s.inputs, i.acceptable = true) → s.runsSafely n

/-- R99, R312: no step, reset included, takes anything back from the bus history. -/
def Obligations.HistoryOnlyGrows : Prop :=
  ∀ s t : State, step s = .next t → ∃ es, t.history = s.history ++ es

/-! ## The reference slave set -/

/-- R104: at position p the pair read is decided by the participating devices, the write slot keeps exactly those whose bit was
written, and after position 64 none takes further part. -/
def Obligations.SearchPairFollowsTheParticipants : Prop :=
  ∀ (devices : List Device) (h : List BusEvent) (p : Nat) (dir : Bool), 1 ≤ p → p ≤ 64 →
    (∀ d ∈ devices, d.phase = .search p 0 ∨ d.phase = .ignoring) →
    let bus := Bus.reference devices false
    let id := bus.readAnswer h
    let cmp := (bus.after (.r id)).readAnswer (h ++ [.r id])
    (id = true ↔ ∀ d ∈ devices, d.phase = .search p 0 → romBit d.romCode p = true) ∧
    (cmp = true ↔ ∀ d ∈ devices, d.phase = .search p 0 → romBit d.romCode p = false) ∧
    bus.afterAll [.r id, .r cmp, .w dir] = .reference (devices.map fun d =>
      if d.phase = .search p 0 ∧ romBit d.romCode p = dir ∧ p < 64 then { d with phase := .search (p + 1) 0 }
      else { d with phase := .ignoring }) false

/-- R106, R107: several devices that send at once give the AND of their bits, and a line nobody pulls reads 1. -/
def Obligations.SeveralSendersAreAnded : Prop :=
  ∀ (devices : List Device) (h : List BusEvent) (n : Nat), n < 16 →
    (∀ d ∈ devices, d.phase = .sending n ∨ d.phase = .ignoring) →
    (Bus.reference devices false).readAnswer h =
      devices.all (fun d => d.phase != .sending n || d.scratchpad.getLsbD n)

/-- R102, R109, R222: OW_RESET and SEARCH_FIRST on an empty bus and on a stuck-low line. -/
def Obligations.EmptyAndStuckLowBusesAreReported : Prop :=
  ∀ (s : State) (devices : List Device),
    (s.bus = .reference [] false →
      ∃ t u, exec .owReset s = .next t ∧ t.pres = .noPresence ∧
        exec .searchFirst s = .next u ∧ u.sres = .failed ∧ searchStateCode u.ld u.ldf = 0 ∧ u.pres = s.pres ∧
        u.history = s.history ++ [.rst .noPresence]) ∧
    (s.bus = .reference devices true →
      ∃ t u v, exec .owReset s = .next t ∧ t.pres = .releaseFailure ∧
        exec .searchFirst s = .next u ∧ u.sres = .failed ∧ searchStateCode u.ld u.ldf = 0 ∧ u.pres = s.pres ∧
        u.history = s.history ++ [.rst .releaseFailure] ∧
        exec .owReadByte s = .next v ∧ v.data = 0)

/-- R242: one device is found in one pass, which leaves `ld = 0` and SSTATE = EXHAUSTED; no pair it read is `0,0`, a
discrepancy. -/
def Obligations.SingleDeviceIsFoundInOnePass : Prop :=
  ∀ (s : State) (d : Device), s.bus = .reference [d] false → romValid d.romCode = true → d.romCode ≠ 0 →
    ∃ t ts, exec .searchFirst s = .next t ∧ t.sres = .found ∧ t.rom = d.romCode ∧ t.ld = 0 ∧
      searchStateCode t.ld t.ldf = 2 ∧ t.history = s.history ++ passEvents ts false ∧ ts.length = 64 ∧
      ∀ k (h : k < ts.length), ts[k] = ⟨romBit d.romCode (k + 1), !romBit d.romCode (k + 1), romBit d.romCode (k + 1)⟩

/-- R241, R270: on a reference bus of distinct, valid, non-zero ROM Codes, the enumeration with room for `capacity` devices
reports the first of them in the ascending order of R241, each once, and all of them if there is room; the pass that
reports the last leaves EXHAUSTED. That a DO line is the CMD write and then the controller's completion is log 22
(DEDUCED). -/
def Obligations.EnumerationFindsEveryDeviceInOrder : Prop :=
  ∀ (s : State) (devices : List Device) (capacity : Nat),
    s.busy = false → s.inReset = false → s.bus = .reference devices false →
    (devices.map (·.romCode)).Nodup → (∀ d ∈ devices, romValid d.romCode = true ∧ d.romCode ≠ 0) →
    let found := (enumerateDevices capacity s).1
    found.Pairwise RomBefore ∧
    found.length = min devices.length capacity ∧
    (∀ r ∈ found, ∃ d ∈ devices, d.romCode = r) ∧
    (∀ d ∈ devices, d.romCode ∈ found ∨ ∀ r ∈ found, RomBefore r d.romCode) ∧
    (devices ≠ [] → devices.length ≤ capacity → (enumerateDevices capacity s).2.ldf = true)

/-! ## The line -/

/-- R160, R164: every slot ends within its bound and with the line released, whatever the slaves do. That T_POLL is not 0 is
DEDUCED (log 19). -/
def Obligations.SlotsEndInBoundedTime : Prop :=
  (∀ (t : Timing) (pulls : Nat → Bool), t.wellFormed = true →
    (lineReset t pulls).2.time ≤ t.tRstl + t.tRel + t.tPdwait + t.tPdrel + 2 * t.tPoll ∧
    (lineReset t pulls).2.drive = .released) ∧
  (∀ (t : Timing) (b : Bool), (lineWrite t b).time = t.tWLow + t.tWVal + t.tWRec ∧ (lineWrite t b).drive = .released) ∧
  (∀ (t : Timing) (pulls : Nat → Bool),
    (lineRead t pulls).2.time = t.tRLow + t.tRSample + t.tRRest ∧ (lineRead t pulls).2.drive = .released) ∧
  slotBound .defaults (.rst .ok) = 1247 ∧ slotBound .defaults (.w true) = 64 ∧ slotBound .defaults (.r true) = 60

/-- R161, for every T_POLL but 0 (log 19): the loops look at the line at their start and then every T_POLL, the last time
at the first sample at or after the bound. A line high at all of the first loop's samples gives NO_PRESENCE; else its
first low sample starts the second loop, where a high sample gives OK and none gives RELEASE_FAILURE. What the line does
between samples decides nothing. -/
def Obligations.PresencePulseDecidesTheResetOutcome : Prop :=
  ∀ (t : Timing) (pulls : Nat → Bool), 0 < t.tPoll →
    let at_ := fun k => t.tRstl + t.tRel + k * t.tPoll
    ((∀ k, Polled t t.tPdwait k → pulls (at_ k) = false) → (lineReset t pulls).1 = .noPresence) ∧
    (∀ k, Polled t t.tPdwait k → pulls (at_ k) = true → (∀ j, j < k → pulls (at_ j) = false) →
      ((∃ m, Polled t t.tPdrel m ∧ pulls (at_ (k + m)) = false) → (lineReset t pulls).1 = .ok) ∧
      ((∀ m, Polled t t.tPdrel m → pulls (at_ (k + m)) = true) → (lineReset t pulls).1 = .releaseFailure))

/-- R162, R163: what OWC drives in a write slot, by the bit; and that a read slot samples the line once, T_R_LOW and
T_R_SAMPLE after its start. -/
def Obligations.WriteAndReadSlotsKeepTheirTimeline : Prop :=
  (∀ t : Timing, (lineWrite t false).trace = [⟨.low, t.tWLow⟩, ⟨.low, t.tWVal⟩, ⟨.released, t.tWRec⟩] ∧
    (lineWrite t true).trace = [⟨.low, t.tWLow⟩, ⟨.released, t.tWVal⟩, ⟨.released, t.tWRec⟩]) ∧
  (∀ (t : Timing) (pulls : Nat → Bool),
    (lineRead t pulls).1 = !pulls (t.tRLow + t.tRSample) ∧
    (lineRead t pulls).2.trace = [⟨.low, t.tRLow⟩, ⟨.released, t.tRSample⟩, ⟨.released, t.tRRest⟩])

/-- R328: the slots of a command last no longer than its row says, with the default timing. -/
def Obligations.CommandDurationsAreBounded : Prop :=
  ∀ (i : Instr) (s t : State) (es : List BusEvent), exec i s = .next t → t.history = s.history ++ es →
    slotsBound .defaults es ≤ durationBound i

/-! ## Host-side sequences -/

/-- R261: the host sequence answers the validity of its ROM, performs no slot, and leaves the checksum in `acc`. -/
def Obligations.ValidateRomSequenceDecidesValidity : Prop :=
  ∀ (s : State) (r : Rom), s.busy = false → s.inReset = false →
    (validateRom r s).1 = romValid r ∧ (validateRom r s).2.history = s.history ∧
    (validateRom r s).2.acc = crc8 ((romBytes r).take 7)

/-- R268: the decode is the two's-complement value of `{msb, lsb}` in sixteenths, 0x8000 included, and the binary32 result
is exactly that many sixteenths of a degree. -/
def Obligations.TemperatureDecodeIsTwosComplement : Prop :=
  (∀ lsb msb : Byte, decodeTemperature lsb msb = (msb ++ lsb).toInt) ∧
  (∀ n : Int, n.natAbs ≤ 32768 → IsBinary32OfSixteenths (binary32OfSixteenths n) n)

/-- R262 to R265, R11: after a good presence check a conversion pass writes its selector's bytes and 0x44, lets at least
T_CONV pass on the host's timer, and leaves the block idle. The timer is the model's (log 25), and a DO line is
read as log 22 says. -/
def Obligations.ConversionPassWritesItsBytesAndWaits : Prop :=
  ∀ (tConv slack : Nat) (sel : Selector) (bytes : List Byte) (s : State), SelectorWrites sel bytes →
    s.busy = false → s.inReset = false → s.bus.resetAnswer s.history = .ok →
    let converted := convertTemperature tConv slack sel s
    converted.1 = 1 ∧
    converted.2 = { s with
      cmdLast := 0x4404, pending := none, pres := .ok, drive := .released
      history := s.history ++ .rst .ok :: byteSlots (bytes ++ [0x44])
      bus := s.bus.afterAll (.rst .ok :: byteSlots (bytes ++ [0x44]))
      hostClock := converted.2.hostClock } ∧
    s.hostClock + tConv ≤ converted.2.hostClock

/-- R262, R269, R271, R272: where the reset slot is not answered OK, `init` and both readings report its outcome and stop:
one slot is performed, only CMD and PRES change, and nothing is waited for. A DO line is read as log 22 says. -/
def Obligations.FailedPresenceIsReportedAndStops : Prop :=
  ∀ (tConv slack : Nat) (r : Rom) (s : State), s.busy = false → s.inReset = false →
    s.bus.resetAnswer s.history ≠ .ok →
    let o := s.bus.resetAnswer s.history
    let code : BitVec 2 := if o = .noPresence then 2 else 3
    let t : State := { s with
      cmdLast := 0x0001, pending := none, pres := if o = .noPresence then .noPresence else .releaseFailure
      history := s.history ++ [.rst o], bus := s.bus.after (.rst o), drive := .released }
    initBus s = (code, t) ∧
    readTemperatureSingle tConv slack s = (.failed code, t) ∧
    readTemperatureOf tConv slack r s = (.failed code, t)

/-- R271, R273: on a reference bus with one device, a full reading through Skip ROM gives the device's temperature, to the
last bit of its binary32 value, and a second reading gives the same pattern; the host may wait T_CONV or longer each time.
That a DO line is the CMD write and then the completion is log 22 (DEDUCED), and that the wait is the host's timer alone is
log 25. -/
def Obligations.SingleDeviceReadingIsItsTemperature : Prop :=
  ∀ (tConv slack slack' : Nat) (s : State) (d : Device),
    s.busy = false → s.inReset = false → s.bus = .reference [d] false →
    let first := readTemperatureSingle tConv slack s
    ∃ w, IsBinary32OfSixteenths w d.temperature.toInt ∧ first.1 = .celsius w ∧
      (readTemperatureSingle tConv slack' first.2).1 = .celsius w

/-- R103, R105, R264, R272: on a reference bus of distinct ROM Codes a full reading through Match ROM gives the temperature of
the device addressed, whatever the others hold and wherever each device stood before. Only that device converts and sends,
and the others take no part until the next reset slot. DO and the wait are read as log 22 and log 25 say. -/
def Obligations.MatchRomReadingIsTheAddressedDevices : Prop :=
  ∀ (tConv slack : Nat) (s : State) (devices : List Device) (d : Device),
    s.busy = false → s.inReset = false → s.bus = .reference devices false →
    (devices.map (·.romCode)).Nodup → d ∈ devices →
    let reading := readTemperatureOf tConv slack d.romCode s
    (∃ w, IsBinary32OfSixteenths w d.temperature.toInt ∧ reading.1 = .celsius w) ∧
    reading.2.bus = .reference (devices.map fun e =>
      if e.romCode = d.romCode then { e with scratchpad := e.temperature, phase := .sending 16 }
      else { e with phase := .ignoring }) false
end

