-- ==== Sys2Proof/Laws/Decode.lean ====
section
/-!
SUPPORT. The fields of a command word, and what a word that decodes looks like.
-/

namespace Sys2Proof

/-- The fields of a word put together from fields. -/
theorem fields_append (h : BitVec 16) (a : Byte) (l o : BitVec 4) :
    fieldRsv1 (h ++ a ++ l ++ o) = h ∧ fieldArg (h ++ a ++ l ++ o) = a ∧
      fieldRsv0 (h ++ a ++ l ++ o) = l ∧ fieldOp (h ++ a ++ l ++ o) = o := by
  refine ⟨?_, ?_, ?_, ?_⟩ <;> apply BitVec.eq_of_getLsbD_eq <;> intro k hk <;>
    simp only [fieldRsv1, fieldRsv0, fieldArg, fieldOp, BitVec.getLsbD_append, BitVec.getLsbD_extractLsb', hk,
      decide_true, Bool.true_and]
  · rw [if_neg (by omega), if_neg (by omega), if_neg (by omega)]
    congr 1
    omega
  · rw [if_neg (by omega), if_neg (by omega), if_pos (by omega)]
    congr 1
    omega
  · rw [if_neg (by omega), if_pos (by omega)]
    congr 1
    omega
  · rw [if_pos (by omega)]
    congr 1
    omega

/-- The fields of an assembled word (R141). -/
theorem encode_fields (i : Instr) :
    fieldRsv1 (encode i) = 0 ∧ fieldArg (encode i) = i.arg ∧ fieldRsv0 (encode i) = 0 ∧ fieldOp (encode i) = i.op :=
  fields_append _ _ _ _

/-- A word is its four fields. -/
theorem word_eq_fields (w : Word) : w = fieldRsv1 w ++ fieldArg w ++ fieldRsv0 w ++ fieldOp w := by
  apply BitVec.eq_of_getLsbD_eq
  intro k hk
  simp only [fieldRsv1, fieldRsv0, fieldArg, fieldOp, BitVec.getLsbD_append, BitVec.getLsbD_extractLsb']
  by_cases h1 : k < 4
  · simp [h1]
  by_cases h2 : k < 8
  · have h3 : k - 4 < 4 := by omega
    have e : 4 + (k - 4) = k := by omega
    simp [h1, h3, e]
  by_cases h3 : k < 16
  · have h4 : ¬ k - 4 < 4 := by omega
    have h5 : k - 4 - 4 < 8 := by omega
    have e : 8 + (k - 4 - 4) = k := by omega
    simp [h1, h4, h5, e]
  · have h4 : ¬ k - 4 < 4 := by omega
    have h5 : ¬ k - 4 - 4 < 8 := by omega
    have h6 : k - 4 - 4 - 8 < 16 := by omega
    have e : 16 + (k - 4 - 4 - 8) = k := by omega
    simp [h1, h4, h5, h6, e]

theorem noOperand_ok {a : Byte} {i j : Instr} (h : noOperand a i = .ok j) : a = 0 ∧ j = i := by
  unfold noOperand at h
  split at h <;> simp_all

theorem bitOperand_ok {a : Byte} {j : Instr} (h : bitOperand a = .ok j) :
    a.extractLsb' 1 7 = 0 ∧ j = .owWriteBit a := by
  unfold bitOperand at h
  split at h <;> simp_all

/-- The OP and ARG fields that decode to a command are that command's, and the command is well formed. -/
theorem decodeOp_ok {o : BitVec 4} {a : Byte} {i : Instr} (h : decodeOp o.toNat a = .ok i) :
    a = i.arg ∧ o = i.op ∧ i.wellFormed = true := by
  unfold decodeOp at h
  split at h
  all_goals first
    | (obtain ⟨rfl, rfl⟩ := noOperand_ok h
       rename_i e
       exact ⟨rfl, BitVec.eq_of_toNat_eq e, rfl⟩)
    | (obtain ⟨e, rfl⟩ := bitOperand_ok h
       rename_i e'
       exact ⟨rfl, BitVec.eq_of_toNat_eq e', by simpa [Instr.wellFormed] using e⟩)
    | (simp at h; done)
    | (simp only [Except.ok.injEq] at h
       subst h
       rename_i e
       exact ⟨rfl, BitVec.eq_of_toNat_eq e, rfl⟩)

/-- What a word that decodes looks like, field by field. -/
theorem decode_ok {w : Word} {i : Instr} (h : decode w = .ok i) :
    fieldRsv1 w = 0 ∧ fieldRsv0 w = 0 ∧ fieldArg w = i.arg ∧ fieldOp w = i.op ∧ i.wellFormed = true := by
  unfold decode at h
  split at h
  · cases h
  rename_i h1
  split at h
  · cases h
  rename_i h2
  exact ⟨by simpa using h1, by simpa using h2, decodeOp_ok h⟩

/-- The operand bits of OW_WRITE_BIT, as the word has them. -/
theorem fieldArg_high (w : Word) : (fieldArg w).extractLsb' 1 7 = w.extractLsb' 9 7 := by
  apply BitVec.eq_of_getLsbD_eq
  intro k hk
  simp only [fieldArg, BitVec.getLsbD_extractLsb', hk, decide_true, Bool.true_and]
  rw [decide_eq_true (by omega)]
  simp [show 8 + (1 + k) = 9 + k by omega]

/-- A word that decodes is legal (R138). -/
theorem decode_legal {w : Word} {i : Instr} (h : decode w = .ok i) : legal w = true := by
  obtain ⟨h1, h2, h3, h4, h5⟩ := decode_ok h
  unfold legal
  rw [← fieldArg_high]
  change (fieldRsv1 w == 0#16 && fieldRsv0 w == 0#4 && ((fieldOp w == 4 || fieldOp w == 7) ||
    (fieldOp w == 2 && (fieldArg w).extractLsb' 1 7 == 0#7) ||
    ((fieldOp w == 1 || fieldOp w == 3 || fieldOp w == 5 || fieldOp w == 6 || fieldOp w == 8 || fieldOp w == 9) &&
      fieldArg w == 0#8))) = true
  rw [h1, h2, h3, h4]
  cases i <;> simp_all [Instr.op, Instr.arg, Instr.wellFormed]

/-- The bits 15:0 of a word that decodes are all of it. -/
theorem decode_low_half {w : Word} {i : Instr} (h : decode w = .ok i) : (w.extractLsb' 0 16).setWidth 32 = w := by
  have h1 := (decode_ok h).1
  apply BitVec.eq_of_getLsbD_eq
  intro k hk
  by_cases h2 : k < 16
  · simp [h2, hk]
  · have h3 : (fieldRsv1 w).getLsbD (k - 16) = false := by rw [h1]; simp
    have h4 : k - 16 < 16 := by omega
    have h5 : 16 + (k - 16) = k := by omega
    simp only [fieldRsv1, BitVec.getLsbD_extractLsb', h4, decide_true, Bool.true_and, h5] at h3
    simp [h2, h3]

end Sys2Proof
end

