-- ==== Sys2Proof/Laws/State.lean ====
section
/-!
SUPPORT. One lemma per field and per named update of the state, all true by rfl, so that no later proof unfolds a record
update.
-/

namespace Sys2Proof.Machine

variable (s : State)

/-! ## slot -/

@[simp] theorem State.slot_busy (e : BusEvent) : (s.slot e).busy = s.busy := rfl
@[simp] theorem State.slot_pending (e : BusEvent) : (s.slot e).pending = s.pending := rfl
@[simp] theorem State.slot_cmdLast (e : BusEvent) : (s.slot e).cmdLast = s.cmdLast := rfl
@[simp] theorem State.slot_ill (e : BusEvent) : (s.slot e).ill = s.ill := rfl
@[simp] theorem State.slot_ovr (e : BusEvent) : (s.slot e).ovr = s.ovr := rfl
@[simp] theorem State.slot_pres (e : BusEvent) : (s.slot e).pres = s.pres := rfl
@[simp] theorem State.slot_sres (e : BusEvent) : (s.slot e).sres = s.sres := rfl
@[simp] theorem State.slot_data (e : BusEvent) : (s.slot e).data = s.data := rfl
@[simp] theorem State.slot_acc (e : BusEvent) : (s.slot e).acc = s.acc := rfl
@[simp] theorem State.slot_ld (e : BusEvent) : (s.slot e).ld = s.ld := rfl
@[simp] theorem State.slot_lfd (e : BusEvent) : (s.slot e).lfd = s.lfd := rfl
@[simp] theorem State.slot_ldf (e : BusEvent) : (s.slot e).ldf = s.ldf := rfl
@[simp] theorem State.slot_rom (e : BusEvent) : (s.slot e).rom = s.rom := rfl
@[simp] theorem State.slot_drive (e : BusEvent) : (s.slot e).drive = .released := rfl
@[simp] theorem State.slot_history (e : BusEvent) : (s.slot e).history = s.history ++ [e] := rfl
@[simp] theorem State.slot_bus (e : BusEvent) : (s.slot e).bus = s.bus.after e := rfl
@[simp] theorem State.slot_inReset (e : BusEvent) : (s.slot e).inReset = s.inReset := rfl
@[simp] theorem State.slot_inputs (e : BusEvent) : (s.slot e).inputs = s.inputs := rfl
@[simp] theorem State.slot_responses (e : BusEvent) : (s.slot e).responses = s.responses := rfl
@[simp] theorem State.slot_draws (e : BusEvent) : (s.slot e).draws = s.draws := rfl
@[simp] theorem State.slot_hostClock (e : BusEvent) : (s.slot e).hostClock = s.hostClock := rfl

/-! ## setPres -/

@[simp] theorem State.setPres_busy (v : Pres) : (s.setPres v).busy = s.busy := rfl
@[simp] theorem State.setPres_pending (v : Pres) : (s.setPres v).pending = s.pending := rfl
@[simp] theorem State.setPres_cmdLast (v : Pres) : (s.setPres v).cmdLast = s.cmdLast := rfl
@[simp] theorem State.setPres_ill (v : Pres) : (s.setPres v).ill = s.ill := rfl
@[simp] theorem State.setPres_ovr (v : Pres) : (s.setPres v).ovr = s.ovr := rfl
@[simp] theorem State.setPres_pres (v : Pres) : (s.setPres v).pres = v := rfl
@[simp] theorem State.setPres_sres (v : Pres) : (s.setPres v).sres = s.sres := rfl
@[simp] theorem State.setPres_data (v : Pres) : (s.setPres v).data = s.data := rfl
@[simp] theorem State.setPres_acc (v : Pres) : (s.setPres v).acc = s.acc := rfl
@[simp] theorem State.setPres_ld (v : Pres) : (s.setPres v).ld = s.ld := rfl
@[simp] theorem State.setPres_lfd (v : Pres) : (s.setPres v).lfd = s.lfd := rfl
@[simp] theorem State.setPres_ldf (v : Pres) : (s.setPres v).ldf = s.ldf := rfl
@[simp] theorem State.setPres_rom (v : Pres) : (s.setPres v).rom = s.rom := rfl
@[simp] theorem State.setPres_drive (v : Pres) : (s.setPres v).drive = s.drive := rfl
@[simp] theorem State.setPres_history (v : Pres) : (s.setPres v).history = s.history := rfl
@[simp] theorem State.setPres_bus (v : Pres) : (s.setPres v).bus = s.bus := rfl
@[simp] theorem State.setPres_inReset (v : Pres) : (s.setPres v).inReset = s.inReset := rfl
@[simp] theorem State.setPres_inputs (v : Pres) : (s.setPres v).inputs = s.inputs := rfl
@[simp] theorem State.setPres_responses (v : Pres) : (s.setPres v).responses = s.responses := rfl
@[simp] theorem State.setPres_draws (v : Pres) : (s.setPres v).draws = s.draws := rfl
@[simp] theorem State.setPres_hostClock (v : Pres) : (s.setPres v).hostClock = s.hostClock := rfl

/-! ## setData -/

@[simp] theorem State.setData_busy (v : Byte) : (s.setData v).busy = s.busy := rfl
@[simp] theorem State.setData_pending (v : Byte) : (s.setData v).pending = s.pending := rfl
@[simp] theorem State.setData_cmdLast (v : Byte) : (s.setData v).cmdLast = s.cmdLast := rfl
@[simp] theorem State.setData_ill (v : Byte) : (s.setData v).ill = s.ill := rfl
@[simp] theorem State.setData_ovr (v : Byte) : (s.setData v).ovr = s.ovr := rfl
@[simp] theorem State.setData_pres (v : Byte) : (s.setData v).pres = s.pres := rfl
@[simp] theorem State.setData_sres (v : Byte) : (s.setData v).sres = s.sres := rfl
@[simp] theorem State.setData_data (v : Byte) : (s.setData v).data = v := rfl
@[simp] theorem State.setData_acc (v : Byte) : (s.setData v).acc = s.acc := rfl
@[simp] theorem State.setData_ld (v : Byte) : (s.setData v).ld = s.ld := rfl
@[simp] theorem State.setData_lfd (v : Byte) : (s.setData v).lfd = s.lfd := rfl
@[simp] theorem State.setData_ldf (v : Byte) : (s.setData v).ldf = s.ldf := rfl
@[simp] theorem State.setData_rom (v : Byte) : (s.setData v).rom = s.rom := rfl
@[simp] theorem State.setData_drive (v : Byte) : (s.setData v).drive = s.drive := rfl
@[simp] theorem State.setData_history (v : Byte) : (s.setData v).history = s.history := rfl
@[simp] theorem State.setData_bus (v : Byte) : (s.setData v).bus = s.bus := rfl
@[simp] theorem State.setData_inReset (v : Byte) : (s.setData v).inReset = s.inReset := rfl
@[simp] theorem State.setData_inputs (v : Byte) : (s.setData v).inputs = s.inputs := rfl
@[simp] theorem State.setData_responses (v : Byte) : (s.setData v).responses = s.responses := rfl
@[simp] theorem State.setData_draws (v : Byte) : (s.setData v).draws = s.draws := rfl
@[simp] theorem State.setData_hostClock (v : Byte) : (s.setData v).hostClock = s.hostClock := rfl

/-! ## setAcc -/

@[simp] theorem State.setAcc_busy (v : Byte) : (s.setAcc v).busy = s.busy := rfl
@[simp] theorem State.setAcc_pending (v : Byte) : (s.setAcc v).pending = s.pending := rfl
@[simp] theorem State.setAcc_cmdLast (v : Byte) : (s.setAcc v).cmdLast = s.cmdLast := rfl
@[simp] theorem State.setAcc_ill (v : Byte) : (s.setAcc v).ill = s.ill := rfl
@[simp] theorem State.setAcc_ovr (v : Byte) : (s.setAcc v).ovr = s.ovr := rfl
@[simp] theorem State.setAcc_pres (v : Byte) : (s.setAcc v).pres = s.pres := rfl
@[simp] theorem State.setAcc_sres (v : Byte) : (s.setAcc v).sres = s.sres := rfl
@[simp] theorem State.setAcc_data (v : Byte) : (s.setAcc v).data = s.data := rfl
@[simp] theorem State.setAcc_acc (v : Byte) : (s.setAcc v).acc = v := rfl
@[simp] theorem State.setAcc_ld (v : Byte) : (s.setAcc v).ld = s.ld := rfl
@[simp] theorem State.setAcc_lfd (v : Byte) : (s.setAcc v).lfd = s.lfd := rfl
@[simp] theorem State.setAcc_ldf (v : Byte) : (s.setAcc v).ldf = s.ldf := rfl
@[simp] theorem State.setAcc_rom (v : Byte) : (s.setAcc v).rom = s.rom := rfl
@[simp] theorem State.setAcc_drive (v : Byte) : (s.setAcc v).drive = s.drive := rfl
@[simp] theorem State.setAcc_history (v : Byte) : (s.setAcc v).history = s.history := rfl
@[simp] theorem State.setAcc_bus (v : Byte) : (s.setAcc v).bus = s.bus := rfl
@[simp] theorem State.setAcc_inReset (v : Byte) : (s.setAcc v).inReset = s.inReset := rfl
@[simp] theorem State.setAcc_inputs (v : Byte) : (s.setAcc v).inputs = s.inputs := rfl
@[simp] theorem State.setAcc_responses (v : Byte) : (s.setAcc v).responses = s.responses := rfl
@[simp] theorem State.setAcc_draws (v : Byte) : (s.setAcc v).draws = s.draws := rfl
@[simp] theorem State.setAcc_hostClock (v : Byte) : (s.setAcc v).hostClock = s.hostClock := rfl

/-! ## setSres -/

@[simp] theorem State.setSres_busy (v : SearchResult) : (s.setSres v).busy = s.busy := rfl
@[simp] theorem State.setSres_pending (v : SearchResult) : (s.setSres v).pending = s.pending := rfl
@[simp] theorem State.setSres_cmdLast (v : SearchResult) : (s.setSres v).cmdLast = s.cmdLast := rfl
@[simp] theorem State.setSres_ill (v : SearchResult) : (s.setSres v).ill = s.ill := rfl
@[simp] theorem State.setSres_ovr (v : SearchResult) : (s.setSres v).ovr = s.ovr := rfl
@[simp] theorem State.setSres_pres (v : SearchResult) : (s.setSres v).pres = s.pres := rfl
@[simp] theorem State.setSres_sres (v : SearchResult) : (s.setSres v).sres = v := rfl
@[simp] theorem State.setSres_data (v : SearchResult) : (s.setSres v).data = s.data := rfl
@[simp] theorem State.setSres_acc (v : SearchResult) : (s.setSres v).acc = s.acc := rfl
@[simp] theorem State.setSres_ld (v : SearchResult) : (s.setSres v).ld = s.ld := rfl
@[simp] theorem State.setSres_lfd (v : SearchResult) : (s.setSres v).lfd = s.lfd := rfl
@[simp] theorem State.setSres_ldf (v : SearchResult) : (s.setSres v).ldf = s.ldf := rfl
@[simp] theorem State.setSres_rom (v : SearchResult) : (s.setSres v).rom = s.rom := rfl
@[simp] theorem State.setSres_drive (v : SearchResult) : (s.setSres v).drive = s.drive := rfl
@[simp] theorem State.setSres_history (v : SearchResult) : (s.setSres v).history = s.history := rfl
@[simp] theorem State.setSres_bus (v : SearchResult) : (s.setSres v).bus = s.bus := rfl
@[simp] theorem State.setSres_inReset (v : SearchResult) : (s.setSres v).inReset = s.inReset := rfl
@[simp] theorem State.setSres_inputs (v : SearchResult) : (s.setSres v).inputs = s.inputs := rfl
@[simp] theorem State.setSres_responses (v : SearchResult) : (s.setSres v).responses = s.responses := rfl
@[simp] theorem State.setSres_draws (v : SearchResult) : (s.setSres v).draws = s.draws := rfl
@[simp] theorem State.setSres_hostClock (v : SearchResult) : (s.setSres v).hostClock = s.hostClock := rfl

/-! ## setRom -/

@[simp] theorem State.setRom_busy (v : Rom) : (s.setRom v).busy = s.busy := rfl
@[simp] theorem State.setRom_pending (v : Rom) : (s.setRom v).pending = s.pending := rfl
@[simp] theorem State.setRom_cmdLast (v : Rom) : (s.setRom v).cmdLast = s.cmdLast := rfl
@[simp] theorem State.setRom_ill (v : Rom) : (s.setRom v).ill = s.ill := rfl
@[simp] theorem State.setRom_ovr (v : Rom) : (s.setRom v).ovr = s.ovr := rfl
@[simp] theorem State.setRom_pres (v : Rom) : (s.setRom v).pres = s.pres := rfl
@[simp] theorem State.setRom_sres (v : Rom) : (s.setRom v).sres = s.sres := rfl
@[simp] theorem State.setRom_data (v : Rom) : (s.setRom v).data = s.data := rfl
@[simp] theorem State.setRom_acc (v : Rom) : (s.setRom v).acc = s.acc := rfl
@[simp] theorem State.setRom_ld (v : Rom) : (s.setRom v).ld = s.ld := rfl
@[simp] theorem State.setRom_lfd (v : Rom) : (s.setRom v).lfd = s.lfd := rfl
@[simp] theorem State.setRom_ldf (v : Rom) : (s.setRom v).ldf = s.ldf := rfl
@[simp] theorem State.setRom_rom (v : Rom) : (s.setRom v).rom = v := rfl
@[simp] theorem State.setRom_drive (v : Rom) : (s.setRom v).drive = s.drive := rfl
@[simp] theorem State.setRom_history (v : Rom) : (s.setRom v).history = s.history := rfl
@[simp] theorem State.setRom_bus (v : Rom) : (s.setRom v).bus = s.bus := rfl
@[simp] theorem State.setRom_inReset (v : Rom) : (s.setRom v).inReset = s.inReset := rfl
@[simp] theorem State.setRom_inputs (v : Rom) : (s.setRom v).inputs = s.inputs := rfl
@[simp] theorem State.setRom_responses (v : Rom) : (s.setRom v).responses = s.responses := rfl
@[simp] theorem State.setRom_draws (v : Rom) : (s.setRom v).draws = s.draws := rfl
@[simp] theorem State.setRom_hostClock (v : Rom) : (s.setRom v).hostClock = s.hostClock := rfl

/-! ## setLfd -/

@[simp] theorem State.setLfd_busy (v : BitVec 7) : (s.setLfd v).busy = s.busy := rfl
@[simp] theorem State.setLfd_pending (v : BitVec 7) : (s.setLfd v).pending = s.pending := rfl
@[simp] theorem State.setLfd_cmdLast (v : BitVec 7) : (s.setLfd v).cmdLast = s.cmdLast := rfl
@[simp] theorem State.setLfd_ill (v : BitVec 7) : (s.setLfd v).ill = s.ill := rfl
@[simp] theorem State.setLfd_ovr (v : BitVec 7) : (s.setLfd v).ovr = s.ovr := rfl
@[simp] theorem State.setLfd_pres (v : BitVec 7) : (s.setLfd v).pres = s.pres := rfl
@[simp] theorem State.setLfd_sres (v : BitVec 7) : (s.setLfd v).sres = s.sres := rfl
@[simp] theorem State.setLfd_data (v : BitVec 7) : (s.setLfd v).data = s.data := rfl
@[simp] theorem State.setLfd_acc (v : BitVec 7) : (s.setLfd v).acc = s.acc := rfl
@[simp] theorem State.setLfd_ld (v : BitVec 7) : (s.setLfd v).ld = s.ld := rfl
@[simp] theorem State.setLfd_lfd (v : BitVec 7) : (s.setLfd v).lfd = v := rfl
@[simp] theorem State.setLfd_ldf (v : BitVec 7) : (s.setLfd v).ldf = s.ldf := rfl
@[simp] theorem State.setLfd_rom (v : BitVec 7) : (s.setLfd v).rom = s.rom := rfl
@[simp] theorem State.setLfd_drive (v : BitVec 7) : (s.setLfd v).drive = s.drive := rfl
@[simp] theorem State.setLfd_history (v : BitVec 7) : (s.setLfd v).history = s.history := rfl
@[simp] theorem State.setLfd_bus (v : BitVec 7) : (s.setLfd v).bus = s.bus := rfl
@[simp] theorem State.setLfd_inReset (v : BitVec 7) : (s.setLfd v).inReset = s.inReset := rfl
@[simp] theorem State.setLfd_inputs (v : BitVec 7) : (s.setLfd v).inputs = s.inputs := rfl
@[simp] theorem State.setLfd_responses (v : BitVec 7) : (s.setLfd v).responses = s.responses := rfl
@[simp] theorem State.setLfd_draws (v : BitVec 7) : (s.setLfd v).draws = s.draws := rfl
@[simp] theorem State.setLfd_hostClock (v : BitVec 7) : (s.setLfd v).hostClock = s.hostClock := rfl

/-! ## setLd -/

@[simp] theorem State.setLd_busy (v : BitVec 7) : (s.setLd v).busy = s.busy := rfl
@[simp] theorem State.setLd_pending (v : BitVec 7) : (s.setLd v).pending = s.pending := rfl
@[simp] theorem State.setLd_cmdLast (v : BitVec 7) : (s.setLd v).cmdLast = s.cmdLast := rfl
@[simp] theorem State.setLd_ill (v : BitVec 7) : (s.setLd v).ill = s.ill := rfl
@[simp] theorem State.setLd_ovr (v : BitVec 7) : (s.setLd v).ovr = s.ovr := rfl
@[simp] theorem State.setLd_pres (v : BitVec 7) : (s.setLd v).pres = s.pres := rfl
@[simp] theorem State.setLd_sres (v : BitVec 7) : (s.setLd v).sres = s.sres := rfl
@[simp] theorem State.setLd_data (v : BitVec 7) : (s.setLd v).data = s.data := rfl
@[simp] theorem State.setLd_acc (v : BitVec 7) : (s.setLd v).acc = s.acc := rfl
@[simp] theorem State.setLd_ld (v : BitVec 7) : (s.setLd v).ld = v := rfl
@[simp] theorem State.setLd_lfd (v : BitVec 7) : (s.setLd v).lfd = s.lfd := rfl
@[simp] theorem State.setLd_ldf (v : BitVec 7) : (s.setLd v).ldf = s.ldf := rfl
@[simp] theorem State.setLd_rom (v : BitVec 7) : (s.setLd v).rom = s.rom := rfl
@[simp] theorem State.setLd_drive (v : BitVec 7) : (s.setLd v).drive = s.drive := rfl
@[simp] theorem State.setLd_history (v : BitVec 7) : (s.setLd v).history = s.history := rfl
@[simp] theorem State.setLd_bus (v : BitVec 7) : (s.setLd v).bus = s.bus := rfl
@[simp] theorem State.setLd_inReset (v : BitVec 7) : (s.setLd v).inReset = s.inReset := rfl
@[simp] theorem State.setLd_inputs (v : BitVec 7) : (s.setLd v).inputs = s.inputs := rfl
@[simp] theorem State.setLd_responses (v : BitVec 7) : (s.setLd v).responses = s.responses := rfl
@[simp] theorem State.setLd_draws (v : BitVec 7) : (s.setLd v).draws = s.draws := rfl
@[simp] theorem State.setLd_hostClock (v : BitVec 7) : (s.setLd v).hostClock = s.hostClock := rfl

/-! ## setLdf -/

@[simp] theorem State.setLdf_busy (v : Bool) : (s.setLdf v).busy = s.busy := rfl
@[simp] theorem State.setLdf_pending (v : Bool) : (s.setLdf v).pending = s.pending := rfl
@[simp] theorem State.setLdf_cmdLast (v : Bool) : (s.setLdf v).cmdLast = s.cmdLast := rfl
@[simp] theorem State.setLdf_ill (v : Bool) : (s.setLdf v).ill = s.ill := rfl
@[simp] theorem State.setLdf_ovr (v : Bool) : (s.setLdf v).ovr = s.ovr := rfl
@[simp] theorem State.setLdf_pres (v : Bool) : (s.setLdf v).pres = s.pres := rfl
@[simp] theorem State.setLdf_sres (v : Bool) : (s.setLdf v).sres = s.sres := rfl
@[simp] theorem State.setLdf_data (v : Bool) : (s.setLdf v).data = s.data := rfl
@[simp] theorem State.setLdf_acc (v : Bool) : (s.setLdf v).acc = s.acc := rfl
@[simp] theorem State.setLdf_ld (v : Bool) : (s.setLdf v).ld = s.ld := rfl
@[simp] theorem State.setLdf_lfd (v : Bool) : (s.setLdf v).lfd = s.lfd := rfl
@[simp] theorem State.setLdf_ldf (v : Bool) : (s.setLdf v).ldf = v := rfl
@[simp] theorem State.setLdf_rom (v : Bool) : (s.setLdf v).rom = s.rom := rfl
@[simp] theorem State.setLdf_drive (v : Bool) : (s.setLdf v).drive = s.drive := rfl
@[simp] theorem State.setLdf_history (v : Bool) : (s.setLdf v).history = s.history := rfl
@[simp] theorem State.setLdf_bus (v : Bool) : (s.setLdf v).bus = s.bus := rfl
@[simp] theorem State.setLdf_inReset (v : Bool) : (s.setLdf v).inReset = s.inReset := rfl
@[simp] theorem State.setLdf_inputs (v : Bool) : (s.setLdf v).inputs = s.inputs := rfl
@[simp] theorem State.setLdf_responses (v : Bool) : (s.setLdf v).responses = s.responses := rfl
@[simp] theorem State.setLdf_draws (v : Bool) : (s.setLdf v).draws = s.draws := rfl
@[simp] theorem State.setLdf_hostClock (v : Bool) : (s.setLdf v).hostClock = s.hostClock := rfl

/-! ## clearSearch -/

@[simp] theorem State.clearSearch_busy : (s.clearSearch).busy = s.busy := rfl
@[simp] theorem State.clearSearch_pending : (s.clearSearch).pending = s.pending := rfl
@[simp] theorem State.clearSearch_cmdLast : (s.clearSearch).cmdLast = s.cmdLast := rfl
@[simp] theorem State.clearSearch_ill : (s.clearSearch).ill = s.ill := rfl
@[simp] theorem State.clearSearch_ovr : (s.clearSearch).ovr = s.ovr := rfl
@[simp] theorem State.clearSearch_pres : (s.clearSearch).pres = s.pres := rfl
@[simp] theorem State.clearSearch_sres : (s.clearSearch).sres = s.sres := rfl
@[simp] theorem State.clearSearch_data : (s.clearSearch).data = s.data := rfl
@[simp] theorem State.clearSearch_acc : (s.clearSearch).acc = s.acc := rfl
@[simp] theorem State.clearSearch_ld : (s.clearSearch).ld = 0 := rfl
@[simp] theorem State.clearSearch_lfd : (s.clearSearch).lfd = 0 := rfl
@[simp] theorem State.clearSearch_ldf : (s.clearSearch).ldf = false := rfl
@[simp] theorem State.clearSearch_rom : (s.clearSearch).rom = s.rom := rfl
@[simp] theorem State.clearSearch_drive : (s.clearSearch).drive = s.drive := rfl
@[simp] theorem State.clearSearch_history : (s.clearSearch).history = s.history := rfl
@[simp] theorem State.clearSearch_bus : (s.clearSearch).bus = s.bus := rfl
@[simp] theorem State.clearSearch_inReset : (s.clearSearch).inReset = s.inReset := rfl
@[simp] theorem State.clearSearch_inputs : (s.clearSearch).inputs = s.inputs := rfl
@[simp] theorem State.clearSearch_responses : (s.clearSearch).responses = s.responses := rfl
@[simp] theorem State.clearSearch_draws : (s.clearSearch).draws = s.draws := rfl
@[simp] theorem State.clearSearch_hostClock : (s.clearSearch).hostClock = s.hostClock := rfl

/-! ## accept -/

@[simp] theorem State.accept_busy (w : Word) : (s.accept w).busy = true := rfl
@[simp] theorem State.accept_pending (w : Word) : (s.accept w).pending = some (w.extractLsb' 0 16) := rfl
@[simp] theorem State.accept_cmdLast (w : Word) : (s.accept w).cmdLast = w.extractLsb' 0 16 := rfl
@[simp] theorem State.accept_ill (w : Word) : (s.accept w).ill = s.ill := rfl
@[simp] theorem State.accept_ovr (w : Word) : (s.accept w).ovr = s.ovr := rfl
@[simp] theorem State.accept_pres (w : Word) : (s.accept w).pres = s.pres := rfl
@[simp] theorem State.accept_sres (w : Word) : (s.accept w).sres = s.sres := rfl
@[simp] theorem State.accept_data (w : Word) : (s.accept w).data = s.data := rfl
@[simp] theorem State.accept_acc (w : Word) : (s.accept w).acc = s.acc := rfl
@[simp] theorem State.accept_ld (w : Word) : (s.accept w).ld = s.ld := rfl
@[simp] theorem State.accept_lfd (w : Word) : (s.accept w).lfd = s.lfd := rfl
@[simp] theorem State.accept_ldf (w : Word) : (s.accept w).ldf = s.ldf := rfl
@[simp] theorem State.accept_rom (w : Word) : (s.accept w).rom = s.rom := rfl
@[simp] theorem State.accept_drive (w : Word) : (s.accept w).drive = s.drive := rfl
@[simp] theorem State.accept_history (w : Word) : (s.accept w).history = s.history := rfl
@[simp] theorem State.accept_bus (w : Word) : (s.accept w).bus = s.bus := rfl
@[simp] theorem State.accept_inReset (w : Word) : (s.accept w).inReset = s.inReset := rfl
@[simp] theorem State.accept_inputs (w : Word) : (s.accept w).inputs = s.inputs := rfl
@[simp] theorem State.accept_responses (w : Word) : (s.accept w).responses = s.responses := rfl
@[simp] theorem State.accept_draws (w : Word) : (s.accept w).draws = s.draws := rfl
@[simp] theorem State.accept_hostClock (w : Word) : (s.accept w).hostClock = s.hostClock := rfl

/-! ## complete -/

@[simp] theorem State.complete_busy : (s.complete).busy = false := rfl
@[simp] theorem State.complete_pending : (s.complete).pending = none := rfl
@[simp] theorem State.complete_cmdLast : (s.complete).cmdLast = s.cmdLast := rfl
@[simp] theorem State.complete_ill : (s.complete).ill = s.ill := rfl
@[simp] theorem State.complete_ovr : (s.complete).ovr = s.ovr := rfl
@[simp] theorem State.complete_pres : (s.complete).pres = s.pres := rfl
@[simp] theorem State.complete_sres : (s.complete).sres = s.sres := rfl
@[simp] theorem State.complete_data : (s.complete).data = s.data := rfl
@[simp] theorem State.complete_acc : (s.complete).acc = s.acc := rfl
@[simp] theorem State.complete_ld : (s.complete).ld = s.ld := rfl
@[simp] theorem State.complete_lfd : (s.complete).lfd = s.lfd := rfl
@[simp] theorem State.complete_ldf : (s.complete).ldf = s.ldf := rfl
@[simp] theorem State.complete_rom : (s.complete).rom = s.rom := rfl
@[simp] theorem State.complete_drive : (s.complete).drive = s.drive := rfl
@[simp] theorem State.complete_history : (s.complete).history = s.history := rfl
@[simp] theorem State.complete_bus : (s.complete).bus = s.bus := rfl
@[simp] theorem State.complete_inReset : (s.complete).inReset = s.inReset := rfl
@[simp] theorem State.complete_inputs : (s.complete).inputs = s.inputs := rfl
@[simp] theorem State.complete_responses : (s.complete).responses = s.responses := rfl
@[simp] theorem State.complete_draws : (s.complete).draws = s.draws := rfl
@[simp] theorem State.complete_hostClock : (s.complete).hostClock = s.hostClock := rfl

/-! ## raiseIllegal -/

@[simp] theorem State.raiseIllegal_busy : (s.raiseIllegal).busy = s.busy := rfl
@[simp] theorem State.raiseIllegal_pending : (s.raiseIllegal).pending = s.pending := rfl
@[simp] theorem State.raiseIllegal_cmdLast : (s.raiseIllegal).cmdLast = s.cmdLast := rfl
@[simp] theorem State.raiseIllegal_ill : (s.raiseIllegal).ill = true := rfl
@[simp] theorem State.raiseIllegal_ovr : (s.raiseIllegal).ovr = s.ovr := rfl
@[simp] theorem State.raiseIllegal_pres : (s.raiseIllegal).pres = s.pres := rfl
@[simp] theorem State.raiseIllegal_sres : (s.raiseIllegal).sres = s.sres := rfl
@[simp] theorem State.raiseIllegal_data : (s.raiseIllegal).data = s.data := rfl
@[simp] theorem State.raiseIllegal_acc : (s.raiseIllegal).acc = s.acc := rfl
@[simp] theorem State.raiseIllegal_ld : (s.raiseIllegal).ld = s.ld := rfl
@[simp] theorem State.raiseIllegal_lfd : (s.raiseIllegal).lfd = s.lfd := rfl
@[simp] theorem State.raiseIllegal_ldf : (s.raiseIllegal).ldf = s.ldf := rfl
@[simp] theorem State.raiseIllegal_rom : (s.raiseIllegal).rom = s.rom := rfl
@[simp] theorem State.raiseIllegal_drive : (s.raiseIllegal).drive = s.drive := rfl
@[simp] theorem State.raiseIllegal_history : (s.raiseIllegal).history = s.history := rfl
@[simp] theorem State.raiseIllegal_bus : (s.raiseIllegal).bus = s.bus := rfl
@[simp] theorem State.raiseIllegal_inReset : (s.raiseIllegal).inReset = s.inReset := rfl
@[simp] theorem State.raiseIllegal_inputs : (s.raiseIllegal).inputs = s.inputs := rfl
@[simp] theorem State.raiseIllegal_responses : (s.raiseIllegal).responses = s.responses := rfl
@[simp] theorem State.raiseIllegal_draws : (s.raiseIllegal).draws = s.draws := rfl
@[simp] theorem State.raiseIllegal_hostClock : (s.raiseIllegal).hostClock = s.hostClock := rfl

/-! ## raiseOverrun -/

@[simp] theorem State.raiseOverrun_busy : (s.raiseOverrun).busy = s.busy := rfl
@[simp] theorem State.raiseOverrun_pending : (s.raiseOverrun).pending = s.pending := rfl
@[simp] theorem State.raiseOverrun_cmdLast : (s.raiseOverrun).cmdLast = s.cmdLast := rfl
@[simp] theorem State.raiseOverrun_ill : (s.raiseOverrun).ill = s.ill := rfl
@[simp] theorem State.raiseOverrun_ovr : (s.raiseOverrun).ovr = true := rfl
@[simp] theorem State.raiseOverrun_pres : (s.raiseOverrun).pres = s.pres := rfl
@[simp] theorem State.raiseOverrun_sres : (s.raiseOverrun).sres = s.sres := rfl
@[simp] theorem State.raiseOverrun_data : (s.raiseOverrun).data = s.data := rfl
@[simp] theorem State.raiseOverrun_acc : (s.raiseOverrun).acc = s.acc := rfl
@[simp] theorem State.raiseOverrun_ld : (s.raiseOverrun).ld = s.ld := rfl
@[simp] theorem State.raiseOverrun_lfd : (s.raiseOverrun).lfd = s.lfd := rfl
@[simp] theorem State.raiseOverrun_ldf : (s.raiseOverrun).ldf = s.ldf := rfl
@[simp] theorem State.raiseOverrun_rom : (s.raiseOverrun).rom = s.rom := rfl
@[simp] theorem State.raiseOverrun_drive : (s.raiseOverrun).drive = s.drive := rfl
@[simp] theorem State.raiseOverrun_history : (s.raiseOverrun).history = s.history := rfl
@[simp] theorem State.raiseOverrun_bus : (s.raiseOverrun).bus = s.bus := rfl
@[simp] theorem State.raiseOverrun_inReset : (s.raiseOverrun).inReset = s.inReset := rfl
@[simp] theorem State.raiseOverrun_inputs : (s.raiseOverrun).inputs = s.inputs := rfl
@[simp] theorem State.raiseOverrun_responses : (s.raiseOverrun).responses = s.responses := rfl
@[simp] theorem State.raiseOverrun_draws : (s.raiseOverrun).draws = s.draws := rfl
@[simp] theorem State.raiseOverrun_hostClock : (s.raiseOverrun).hostClock = s.hostClock := rfl

/-! ## clearFlags -/

@[simp] theorem State.clearFlags_busy (v : Word) : (s.clearFlags v).busy = s.busy := rfl
@[simp] theorem State.clearFlags_pending (v : Word) : (s.clearFlags v).pending = s.pending := rfl
@[simp] theorem State.clearFlags_cmdLast (v : Word) : (s.clearFlags v).cmdLast = s.cmdLast := rfl
@[simp] theorem State.clearFlags_ill (v : Word) : (s.clearFlags v).ill = (s.ill && !v.getLsbD 1) := rfl
@[simp] theorem State.clearFlags_ovr (v : Word) : (s.clearFlags v).ovr = (s.ovr && !v.getLsbD 2) := rfl
@[simp] theorem State.clearFlags_pres (v : Word) : (s.clearFlags v).pres = s.pres := rfl
@[simp] theorem State.clearFlags_sres (v : Word) : (s.clearFlags v).sres = s.sres := rfl
@[simp] theorem State.clearFlags_data (v : Word) : (s.clearFlags v).data = s.data := rfl
@[simp] theorem State.clearFlags_acc (v : Word) : (s.clearFlags v).acc = s.acc := rfl
@[simp] theorem State.clearFlags_ld (v : Word) : (s.clearFlags v).ld = s.ld := rfl
@[simp] theorem State.clearFlags_lfd (v : Word) : (s.clearFlags v).lfd = s.lfd := rfl
@[simp] theorem State.clearFlags_ldf (v : Word) : (s.clearFlags v).ldf = s.ldf := rfl
@[simp] theorem State.clearFlags_rom (v : Word) : (s.clearFlags v).rom = s.rom := rfl
@[simp] theorem State.clearFlags_drive (v : Word) : (s.clearFlags v).drive = s.drive := rfl
@[simp] theorem State.clearFlags_history (v : Word) : (s.clearFlags v).history = s.history := rfl
@[simp] theorem State.clearFlags_bus (v : Word) : (s.clearFlags v).bus = s.bus := rfl
@[simp] theorem State.clearFlags_inReset (v : Word) : (s.clearFlags v).inReset = s.inReset := rfl
@[simp] theorem State.clearFlags_inputs (v : Word) : (s.clearFlags v).inputs = s.inputs := rfl
@[simp] theorem State.clearFlags_responses (v : Word) : (s.clearFlags v).responses = s.responses := rfl
@[simp] theorem State.clearFlags_draws (v : Word) : (s.clearFlags v).draws = s.draws := rfl
@[simp] theorem State.clearFlags_hostClock (v : Word) : (s.clearFlags v).hostClock = s.hostClock := rfl

/-! ## respond -/

@[simp] theorem State.respond_busy (v : Word) : (s.respond v).busy = s.busy := rfl
@[simp] theorem State.respond_pending (v : Word) : (s.respond v).pending = s.pending := rfl
@[simp] theorem State.respond_cmdLast (v : Word) : (s.respond v).cmdLast = s.cmdLast := rfl
@[simp] theorem State.respond_ill (v : Word) : (s.respond v).ill = s.ill := rfl
@[simp] theorem State.respond_ovr (v : Word) : (s.respond v).ovr = s.ovr := rfl
@[simp] theorem State.respond_pres (v : Word) : (s.respond v).pres = s.pres := rfl
@[simp] theorem State.respond_sres (v : Word) : (s.respond v).sres = s.sres := rfl
@[simp] theorem State.respond_data (v : Word) : (s.respond v).data = s.data := rfl
@[simp] theorem State.respond_acc (v : Word) : (s.respond v).acc = s.acc := rfl
@[simp] theorem State.respond_ld (v : Word) : (s.respond v).ld = s.ld := rfl
@[simp] theorem State.respond_lfd (v : Word) : (s.respond v).lfd = s.lfd := rfl
@[simp] theorem State.respond_ldf (v : Word) : (s.respond v).ldf = s.ldf := rfl
@[simp] theorem State.respond_rom (v : Word) : (s.respond v).rom = s.rom := rfl
@[simp] theorem State.respond_drive (v : Word) : (s.respond v).drive = s.drive := rfl
@[simp] theorem State.respond_history (v : Word) : (s.respond v).history = s.history := rfl
@[simp] theorem State.respond_bus (v : Word) : (s.respond v).bus = s.bus := rfl
@[simp] theorem State.respond_inReset (v : Word) : (s.respond v).inReset = s.inReset := rfl
@[simp] theorem State.respond_inputs (v : Word) : (s.respond v).inputs = s.inputs := rfl
@[simp] theorem State.respond_responses (v : Word) : (s.respond v).responses = s.responses ++ [v] := rfl
@[simp] theorem State.respond_draws (v : Word) : (s.respond v).draws = s.draws + 1 := rfl
@[simp] theorem State.respond_hostClock (v : Word) : (s.respond v).hostClock = s.hostClock := rfl

/-! ## resetRegisters -/

@[simp] theorem State.resetRegisters_busy : (s.resetRegisters).busy = false := rfl
@[simp] theorem State.resetRegisters_pending : (s.resetRegisters).pending = none := rfl
@[simp] theorem State.resetRegisters_cmdLast : (s.resetRegisters).cmdLast = 0 := rfl
@[simp] theorem State.resetRegisters_ill : (s.resetRegisters).ill = false := rfl
@[simp] theorem State.resetRegisters_ovr : (s.resetRegisters).ovr = false := rfl
@[simp] theorem State.resetRegisters_pres : (s.resetRegisters).pres = .none := rfl
@[simp] theorem State.resetRegisters_sres : (s.resetRegisters).sres = .none := rfl
@[simp] theorem State.resetRegisters_data : (s.resetRegisters).data = 0 := rfl
@[simp] theorem State.resetRegisters_acc : (s.resetRegisters).acc = 0 := rfl
@[simp] theorem State.resetRegisters_ld : (s.resetRegisters).ld = 0 := rfl
@[simp] theorem State.resetRegisters_lfd : (s.resetRegisters).lfd = 0 := rfl
@[simp] theorem State.resetRegisters_ldf : (s.resetRegisters).ldf = false := rfl
@[simp] theorem State.resetRegisters_rom : (s.resetRegisters).rom = 0 := rfl
@[simp] theorem State.resetRegisters_drive : (s.resetRegisters).drive = .released := rfl
@[simp] theorem State.resetRegisters_history : (s.resetRegisters).history = s.history := rfl
@[simp] theorem State.resetRegisters_bus : (s.resetRegisters).bus = s.bus := rfl
@[simp] theorem State.resetRegisters_inReset : (s.resetRegisters).inReset = s.inReset := rfl
@[simp] theorem State.resetRegisters_inputs : (s.resetRegisters).inputs = s.inputs := rfl
@[simp] theorem State.resetRegisters_responses : (s.resetRegisters).responses = s.responses := rfl
@[simp] theorem State.resetRegisters_draws : (s.resetRegisters).draws = s.draws := rfl
@[simp] theorem State.resetRegisters_hostClock : (s.resetRegisters).hostClock = s.hostClock := rfl

/-! ## failSearch -/

@[simp] theorem State.failSearch_busy : (s.failSearch).busy = s.busy := rfl
@[simp] theorem State.failSearch_pending : (s.failSearch).pending = s.pending := rfl
@[simp] theorem State.failSearch_cmdLast : (s.failSearch).cmdLast = s.cmdLast := rfl
@[simp] theorem State.failSearch_ill : (s.failSearch).ill = s.ill := rfl
@[simp] theorem State.failSearch_ovr : (s.failSearch).ovr = s.ovr := rfl
@[simp] theorem State.failSearch_pres : (s.failSearch).pres = s.pres := rfl
@[simp] theorem State.failSearch_sres : (s.failSearch).sres = .failed := rfl
@[simp] theorem State.failSearch_data : (s.failSearch).data = s.data := rfl
@[simp] theorem State.failSearch_acc : (s.failSearch).acc = s.acc := rfl
@[simp] theorem State.failSearch_ld : (s.failSearch).ld = 0 := rfl
@[simp] theorem State.failSearch_lfd : (s.failSearch).lfd = 0 := rfl
@[simp] theorem State.failSearch_ldf : (s.failSearch).ldf = false := rfl
@[simp] theorem State.failSearch_rom : (s.failSearch).rom = s.rom := rfl
@[simp] theorem State.failSearch_drive : (s.failSearch).drive = s.drive := rfl
@[simp] theorem State.failSearch_history : (s.failSearch).history = s.history := rfl
@[simp] theorem State.failSearch_bus : (s.failSearch).bus = s.bus := rfl
@[simp] theorem State.failSearch_inReset : (s.failSearch).inReset = s.inReset := rfl
@[simp] theorem State.failSearch_inputs : (s.failSearch).inputs = s.inputs := rfl
@[simp] theorem State.failSearch_responses : (s.failSearch).responses = s.responses := rfl
@[simp] theorem State.failSearch_draws : (s.failSearch).draws = s.draws := rfl
@[simp] theorem State.failSearch_hostClock : (s.failSearch).hostClock = s.hostClock := rfl

/-! ## letPass -/

@[simp] theorem State.letPass_busy (us : Nat) : (s.letPass us).busy = s.busy := rfl
@[simp] theorem State.letPass_pending (us : Nat) : (s.letPass us).pending = s.pending := rfl
@[simp] theorem State.letPass_cmdLast (us : Nat) : (s.letPass us).cmdLast = s.cmdLast := rfl
@[simp] theorem State.letPass_ill (us : Nat) : (s.letPass us).ill = s.ill := rfl
@[simp] theorem State.letPass_ovr (us : Nat) : (s.letPass us).ovr = s.ovr := rfl
@[simp] theorem State.letPass_pres (us : Nat) : (s.letPass us).pres = s.pres := rfl
@[simp] theorem State.letPass_sres (us : Nat) : (s.letPass us).sres = s.sres := rfl
@[simp] theorem State.letPass_data (us : Nat) : (s.letPass us).data = s.data := rfl
@[simp] theorem State.letPass_acc (us : Nat) : (s.letPass us).acc = s.acc := rfl
@[simp] theorem State.letPass_ld (us : Nat) : (s.letPass us).ld = s.ld := rfl
@[simp] theorem State.letPass_lfd (us : Nat) : (s.letPass us).lfd = s.lfd := rfl
@[simp] theorem State.letPass_ldf (us : Nat) : (s.letPass us).ldf = s.ldf := rfl
@[simp] theorem State.letPass_rom (us : Nat) : (s.letPass us).rom = s.rom := rfl
@[simp] theorem State.letPass_drive (us : Nat) : (s.letPass us).drive = s.drive := rfl
@[simp] theorem State.letPass_history (us : Nat) : (s.letPass us).history = s.history := rfl
@[simp] theorem State.letPass_bus (us : Nat) : (s.letPass us).bus = s.bus := rfl
@[simp] theorem State.letPass_inReset (us : Nat) : (s.letPass us).inReset = s.inReset := rfl
@[simp] theorem State.letPass_inputs (us : Nat) : (s.letPass us).inputs = s.inputs := rfl
@[simp] theorem State.letPass_responses (us : Nat) : (s.letPass us).responses = s.responses := rfl
@[simp] theorem State.letPass_draws (us : Nat) : (s.letPass us).draws = s.draws := rfl
@[simp] theorem State.letPass_hostClock (us : Nat) : (s.letPass us).hostClock = s.hostClock + us := rfl

end Sys2Proof.Machine
end

