-- ==== Sys2Proof/Laws/Ops.lean ====
section
/-!
SUPPORT. What each shared operation can do, said once.
-/

namespace Sys2Proof.Machine

/-! ## Sequences of slots -/

@[simp] theorem Bus.afterAll_nil (bus : Bus) : bus.afterAll [] = bus := rfl

@[simp] theorem Bus.afterAll_cons (e : BusEvent) (es : List BusEvent) (bus : Bus) :
    bus.afterAll (e :: es) = (bus.after e).afterAll es := rfl

theorem Bus.afterAll_append (es fs : List BusEvent) (bus : Bus) :
    bus.afterAll (es ++ fs) = (bus.afterAll es).afterAll fs := by
  simp [Bus.afterAll]

@[simp] theorem State.slots_nil (s : State) : s.slots [] = s := rfl

@[simp] theorem State.slots_cons (e : BusEvent) (es : List BusEvent) (s : State) :
    s.slots (e :: es) = (s.slot e).slots es := rfl

theorem State.slots_append (es fs : List BusEvent) (s : State) :
    s.slots (es ++ fs) = (s.slots es).slots fs := by
  induction es generalizing s with
  | nil => rfl
  | cons e es ih => simp [ih]

/-- Everything a sequence of slots does: the history grows by its events, the bus follows them, the line ends released. -/
theorem State.slots_eq (es : List BusEvent) (s : State) :
    s.slots es = { s with
      history := s.history ++ es
      bus := s.bus.afterAll es
      drive := if es = [] then s.drive else .released } := by
  induction es generalizing s with
  | nil => simp
  | cons e es ih => simp [ih, State.slot]

@[simp] theorem State.slots_history (es : List BusEvent) (s : State) : (s.slots es).history = s.history ++ es := by
  rw [State.slots_eq]

@[simp] theorem State.slots_bus (es : List BusEvent) (s : State) : (s.slots es).bus = s.bus.afterAll es := by
  rw [State.slots_eq]

@[simp] theorem State.slots_acc (es : List BusEvent) (s : State) : (s.slots es).acc = s.acc := by
  rw [State.slots_eq]

@[simp] theorem State.slots_rom (es : List BusEvent) (s : State) : (s.slots es).rom = s.rom := by
  rw [State.slots_eq]

@[simp] theorem State.slots_ld (es : List BusEvent) (s : State) : (s.slots es).ld = s.ld := by
  rw [State.slots_eq]

@[simp] theorem State.slots_lfd (es : List BusEvent) (s : State) : (s.slots es).lfd = s.lfd := by
  rw [State.slots_eq]

@[simp] theorem State.slots_ldf (es : List BusEvent) (s : State) : (s.slots es).ldf = s.ldf := by
  rw [State.slots_eq]

/-! ## The slot primitives -/

@[simp] theorem busReset_fst (s : State) : (busReset s).1 = s.bus.resetAnswer s.history := rfl

@[simp] theorem busReset_snd (s : State) : (busReset s).2 = s.slot (.rst (s.bus.resetAnswer s.history)) := rfl

@[simp] theorem busWriteSlot_eq (b : Bool) (s : State) : busWriteSlot b s = s.slot (.w b) := rfl

@[simp] theorem busReadSlot_fst (s : State) : (busReadSlot s).1 = s.bus.readAnswer s.history := rfl

@[simp] theorem busReadSlot_snd (s : State) : (busReadSlot s).2 = s.slot (.r (s.bus.readAnswer s.history)) := rfl

/-- Write slots append exactly their bits, in order. -/
theorem writeSlots_eq (bits : List Bool) (s : State) : writeSlots bits s = s.slots (bits.map .w) := by
  induction bits generalizing s with
  | nil => rfl
  | cons b bits ih => simp [writeSlots, ih]

theorem writeByteSlots_eq (v : Byte) (s : State) : writeByteSlots v s = s.slots ((byteBits v).map .w) :=
  writeSlots_eq _ _

/-- Read slots append exactly the bits they answer, in order. -/
theorem readSlots_snd (n : Nat) (s : State) : (readSlots n s).2 = s.slots ((readSlots n s).1.map .r) := by
  induction n generalizing s with
  | zero => rfl
  | succ n ih => simp [readSlots, ih]

@[simp] theorem readSlots_length (n : Nat) (s : State) : (readSlots n s).1.length = n := by
  induction n generalizing s with
  | zero => rfl
  | succ n ih => simp [readSlots, ih]

/-! ## What the bus answers -/

/-- A history is answered piece by piece. -/
theorem answered_append (es fs : List BusEvent) (bus : Bus) (h : List BusEvent) :
    Answered bus h (es ++ fs) ↔ Answered bus h es ∧ Answered (bus.afterAll es) (h ++ es) fs := by
  induction es generalizing bus h with
  | nil => simp [Answered]
  | cons e es ih => simp [Answered, ih, and_assoc]

/-- Writes need no answer. -/
theorem answered_writes (bits : List Bool) (bus : Bus) (h : List BusEvent) : Answered bus h (bits.map .w) := by
  induction bits generalizing bus h with
  | nil => trivial
  | cons b bits ih => exact ⟨trivial, ih _ _⟩

/-- The bits of a run of read slots are the bus's answers. -/
theorem answered_reads (n : Nat) (s : State) : Answered s.bus s.history ((readSlots n s).1.map .r) := by
  induction n generalizing s with
  | zero => trivial
  | succ n ih =>
    refine ⟨rfl, ?_⟩
    simpa [readSlots] using ih (busReadSlot s).2

/-! ## Acceptance and completion -/

/-- Acceptance has three outcomes (R142). -/
theorem offerCommand_cases (w : Word) (s : State) :
    (s.busy = true ∧ s.offerCommand w = s.raiseOverrun) ∨
    (s.busy = false ∧ legal w = true ∧ s.offerCommand w = s.accept w) ∨
    (s.busy = false ∧ legal w = false ∧ s.offerCommand w = s.raiseIllegal) := by
  unfold State.offerCommand
  cases s.busy <;> cases legal w <;> simp

/-- A host write leaves the state, offers a command, or clears flags. -/
theorem hostWrite_cases (r : Reg) (v : Word) (s : State) :
    hostWrite r v s = s ∨
    (s.inReset = false ∧ r = .cmd ∧ hostWrite r v s = s.offerCommand v) ∨
    (s.inReset = false ∧ r = .status ∧ hostWrite r v s = s.clearFlags v) := by
  unfold hostWrite
  cases s.inReset <;> cases r <;> simp

/-- A served read changes only what the host knows. -/
theorem serveRead_next {addr : Nat} {width : AccessWidth} {s t : State} (h : serveRead addr width s = .next t) :
    ∃ v, t = s.respond v := by
  unfold serveRead at h
  split at h <;> simp only [Host.Outcome.next.injEq, reduceCtorEq] at h
  · exact ⟨_, h.symm⟩
  · exact ⟨_, h.symm⟩

/-- A served write leaves the state or writes one register. -/
theorem serveWrite_next {addr : Nat} {width : AccessWidth} {v : Word} {s t : State}
    (h : serveWrite addr width v s = .next t) : t = s ∨ ∃ r, t = hostWrite r v s := by
  unfold serveWrite at h
  split at h <;> simp only [Host.Outcome.next.injEq, reduceCtorEq] at h
  · exact .inl h.symm
  · exact .inr ⟨_, h.symm⟩

/-- Where a register's own address leads (R33, R81). -/
theorem accessTarget_register (r : Reg) : accessTarget (Config.owcBase + r.offset) .word = .reg r := by
  have hb : Config.owcBase + r.offset - Config.owcBase = r.offset := by omega
  have hr : r.offset < 32 := by cases r <;> decide
  unfold accessTarget
  rw [if_pos ⟨by omega, by omega⟩, hb]
  cases r <;> decide

end Sys2Proof.Machine
end

