-- ==== Sys2Proof/Laws/Rom.lean ====
section
/-!
SUPPORT. The ROM buffer by bits and by bytes, and the checksum over its bytes.
-/

namespace Sys2Proof.Machine

theorem romBit_setRomBit_self {p : Nat} (r : Rom) (b : Bool) (h1 : 1 ≤ p) (h2 : p ≤ 64) :
    romBit (setRomBit r p b) p = b := by
  cases b <;> simp [romBit, setRomBit]
  omega

theorem romBit_setRomBit_other {p q : Nat} (r : Rom) (b : Bool) (h1 : 1 ≤ p) (h2 : 1 ≤ q) (h : p ≠ q) :
    romBit (setRomBit r q b) p = romBit r p := by
  unfold romBit setRomBit
  have hpq : p - 1 ≠ q - 1 := by omega
  cases b
  · simp only [Bool.false_eq_true, if_false, BitVec.getLsbD_and, BitVec.getLsbD_not, BitVec.getLsbD_shiftLeft]
    by_cases hp : p - 1 < 64
    · by_cases hlt : p - 1 < q - 1
      · simp [hp, hlt]
      · have : p - 1 - (q - 1) ≠ 0 := by omega
        simp [hp, hlt, this]
    · simp [hp, BitVec.getLsbD_of_ge r (p - 1) (by omega)]
  · simp only [if_true, BitVec.getLsbD_or, BitVec.getLsbD_shiftLeft]
    by_cases hlt : p - 1 < q - 1
    · simp [hlt]
    · have : p - 1 - (q - 1) ≠ 0 := by omega
      simp [hlt, this]

/-- Two ROM buffers that agree at every search position are equal. -/
theorem rom_ext {a b : Rom} (h : ∀ p, 1 ≤ p → p ≤ 64 → romBit a p = romBit b p) : a = b := by
  apply BitVec.eq_of_getLsbD_eq
  intro i hi
  simpa [romBit] using h (i + 1) (by omega) (by omega)

/-- A byte depends on its own eight positions only. -/
theorem romByte_congr {a b : Rom} {k : Nat}
    (h : ∀ p, 8 * k < p → p ≤ 8 * k + 8 → romBit a p = romBit b p) : romByte a k = romByte b k := by
  apply BitVec.eq_of_getLsbD_eq
  intro i hi
  have := h (8 * k + i + 1) (by omega) (by omega)
  simpa [romByte, romBit, hi] using this

theorem romBytes_take_congr {a b : Rom} {n : Nat}
    (h : ∀ p, 1 ≤ p → p ≤ 8 * n → romBit a p = romBit b p) : (romBytes a).take n = (romBytes b).take n := by
  unfold romBytes
  rw [← List.map_take, ← List.map_take]
  apply List.map_congr_left
  intro k hk
  have hk' : k < n := by
    have := List.mem_take_iff_getElem.mp hk
    obtain ⟨j, hj, rfl⟩ := this
    simp at hj ⊢
    omega
  exact romByte_congr fun p h1 h2 => h p (by omega) (by omega)

/-- The checksum over one byte more. -/
theorem crc8_take_succ (r : Rom) {k : Nat} (h : k < 8) :
    crc8 ((romBytes r).take (k + 1)) = crcStep (crc8 ((romBytes r).take k)) (romByte r k) := by
  have hk : k < (romBytes r).length := by simp [romBytes, h]
  rw [List.take_succ_eq_append_getElem hk]
  simp [crc8, romBytes]

theorem romBytes_length (r : Rom) : (romBytes r).length = 8 := by simp [romBytes]

end Sys2Proof.Machine
end

