-- ==== Sys2Proof/Laws/Search.lean ====
section
/-!
SUPPORT. What the loop of a search pass does, said once (R223 to R230), and what the pass makes of it (R231 to R236).
-/

namespace Sys2Proof.Machine

/-! ## One position -/

@[simp] theorem recordFamily_eq (b : Bool) (p : Nat) (s : State) :
    recordFamily b p s = s.setLfd (if b && decide (p ≤ 8) then BitVec.ofNat 7 p else s.lfd) := by
  unfold recordFamily
  split <;> rfl

theorem foldByte_eq (p : Nat) (s : State) :
    foldByte p s = s.setAcc (if p % 8 = 0 then crcStep s.acc (romByte s.rom (p / 8 - 1)) else s.acc) := by
  unfold foldByte
  split <;> rfl

/-- Everything the resolution of a position does: one write slot, the ROM bit, `lfd` and `acc`. -/
theorem resolvePosition_eq (p : Nat) (dir recorded : Bool) (s : State) :
    resolvePosition p dir recorded s = { s.slot (.w dir) with
      rom := setRomBit s.rom p dir
      lfd := if recorded && decide (p ≤ 8) then BitVec.ofNat 7 p else s.lfd
      acc := if p % 8 = 0 then crcStep s.acc (romByte (setRomBit s.rom p dir) (p / 8 - 1)) else s.acc } := by
  simp only [resolvePosition, foldByte_eq, recordFamily_eq, busWriteSlot_eq]
  rfl

/-! ## The loop -/

/-- `last_zero` after the positions `ts` from `p` on (R229). -/
def lastZeroFrom : Nat → List Resolved → Nat → Nat
  | _, [], z => z
  | p, x :: ts, z => lastZeroFrom (p + 1) ts (if x.isZero then p else z)

/-- `lfd` after the positions `ts` from `p` on (R229). -/
def familyFrom : Nat → List Resolved → BitVec 7 → BitVec 7
  | _, [], f => f
  | p, x :: ts, f => familyFrom (p + 1) ts (if x.isZero && decide (p ≤ 8) then BitVec.ofNat 7 p else f)

/-- Each direction from position `p` on is the one R227 and R228 choose. -/
def Directed (ld : Nat) (rom : Rom) : Nat → List Resolved → Prop
  | _, [] => True
  | p, x :: ts => (x.id && x.cmp) = false ∧ x.dir = chooseDirection ld rom p x.id x.cmp ∧ Directed ld rom (p + 1) ts

/-- Directions depend on the earlier buffer at and after their own position only. -/
theorem Directed.congr {ld : Nat} {a b : Rom} {p : Nat} {ts : List Resolved}
    (h : ∀ q, p ≤ q → romBit a q = romBit b q) (hd : Directed ld a p ts) : Directed ld b p ts := by
  induction ts generalizing p with
  | nil => trivial
  | cons x ts ih =>
    refine ⟨hd.1, ?_, ih (fun q hq => h q (by omega)) hd.2.2⟩
    rw [hd.2.1]
    simp [chooseDirection, h p (by omega)]

/-- What `Directed` says of one position. -/
theorem Directed.getElem {ld : Nat} {rom : Rom} {ts : List Resolved} {p : Nat} (hd : Directed ld rom p ts) {k : Nat}
    (h : k < ts.length) :
    (ts[k].id && ts[k].cmp) = false ∧ ts[k].dir = chooseDirection ld rom (p + k) ts[k].id ts[k].cmp := by
  induction ts generalizing p k with
  | nil => simp at h
  | cons x ts ih =>
    cases k with
    | zero => exact ⟨hd.1, hd.2.1⟩
    | succ k =>
      rw [show p + (k + 1) = p + 1 + k by omega]
      exact ih hd.2.2 (by simpa using h)

/-- `last_zero` is the position of the last recorded discrepancy, or what it was if there is none. -/
theorem lastZeroFrom_cases (ts : List Resolved) (p z : Nat) :
    (lastZeroFrom p ts z = z ∧ ∀ k (h : k < ts.length), ts[k].isZero = false) ∨
    (∃ k, ∃ h : k < ts.length, lastZeroFrom p ts z = p + k ∧ ts[k].isZero = true ∧
      ∀ j (hj : j < ts.length), k < j → ts[j].isZero = false) := by
  induction ts generalizing p z with
  | nil => exact .inl ⟨rfl, fun k h => absurd h (by simp)⟩
  | cons x ts ih =>
    simp only [lastZeroFrom]
    rcases ih (p + 1) (if x.isZero = true then p else z) with ⟨h1, h2⟩ | ⟨k, h, h1, h2, h3⟩
    · rw [h1]
      by_cases hx : x.isZero = true
      · refine .inr ⟨0, by simp, by simp [hx], hx, ?_⟩
        intro j hj hk
        obtain ⟨j, rfl⟩ : ∃ j', j = j' + 1 := ⟨j - 1, by omega⟩
        exact h2 j (by simpa using hj)
      · refine .inl ⟨by simp [hx], ?_⟩
        intro k hk
        cases k with
        | zero => simpa using hx
        | succ k => exact h2 k (by simpa using hk)
    · refine .inr ⟨k + 1, by simpa using h, by rw [h1]; omega, by simpa using h2, ?_⟩
      intro j hj hk
      obtain ⟨j, rfl⟩ : ∃ j', j = j' + 1 := ⟨j - 1, by omega⟩
      exact h3 j (by simpa using hj) (by omega)

/-- `lfd` is the position of the last discrepancy recorded up to position 8, or what it was if there is none. -/
theorem familyFrom_cases (ts : List Resolved) (p : Nat) (f : BitVec 7) :
    (familyFrom p ts f = f ∧ ∀ k (h : k < ts.length), p + k ≤ 8 → ts[k].isZero = false) ∨
    (∃ k, ∃ h : k < ts.length, p + k ≤ 8 ∧ familyFrom p ts f = BitVec.ofNat 7 (p + k) ∧ ts[k].isZero = true ∧
      ∀ j (hj : j < ts.length), k < j → p + j ≤ 8 → ts[j].isZero = false) := by
  induction ts generalizing p f with
  | nil => exact .inl ⟨rfl, fun k h => absurd h (by simp)⟩
  | cons x ts ih =>
    simp only [familyFrom]
    rcases ih (p + 1) (if (x.isZero && decide (p ≤ 8)) = true then BitVec.ofNat 7 p else f) with
      ⟨h1, h2⟩ | ⟨k, h, h0, h1, h2, h3⟩
    · rw [h1]
      by_cases hx : x.isZero = true ∧ p ≤ 8
      · refine .inr ⟨0, by simp, hx.2, by simp [hx], hx.1, ?_⟩
        intro j hj hk hp
        obtain ⟨j, rfl⟩ : ∃ j', j = j' + 1 := ⟨j - 1, by omega⟩
        exact h2 j (by simpa using hj) (by omega)
      · refine .inl ⟨?_, ?_⟩
        · simp only [Bool.and_eq_true, decide_eq_true_eq, hx, if_false]
        · intro k hk hp
          cases k with
          | zero =>
            by_contra hc
            exact hx ⟨by simpa using hc, by omega⟩
          | succ k => exact h2 k (by simpa using hk) (by omega)
    · refine .inr ⟨k + 1, by simpa using h, by omega, ?_, by simpa using h2, ?_⟩
      · rw [h1, show p + 1 + k = p + (k + 1) by omega]
      · intro j hj hk hp
        obtain ⟨j, rfl⟩ : ∃ j', j = j' + 1 := ⟨j - 1, by omega⟩
        exact h3 j (by simpa using hj) (by omega) (by omega)

/-- How many slots the positions take (R239). -/
theorem positionEvents_length (ts : List Resolved) (noResponse : Bool) :
    (positionEvents ts noResponse).length = 3 * ts.length + if noResponse then 2 else 0 := by
  have h : (ts.flatMap Resolved.events).length = 3 * ts.length := by
    induction ts with
    | nil => rfl
    | cons x ts ih =>
      rw [List.flatMap_cons, List.length_append, ih]
      simp [Resolved.events]
      omega
  unfold positionEvents
  rw [List.length_append, h]
  cases noResponse <;> rfl

/-- How many slots a pass takes whose reset slot was answered OK (R225, R239). -/
theorem passEvents_length (ts : List Resolved) (noResponse : Bool) :
    (passEvents ts noResponse).length = 9 + 3 * ts.length + if noResponse then 2 else 0 := by
  unfold passEvents
  rw [List.length_append, positionEvents_length]
  simp
  omega

/-- What the loop has done when it stops at the end of `ts`, or on a `1,1` pair after them. -/
structure LoopResult (p lastZero : Nat) (s : State) (e : PassEnd) (ts : List Resolved) (noResponse : Bool) : Prop where
  position : e.position = p + ts.length
  lastZero_eq : e.lastZero = lastZeroFrom p ts lastZero
  directed : Directed s.ld.toNat s.rom p ts
  answered : Answered s.bus s.history (positionEvents ts noResponse)
  state_eq : e.state = { s.slots (positionEvents ts noResponse) with
    rom := e.state.rom, acc := e.state.acc, lfd := familyFrom p ts s.lfd }
  rom_kept : ∀ q, 1 ≤ q → q ≤ 64 → q < p ∨ p + ts.length ≤ q → romBit e.state.rom q = romBit s.rom q
  rom_resolved : ∀ k (h : k < ts.length), romBit e.state.rom (p + k) = ts[k].dir
  acc_eq : e.state.acc = crc8 ((romBytes e.state.rom).take ((p + ts.length - 1) / 8))

/-- The accumulator after a position is the checksum of the bytes completed so far. -/
theorem acc_after_position {p : Nat} (h1 : 1 ≤ p) (h2 : p ≤ 64) (acc : Byte) (rom : Rom) (dir : Bool)
    (hacc : acc = crc8 ((romBytes rom).take ((p - 1) / 8))) :
    (if p % 8 = 0 then crcStep acc (romByte (setRomBit rom p dir) (p / 8 - 1)) else acc) =
      crc8 ((romBytes (setRomBit rom p dir)).take ((p + 1 - 1) / 8)) := by
  have hkeep : (romBytes rom).take ((p - 1) / 8) = (romBytes (setRomBit rom p dir)).take ((p - 1) / 8) :=
    romBytes_take_congr fun q hq1 hq2 => (romBit_setRomBit_other rom dir hq1 h1 (by omega)).symm
  rw [hkeep] at hacc
  split
  next h8 =>
    have e1 : (p + 1 - 1) / 8 = (p - 1) / 8 + 1 := by omega
    have e2 : p / 8 - 1 = (p - 1) / 8 := by omega
    rw [e1, e2, crc8_take_succ _ (by omega), hacc]
  next h8 =>
    have e1 : (p + 1 - 1) / 8 = (p - 1) / 8 := by omega
    rw [e1, hacc]

/-- One turn of the loop, its three choices named. -/
theorem searchLoop_succ {n p lastZero : Nat} {s : State} {id cmp dir : Bool}
    (hid : s.bus.readAnswer s.history = id)
    (hcmp : (s.slot (.r id)).bus.readAnswer (s.slot (.r id)).history = cmp)
    (hdir : chooseDirection s.ld.toNat s.rom p id cmp = dir) :
    searchLoop (n + 1) p lastZero s =
      if id && cmp then ⟨p, lastZero, (s.slot (.r id)).slot (.r cmp)⟩
      else searchLoop n (p + 1) (if takesZero id cmp dir then p else lastZero)
        (resolvePosition p dir (takesZero id cmp dir) ((s.slot (.r id)).slot (.r cmp))) := by
  subst hid hcmp hdir
  rfl

/-- The loop, said once: from any position it resolves `ts` and stops, at 65 or on a `1,1` pair. -/
theorem searchLoop_result (n : Nat) : ∀ (p lastZero : Nat) (s : State), 1 ≤ p → p + n = 65 →
    s.acc = crc8 ((romBytes s.rom).take ((p - 1) / 8)) →
    ∃ ts noResponse, (noResponse = false ∧ ts.length = n ∨ noResponse = true ∧ ts.length < n) ∧
      LoopResult p lastZero s (searchLoop n p lastZero s) ts noResponse := by
  induction n with
  | zero =>
    intro p lastZero s hp hn hacc
    refine ⟨[], false, .inl ⟨rfl, rfl⟩, rfl, rfl, trivial, trivial, rfl, fun _ _ _ _ => rfl, ?_, ?_⟩
    · intro k h
      exact absurd h (by simp)
    · simpa [searchLoop] using hacc
  | succ n ih =>
    intro p lastZero s hp hn hacc
    obtain ⟨id, hid⟩ : ∃ id, s.bus.readAnswer s.history = id := ⟨_, rfl⟩
    obtain ⟨cmp, hcmp⟩ : ∃ cmp, (s.slot (.r id)).bus.readAnswer (s.slot (.r id)).history = cmp := ⟨_, rfl⟩
    obtain ⟨dir, hdir⟩ : ∃ dir, chooseDirection s.ld.toNat s.rom p id cmp = dir := ⟨_, rfl⟩
    rw [searchLoop_succ hid hcmp hdir]
    by_cases h11 : (id && cmp) = true
    · rw [if_pos h11]
      simp only [Bool.and_eq_true] at h11
      obtain ⟨rfl, rfl⟩ := h11
      refine ⟨[], true, .inr ⟨rfl, by simp⟩, rfl, rfl, trivial, ?_, rfl, fun _ _ _ _ => rfl, ?_, ?_⟩
      · exact ⟨hid.symm, hcmp.symm, trivial⟩
      · intro k h
        exact absurd h (by simp)
      · simpa using hacc
    · rw [if_neg h11]
      obtain ⟨ts, nr, hlen, R⟩ := ih (p + 1) (if takesZero id cmp dir then p else lastZero)
        (resolvePosition p dir (takesZero id cmp dir) ((s.slot (.r id)).slot (.r cmp))) (by omega) (by omega)
        (by
          rw [resolvePosition_eq]
          exact acc_after_position hp (by omega) s.acc s.rom dir hacc)
      refine ⟨⟨id, cmp, dir⟩ :: ts, nr, ?_, ?_⟩
      · simpa using hlen
      have hpos := R.position
      rw [resolvePosition_eq] at R ⊢
      refine ⟨by rw [R.position]; simp; omega, R.lastZero_eq, ⟨by simpa using h11, hdir.symm, ?_⟩, ?_, ?_, ?_, ?_, ?_⟩
      · refine R.directed.congr fun q hq => ?_
        exact romBit_setRomBit_other s.rom dir (by omega) hp (by omega)
      · exact ⟨hid.symm, hcmp.symm, trivial, R.answered⟩
      · refine R.state_eq.trans ?_
        simp [State.slots_eq, State.slot, positionEvents, Resolved.events, familyFrom, takesZero, Resolved.isZero]
      · intro q hq1 hq2 hq
        rw [R.rom_kept q hq1 hq2 (by simp at hq; omega)]
        exact romBit_setRomBit_other s.rom dir hq1 hp (by simp at hq; omega)
      · intro k hk
        cases k with
        | zero =>
          rw [show p + 0 = p by rfl, R.rom_kept p hp (by omega) (by omega)]
          exact romBit_setRomBit_self s.rom dir hp (by omega)
        | succ k =>
          have := R.rom_resolved k (by simpa using hk)
          rw [show p + (k + 1) = p + 1 + k by omega, this]
          simp
      · rw [R.acc_eq]
        congr 3
        simp

/-! ## The pass -/

@[simp] theorem recordDiscrepancy_eq (z : Nat) (s : State) :
    s.recordDiscrepancy z = (s.setLd (BitVec.ofNat 7 z)).setLdf (s.ldf || decide (z = 0)) := by
  unfold State.recordDiscrepancy
  split
  next h => simp [h, State.setLd, State.setLdf]
  next h => simp [h, State.setLd, State.setLdf]

/-- The success test of R231, on the state the loop left. -/
def PassEnd.succeeds (e : PassEnd) : Bool := decide (e.position = 65) && e.state.acc == 0 && e.state.rom != 0

/-- The end of a pass has two outcomes (R231 to R235). -/
theorem finishPass_eq (e : PassEnd) :
    finishPass e = if e.succeeds then (e.state.recordDiscrepancy e.lastZero).setSres .found else e.state.failSearch := by
  unfold finishPass PassEnd.succeeds
  by_cases h1 : e.position = 65 <;> by_cases h2 : e.state.acc = 0#8 <;> by_cases h3 : e.state.rom = 0#64 <;>
    simp [h1, h2, h3, State.failSearch, State.clearSearch, State.setLd, State.setLdf, State.setLfd, State.setSres]

/-- What a pass whose reset slot was answered OK has done (R224 to R236). -/
structure PassResult (s t : State) (ts : List Resolved) (noResponse : Bool) : Prop where
  length_le : noResponse = false ∧ ts.length = 64 ∨ noResponse = true ∧ ts.length < 64
  answered : Answered s.bus s.history (passEvents ts noResponse)
  directed : Directed s.ld.toNat s.rom 1 ts
  state_eq : t = { s.slots (passEvents ts noResponse) with
    rom := t.rom, acc := t.acc, ld := t.ld, ldf := t.ldf, lfd := t.lfd, sres := t.sres }
  rom_kept : ∀ q, ts.length < q → q ≤ 64 → romBit t.rom q = romBit s.rom q
  rom_resolved : ∀ k (h : k < ts.length), romBit t.rom (k + 1) = ts[k].dir
  acc_eq : t.acc = crc8 ((romBytes t.rom).take (ts.length / 8))
  success : ts.length = 64 ∧ t.acc = 0 ∧ t.rom ≠ 0 → t.sres = .found ∧ t.ld = BitVec.ofNat 7 (lastZeroFrom 1 ts 0) ∧
    t.ldf = (s.ldf || decide (lastZeroFrom 1 ts 0 = 0)) ∧ t.lfd = familyFrom 1 ts s.lfd
  failure : ¬(ts.length = 64 ∧ t.acc = 0 ∧ t.rom ≠ 0) → t.sres = .failed ∧ t.ld = 0 ∧ t.ldf = false ∧ t.lfd = 0

/-- The bits of the Search ROM command byte, in bus order (R24, R98). -/
theorem byteBits_searchRom : byteBits 0xF0 = [false, false, false, false, true, true, true, true] := by decide

/-- A pass, said once: its reset slot fails, or it has the result above. -/
theorem searchPass_result (s : State) :
    (∃ o, o ≠ .ok ∧ s.bus.resetAnswer s.history = o ∧ searchPass s = ((s.setAcc 0).slot (.rst o)).failSearch) ∨
    (s.bus.resetAnswer s.history = .ok ∧ ∃ ts noResponse, PassResult s (searchPass s) ts noResponse) := by
  obtain ⟨o, ho⟩ : ∃ o, s.bus.resetAnswer s.history = o := ⟨_, rfl⟩
  have hpass : searchPass s = passAfterReset o ((s.setAcc 0).slot (.rst o)) := by subst ho; rfl
  cases o with
  | noPresence => exact .inl ⟨.noPresence, by simp, ho, hpass⟩
  | releaseFailure => exact .inl ⟨.releaseFailure, by simp, ho, hpass⟩
  | ok =>
    refine .inr ⟨ho, ?_⟩
    obtain ⟨u, hu⟩ : ∃ u, writeByteSlots 0xF0 ((s.setAcc 0).slot (.rst .ok)) = u := ⟨_, rfl⟩
    have hu' : u = (s.setAcc 0).slots (passEvents [] false) := by
      rw [← hu, writeByteSlots_eq, byteBits_searchRom]
      rfl
    have hpass' : searchPass s = finishPass (searchLoop 64 1 0 u) := by rw [hpass, ← hu]; rfl
    obtain ⟨ts, nr, hlen, R⟩ := searchLoop_result 64 1 0 u (by omega) rfl (by simp [hu', crc8])
    have hev : passEvents ts nr = passEvents [] false ++ positionEvents ts nr := by simp [passEvents, positionEvents]
    refine ⟨ts, nr, ?_⟩
    rw [hpass', finishPass_eq]
    have hstate := R.state_eq
    have hsucc : (searchLoop 64 1 0 u).succeeds = true ↔
        (ts.length = 64 ∧ (searchLoop 64 1 0 u).state.acc = 0 ∧ (searchLoop 64 1 0 u).state.rom ≠ 0) := by
      simp only [PassEnd.succeeds, R.position, Bool.and_eq_true, decide_eq_true_eq, beq_iff_eq, bne_iff_ne, and_assoc]
      constructor <;> rintro ⟨h1, h2⟩ <;> exact ⟨by omega, h2⟩
    have hans : Answered s.bus s.history (passEvents ts nr) := by
      rw [hev, answered_append]
      refine ⟨⟨ho.symm, trivial, trivial, trivial, trivial, trivial, trivial, trivial, trivial, trivial⟩, ?_⟩
      have := R.answered
      rwa [hu', State.slots_bus, State.slots_history] at this
    have hdir : Directed s.ld.toNat s.rom 1 ts := by
      have := R.directed
      rwa [hu', State.slots_ld, State.slots_rom] at this
    have hkept : ∀ q, ts.length < q → q ≤ 64 → romBit (searchLoop 64 1 0 u).state.rom q = romBit s.rom q := by
      intro q h1 h2
      rw [R.rom_kept q (by omega) h2 (by omega), hu', State.slots_rom, State.setAcc_rom]
    have hres : ∀ k (h : k < ts.length), romBit (searchLoop 64 1 0 u).state.rom (k + 1) = ts[k].dir := by
      intro k h
      rw [show k + 1 = 1 + k by omega, R.rom_resolved k h]
    have hacc : (searchLoop 64 1 0 u).state.acc =
        crc8 ((romBytes (searchLoop 64 1 0 u).state.rom).take (ts.length / 8)) := by
      rw [R.acc_eq, show 1 + ts.length - 1 = ts.length by omega]
    generalize (searchLoop 64 1 0 u) = e at *
    have hldf : e.state.ldf = s.ldf := by rw [hstate, hu']; simp
    have hlfd : e.state.lfd = familyFrom 1 ts s.lfd := by rw [hstate, hu']; simp
    have hfull : e.state = { s.slots (passEvents ts nr) with
        rom := e.state.rom, acc := e.state.acc, lfd := e.state.lfd } := by
      rw [hlfd, hev, State.slots_append]
      refine hstate.trans ?_
      subst hu'
      simp [State.slots_eq, State.setAcc, passEvents]
    by_cases hs : e.succeeds = true
    · have hs' := hsucc.mp hs
      rw [if_pos hs, recordDiscrepancy_eq]
      refine ⟨hlen, hans, hdir, ?_, hkept, hres, hacc, fun _ => ⟨rfl, ?_, ?_, hlfd⟩, fun h => absurd hs' h⟩
      · exact congrArg (fun x : State => ((x.setLd (BitVec.ofNat 7 e.lastZero)).setLdf
          (e.state.ldf || decide (e.lastZero = 0))).setSres .found) hfull
      · simp [R.lastZero_eq]
      · simp [R.lastZero_eq, hldf]
    · rw [if_neg hs]
      refine ⟨hlen, hans, hdir, ?_, hkept, hres, hacc, fun h => absurd (hsucc.mpr h) hs, fun _ => ⟨rfl, rfl, rfl, rfl⟩⟩
      refine (congrArg State.failSearch hfull).trans ?_
      simp [State.failSearch, State.clearSearch, State.setLd, State.setLdf, State.setLfd, State.setSres]

end Sys2Proof.Machine
end

