-- ==== Sys2Proof/Laws/Exec.lean ====
section
/-!
SUPPORT. What a command can do, said once: its slots, and the registers it may write.
-/

namespace Sys2Proof.Machine

/-- What every command leaves alone, and the slots `es` it performs (R57, R99, R145). -/
structure ExecFrame (s t : State) (es : List BusEvent) : Prop where
  answered : Answered s.bus s.history es
  state_eq : t = { s.slots es with
    pres := t.pres, data := t.data, acc := t.acc, ld := t.ld, lfd := t.lfd, ldf := t.ldf, rom := t.rom, sres := t.sres }

theorem ExecFrame.history {s t : State} {es : List BusEvent} (h : ExecFrame s t es) : t.history = s.history ++ es := by
  rw [h.state_eq]
  simp

theorem ExecFrame.bus {s t : State} {es : List BusEvent} (h : ExecFrame s t es) : t.bus = s.bus.afterAll es := by
  rw [h.state_eq]
  simp

/-- A pass performs at most 201 slots, and only the search registers and `acc` change (R221, R239). -/
theorem searchPass_frame (s : State) : ∃ es, ExecFrame s (searchPass s) es := by
  rcases searchPass_result s with ⟨o, -, ho, h⟩ | ⟨-, ts, nr, h⟩
  · exact ⟨[.rst o], ⟨ho.symm, trivial⟩, by rw [h]; rfl⟩
  · exact ⟨passEvents ts nr, h.answered, by
      refine h.state_eq.trans ?_
      simp only [State.slots_eq]
      rw [h.state_eq]
      simp [State.slots_eq]⟩

/-- Every command answers a next state, with slots the bus has answered (R145, R165). -/
theorem exec_frame (i : Instr) (s : State) : ∃ t es, exec i s = .next t ∧ ExecFrame s t es := by
  cases i with
  | owReset => exact ⟨_, [.rst (s.bus.resetAnswer s.history)], rfl, ⟨rfl, trivial⟩, rfl⟩
  | owWriteBit arg => exact ⟨_, [.w (argBit arg)], rfl, ⟨trivial, trivial⟩, rfl⟩
  | owReadBit => exact ⟨_, [.r (s.bus.readAnswer s.history)], rfl, ⟨rfl, trivial⟩, rfl⟩
  | owWriteByte arg =>
    refine ⟨_, (byteBits arg).map .w, rfl, answered_writes _ _ _, ?_⟩
    rw [writeByteSlots_eq]
  | owReadByte =>
    refine ⟨_, (readSlots 8 s).1.map .r, rfl, answered_reads 8 s, ?_⟩
    simp only [readByteSlots, readSlots_snd 8 s]
    rfl
  | crcClear => exact ⟨_, [], rfl, trivial, rfl⟩
  | crcStep arg => exact ⟨_, [], rfl, trivial, rfl⟩
  | searchFirst =>
    obtain ⟨es, h⟩ := searchPass_frame (s.clearSearch.setRom 0)
    refine ⟨_, es, rfl, h.answered, h.state_eq.trans ?_⟩
    simp only [State.slots_eq]
    rfl
  | searchNext =>
    by_cases hl : s.ldf = true
    · exact ⟨s.setSres .exhausted, [], by simp [exec, execSearchNext, hl], trivial, rfl⟩
    · obtain ⟨es, h⟩ := searchPass_frame s
      exact ⟨searchPass s, es, by simp [exec, execSearchNext, hl], h⟩

/-- A command that answers `t` has that frame. -/
theorem exec_next {i : Instr} {s t : State} (h : exec i s = .next t) : ∃ es, ExecFrame s t es := by
  obtain ⟨u, es, hu, hf⟩ := exec_frame i s
  rw [h, Host.Outcome.next.injEq] at hu
  subst hu
  exact ⟨es, hf⟩

end Sys2Proof.Machine
end

