-- ==== Sys2Proof/Laws/Registers.lean ====
section
/-!
SUPPORT. The fields of the register words a host reads (R34 to R46).
-/

namespace Sys2Proof.Machine

/-- The fields of a STATUS word (R35). -/
theorem packStatus_fields (sres sstate pres : BitVec 2) (ovr ill busy : Bool) :
    (packStatus sres sstate pres ovr ill busy).getLsbD 0 = busy ∧
    (packStatus sres sstate pres ovr ill busy).getLsbD 1 = ill ∧
    (packStatus sres sstate pres ovr ill busy).getLsbD 2 = ovr ∧
    (packStatus sres sstate pres ovr ill busy).getLsbD 3 = false ∧
    (packStatus sres sstate pres ovr ill busy).extractLsb' 4 2 = pres ∧
    (packStatus sres sstate pres ovr ill busy).extractLsb' 6 2 = 0 ∧
    (packStatus sres sstate pres ovr ill busy).extractLsb' 8 2 = sstate ∧
    (packStatus sres sstate pres ovr ill busy).extractLsb' 10 2 = 0 ∧
    (packStatus sres sstate pres ovr ill busy).extractLsb' 12 2 = sres ∧
    (packStatus sres sstate pres ovr ill busy).extractLsb' 14 18 = 0 := by
  revert sres sstate pres ovr ill busy
  decide

/-- The bytes of a SEARCH word (R44). -/
theorem packSearch_bytes (ldf : Bool) (lfd ld : BitVec 7) :
    (packSearch ldf lfd ld).extractLsb' 0 8 = 0#1 ++ ld ∧
    (packSearch ldf lfd ld).extractLsb' 8 8 = 0#1 ++ lfd ∧
    (packSearch ldf lfd ld).extractLsb' 16 8 = 0#7 ++ BitVec.ofBool ldf ∧
    (packSearch ldf lfd ld).extractLsb' 24 8 = 0 := by
  unfold packSearch
  refine ⟨?_, ?_, ?_, ?_⟩ <;> apply BitVec.eq_of_getLsbD_eq <;> intro k hk <;>
    simp only [BitVec.getLsbD_append, BitVec.getLsbD_extractLsb', hk, decide_true, Bool.true_and] <;>
    interval_cases k <;> simp

/-- A byte register reads zero-extended (R42, R43). -/
theorem byte_register (v : Byte) : (v.setWidth 32 : Word).extractLsb' 0 8 = v := by
  apply BitVec.eq_of_getLsbD_eq
  intro k hk
  simp only [BitVec.getLsbD_setWidth, BitVec.getLsbD_extractLsb', hk, decide_true, Bool.true_and]
  interval_cases k <;> simp

/-- The bytes of ROM0 and ROM1 (R45, R46). -/
theorem rom_registers (r : Rom) {k : Nat} (hk : k < 4) :
    (r.extractLsb' 0 32).extractLsb' (8 * k) 8 = romByte r k ∧
    (r.extractLsb' 32 32).extractLsb' (8 * k) 8 = romByte r (k + 4) := by
  constructor <;> apply BitVec.eq_of_getLsbD_eq <;> intro j hj <;>
    simp only [romByte, BitVec.getLsbD_extractLsb', hj, decide_true, Bool.true_and] <;>
    (rw [decide_eq_true (by omega)]; simp only [Bool.true_and]; congr 1; omega)

end Sys2Proof.Machine
end

