-- ==== Sys2Proof/Laws/HostSeq.lean ====
section
/-!
SUPPORT. A host-side `DO`: the command is accepted, runs and completes. What a selector with a command byte does on any bus,
said once for Skip ROM and Match ROM.
-/

namespace Sys2Proof.Machine

/-- A well-formed command's word is legal, and the controller reads the command back out of `pending`. -/
theorem decodePending_encode {i : Instr} (h : i.wellFormed = true) :
    legal (encode i) = true ∧ decodePending ((encode i).extractLsb' 0 16) = .ok i := by
  obtain ⟨h1, h2, h3, h4⟩ := encode_fields i
  have hd : decode (encode i) = .ok i := by
    unfold decode
    rw [h1, h2, h3, h4]
    cases i <;> simp_all [decodeOp, noOperand, bitOperand, Instr.arg, Instr.op, Instr.wellFormed]
  refine ⟨decode_legal hd, ?_⟩
  unfold decodePending
  rw [decode_low_half hd, hd]

/-- `DO i` on an idle block is the meaning of `i`, between acceptance and completion. -/
theorem hostDo_eq {i : Instr} {s t : State} (hw : i.wellFormed = true) (hb : s.busy = false) (hr : s.inReset = false)
    (h : exec i (s.accept (encode i)) = .next t) : hostDo i s = t.complete := by
  obtain ⟨hl, hp⟩ := decodePending_encode hw
  have ha : hostWrite .cmd (encode i) s = s.accept (encode i) := by
    simp [hostWrite, hr, State.offerCommand, hb, hl]
  unfold hostDo controllerStep
  rw [ha]
  have hrun : runPending (s.accept (encode i)) = .next t := by
    unfold runPending
    simp only [State.accept_pending, hp]
    exact h
  simp [hrun, hr, completing, stateAfter]

/-! ## Selectors -/

/-- The write slots of a sequence of bytes (R98). -/
def writeEvents (bytes : List Byte) : List BusEvent := bytes.flatMap fun v => (byteBits v).map .w

/-- `DO OW_WRITE_BYTE v` on an idle block. -/
theorem hostDo_writeByte {s : State} (v : Byte) (hb : s.busy = false) (hr : s.inReset = false) :
    hostDo (.owWriteByte v) s = { s.slots ((byteBits v).map .w) with
      cmdLast := (encode (.owWriteByte v)).extractLsb' 0 16, pending := none } := by
  rw [hostDo_eq (i := .owWriteByte v) rfl hb hr rfl, writeByteSlots_eq]
  simp only [State.slots_eq, State.complete, State.accept, hb]

/-- A non-empty sequence of `DO OW_WRITE_BYTE` lines. -/
theorem hostDoAll_writeBytes (bytes : List Byte) (v : Byte) {s : State} (hb : s.busy = false) (hr : s.inReset = false) :
    hostDoAll ((bytes ++ [v]).map .owWriteByte) s = { s.slots (writeEvents (bytes ++ [v])) with
      cmdLast := (encode (.owWriteByte v)).extractLsb' 0 16, pending := none } := by
  induction bytes generalizing s with
  | nil => simpa [hostDoAll, writeEvents] using hostDo_writeByte v hb hr
  | cons b bytes ih =>
    have h := hostDo_writeByte b hb hr
    have hb' : (hostDo (.owWriteByte b) s).busy = false := by
      rw [h]
      simpa [State.slots_eq] using hb
    have hr' : (hostDo (.owWriteByte b) s).inReset = false := by
      rw [h]
      simpa [State.slots_eq] using hr
    refine (ih hb' hr').trans ?_
    have hne : (byteBits b).map BusEvent.w ≠ [] := by simp [byteBits]
    rw [h]
    simp [State.slots_eq, writeEvents, Bus.afterAll_append, hne]

theorem hostDoAll_append (a b : List Instr) (s : State) : hostDoAll (a ++ b) s = hostDoAll b (hostDoAll a s) := by
  induction a generalizing s with
  | nil => rfl
  | cons x a ih => simp [hostDoAll, ih]

/-- The presence check on an idle block: the outcome's code, and what OW_RESET leaves (R262). -/
theorem presenceCheck_eq {s : State} (hb : s.busy = false) (hr : s.inReset = false) :
    presenceCheck s = ((Pres.ofOutcome (s.bus.resetAnswer s.history)).code,
      { s.slot (.rst (s.bus.resetAnswer s.history)) with
        cmdLast := 0x0001, pending := none, pres := Pres.ofOutcome (s.bus.resetAnswer s.history) }) := by
  have h : hostDo .owReset s = { s.slot (.rst (s.bus.resetAnswer s.history)) with
      cmdLast := 0x0001, pending := none, pres := Pres.ofOutcome (s.bus.resetAnswer s.history) } := by
    rw [hostDo_eq (i := .owReset) rfl hb hr rfl]
    simp only [State.complete, State.accept, State.setPres, State.slot, busReset, hb]
    rfl
  unfold presenceCheck
  rw [h]
  refine Prod.ext ?_ rfl
  simp [hostRead, hr, hb, statusIdle, (packStatus_fields _ _ _ _ _ _).2.2.2.2.1]

/-- A selector that writes `bytes`, then the command byte `v`, where the reset slot is answered OK. -/
theorem afterPresence_ok {bytes : List Byte} {s : State} (v : Byte) (hb : s.busy = false) (hr : s.inReset = false)
    (ho : s.bus.resetAnswer s.history = .ok) :
    afterPresence (afterPresence presenceCheck (bytes.map .owWriteByte)) [.owWriteByte v] s =
      (1, { s.slots (.rst .ok :: writeEvents (bytes ++ [v])) with
        cmdLast := (encode (.owWriteByte v)).extractLsb' 0 16, pending := none, pres := .ok }) := by
  have hp := presenceCheck_eq hb hr
  rw [ho] at hp
  have hc : (Pres.ofOutcome .ok).code = 1 := rfl
  have h : ∀ w : List Instr, afterPresence presenceCheck w s = (1, hostDoAll w (presenceCheck s).2) := by
    intro w
    unfold afterPresence
    rw [hp]
    simp [hc]
  have hs : afterPresence (afterPresence presenceCheck (bytes.map .owWriteByte)) [.owWriteByte v] s =
      (1, hostDoAll ((bytes ++ [v]).map .owWriteByte) (presenceCheck s).2) := by
    rw [List.map_append, hostDoAll_append]
    unfold afterPresence at h ⊢
    rw [h (bytes.map .owWriteByte)]
    simp
  rw [hs, hp]
  refine Prod.ext rfl ?_
  refine (hostDoAll_writeBytes bytes v (by simpa using hb) (by simpa using hr)).trans ?_
  have hne : writeEvents (bytes ++ [v]) ≠ [] := by simp [writeEvents, byteBits]
  simp [State.slots_eq, hne, State.slot, Pres.ofOutcome]

/-- A selector whose reset slot is not answered OK stops there, whatever was to follow (R262). -/
theorem afterPresence_failed {sel : Selector} {s : State} (more : List Instr) (h : (sel s).1 ≠ 1) :
    afterPresence sel more s = sel s := by
  unfold afterPresence
  rw [if_neg h]

end Sys2Proof.Machine
end

