-- ==== Sys2Proof/Laws/Line.lean ====
section
/-!
SUPPORT. The polling loop of a reset slot (R161), said once: how long it takes, and when it gives up.
-/

namespace Sys2Proof.Machine

/-- The loop ends within one poll of its bound, and leaves the drive alone. -/
theorem pollWhile_time {t : Timing} (pulls : Nat → Bool) (level : Bool) (bound fuel elapsed : Nat)
    (c : SlotClock) (h : elapsed ≤ bound + t.tPoll) :
    (pollWhile t pulls level bound fuel elapsed c).2.time ≤ c.time + (bound + t.tPoll - elapsed) ∧
      (pollWhile t pulls level bound fuel elapsed c).2.drive = c.drive := by
  induction fuel generalizing elapsed c with
  | zero => simp [pollWhile]
  | succ n ih =>
    simp only [pollWhile]
    split
    · split
      · simp
      · have := ih (elapsed + t.tPoll) (c.wait t.tPoll) (by omega)
        refine ⟨this.1.trans ?_, this.2.trans rfl⟩
        simp only [SlotClock.wait]
        omega
    · simp

/-- The loop gives up on a line that keeps its level at every sample: the first, and each later one that the loop has not
given up before. T_POLL is any positive number. -/
theorem pollWhile_gives_up {t : Timing} (h0 : 0 < t.tPoll) {pulls : Nat → Bool} {level : Bool}
    {bound fuel elapsed : Nat} {c : SlotClock} (hd : c.drive = .released) (hf : 0 < fuel) (hb : bound < elapsed + fuel)
    (hp : ∀ k, (k = 0 ∨ elapsed + (k - 1) * t.tPoll < bound) → pulls (c.time + k * t.tPoll) = !level) :
    (pollWhile t pulls level bound fuel elapsed c).1 = false := by
  induction fuel generalizing elapsed c with
  | zero => omega
  | succ n ih =>
    have hs : c.sample pulls = level := by simpa [SlotClock.sample, lineLevel, hd] using congrArg (!·) (hp 0 (.inl rfl))
    simp only [pollWhile]
    rw [if_pos hs]
    split
    · rfl
    · refine ih hd (by omega) (by omega) fun k hk => ?_
      have h := hp (k + 1) (.inr (by
        rcases hk with rfl | hk
        · simp
          omega
        · rcases k with _ | k
          · simp
            omega
          · simp only [Nat.add_sub_cancel, Nat.add_mul] at hk ⊢
            omega))
      simp only [SlotClock.wait, Nat.add_assoc]
      rwa [Nat.add_mul, Nat.one_mul, Nat.add_comm (k * t.tPoll)] at h

/-- The loop leaves at the first sample, of those it takes, at which the line has left its level. -/
theorem pollWhile_sees {t : Timing} (h0 : 0 < t.tPoll) {pulls : Nat → Bool} {level : Bool}
    {bound fuel elapsed k : Nat} {c : SlotClock} (hd : c.drive = .released) (hf : 0 < fuel) (hb : bound < elapsed + fuel)
    (hk : k = 0 ∨ elapsed + (k - 1) * t.tPoll < bound) (hx : pulls (c.time + k * t.tPoll) = level)
    (hp : ∀ j, j < k → pulls (c.time + j * t.tPoll) = !level) :
    (pollWhile t pulls level bound fuel elapsed c).1 = true ∧
      (pollWhile t pulls level bound fuel elapsed c).2.time = c.time + k * t.tPoll ∧
      (pollWhile t pulls level bound fuel elapsed c).2.drive = .released := by
  induction fuel generalizing elapsed c k with
  | zero => omega
  | succ n ih =>
    simp only [pollWhile]
    rcases k with _ | k
    · have hs : c.sample pulls ≠ level := by
        rw [Nat.zero_mul, Nat.add_zero] at hx
        simp [SlotClock.sample, lineLevel, hd, hx]
      rw [if_neg hs]
      exact ⟨rfl, by simp, hd⟩
    · have hs : c.sample pulls = level := by
        simpa [SlotClock.sample, lineLevel, hd] using congrArg (!·) (hp 0 (by omega))
      have hk' : elapsed + k * t.tPoll < bound := by simpa using hk
      have shift : ∀ j, (c.wait t.tPoll).time + j * t.tPoll = c.time + (j + 1) * t.tPoll := fun j => by
        rw [Nat.add_mul]
        simp only [SlotClock.wait]
        omega
      rw [if_pos hs, if_neg (by omega), ← shift]
      refine ih hd (by omega) (by omega) ?_ (by rwa [shift]) fun j hj => by rw [shift]; exact hp (j + 1) (by omega)
      rcases k with _ | k
      · exact .inl rfl
      · rw [Nat.add_mul] at hk'
        simp only [Nat.add_sub_cancel]
        omega

end Sys2Proof.Machine
end

