-- ==== Sys2Proof/Laws/PerInstr.lean ====
section
/-!
SUPPORT. The statements made command by command (LAWS.json, "per_instruction").
-/

namespace Sys2Proof.Laws.Command

/-- What the encoding tables say of one command: its OP is one of the nine (R135), the reserved fields of its word are 0
(R132, R141), its OP and ARG stand where R131 and R133 put them, and its operand rule accepts it exactly when it is well
formed (R133). -/
def Statement (i : Instr) : Prop :=
  1 ≤ i.op.toNat ∧ i.op.toNat ≤ 9 ∧
  fieldRsv1 (encode i) = 0 ∧ fieldRsv0 (encode i) = 0 ∧ fieldOp (encode i) = i.op ∧ fieldArg (encode i) = i.arg ∧
  decodeOp i.op.toNat i.arg = if i.wellFormed then .ok i else .error .argumentNotABit

/-- The part of the statement that is the same for every command. -/
theorem of_decodeOp {i : Instr} (h1 : 1 ≤ i.op.toNat ∧ i.op.toNat ≤ 9)
    (h2 : decodeOp i.op.toNat i.arg = if i.wellFormed then .ok i else .error .argumentNotABit) : Statement i :=
  ⟨h1.1, h1.2, (encode_fields i).1, (encode_fields i).2.2.1, (encode_fields i).2.2.2, (encode_fields i).2.1, h2⟩

theorem owReset : Statement .owReset := of_decodeOp (by decide) rfl

theorem owWriteBit (arg : Byte) : Statement (.owWriteBit arg) := by
  refine of_decodeOp (by simp [Instr.op]) ?_
  by_cases h : arg.extractLsb' 1 7 = 0#7 <;> simp [Instr.op, Instr.arg, decodeOp, bitOperand, Instr.wellFormed, h]

theorem owReadBit : Statement .owReadBit := of_decodeOp (by decide) rfl

theorem owWriteByte (arg : Byte) : Statement (.owWriteByte arg) := of_decodeOp (by simp [Instr.op]) rfl

theorem owReadByte : Statement .owReadByte := of_decodeOp (by decide) rfl

theorem crcClear : Statement .crcClear := of_decodeOp (by decide) rfl

theorem crcStep (arg : Byte) : Statement (.crcStep arg) := of_decodeOp (by simp [Instr.op]) rfl

theorem searchFirst : Statement .searchFirst := of_decodeOp (by decide) rfl

theorem searchNext : Statement .searchNext := of_decodeOp (by decide) rfl

end Sys2Proof.Laws.Command
end

