-- ==== Sys2Proof/Laws/Slaves.lean ====
section
/-!
SUPPORT. The reference slave set during a search: what its devices answer and which of them stay in (R104).
-/

namespace Sys2Proof.Machine

/-! ## One event -/

@[simp] theorem Device.after_romCode (e : BusEvent) (d : Device) : (d.after e).romCode = d.romCode := by
  unfold Device.after
  split
  · rfl
  · unfold Device.afterWrite Device.romCommandByte Device.functionByte
    repeat' (first | rfl | split)
  · unfold Device.afterRead
    split <;> rfl
  · rfl

@[simp] theorem Device.after_temperature (e : BusEvent) (d : Device) : (d.after e).temperature = d.temperature := by
  unfold Device.after
  split
  · rfl
  · unfold Device.afterWrite Device.romCommandByte Device.functionByte
    repeat' (first | rfl | split)
  · unfold Device.afterRead
    split <;> rfl
  · rfl

@[simp] theorem Bus.after_reference (e : BusEvent) (devices : List Device) (stuckLow : Bool) :
    (Bus.reference devices stuckLow).after e = .reference (devices.map (Device.after e)) stuckLow := rfl

/-- Whatever happens on the line, a reference bus keeps its devices. -/
theorem Bus.afterAll_reference (es : List BusEvent) (devices : List Device) (stuckLow : Bool) :
    ∃ after, (Bus.reference devices stuckLow).afterAll es = .reference after stuckLow ∧
      after.map (·.romCode) = devices.map (·.romCode) := by
  induction es generalizing devices with
  | nil => exact ⟨devices, rfl, rfl⟩
  | cons e es ih =>
    obtain ⟨after, h1, h2⟩ := ih (devices.map (Device.after e))
    exact ⟨after, h1, h2.trans (by simp)⟩

/-- A line that no open answer touches reads 1 exactly when no device pulls it low (R93, R106). -/
theorem sampleDevices_eq_true {devices : List Device} {free : Bool} (h : ∀ d ∈ devices, d.pull ≠ none) :
    sampleDevices devices free = true ↔ ∀ d ∈ devices, d.pull = some false := by
  unfold sampleDevices
  by_cases h1 : devices.any (fun d => d.pull == some true) = true
  · rw [if_pos h1]
    simp only [List.any_eq_true, beq_iff_eq] at h1
    obtain ⟨d, hd, he⟩ := h1
    simp only [Bool.false_eq_true, false_iff]
    intro hc
    have := hc d hd
    rw [he] at this
    simp at this
  · rw [if_neg h1]
    have h2 : devices.any (fun d => d.pull == none) = false := by simpa using h
    rw [h2]
    simp only [Bool.false_eq_true, if_false, true_iff]
    intro d hd
    have h3 := h d hd
    have h4 : d.pull ≠ some true := by
      simp only [List.any_eq_true, beq_iff_eq, not_exists, not_and] at h1
      exact h1 d hd
    cases hp : d.pull with
    | none => exact absurd hp h3
    | some b => cases b <;> simp_all

/-! ## A search -/

/-- Two ROM Codes agree before position p. -/
def AgreeBefore (a b : Rom) (p : Nat) : Prop := ∀ q, 1 ≤ q → q < p → romBit a q = romBit b q

theorem AgreeBefore.succ {a b : Rom} {p : Nat} (h : AgreeBefore a b p) (hp : romBit a p = romBit b p) :
    AgreeBefore a b (p + 1) := by
  intro q h1 h2
  by_cases hq : q = p
  · rw [hq, hp]
  · exact h q h1 (by omega)

theorem AgreeBefore.mono {a b : Rom} {p q : Nat} (h : AgreeBefore a b p) (hq : q ≤ p) : AgreeBefore a b q :=
  fun k h1 h2 => h k h1 (by omega)

/-- At position p of a search along `path`: the devices that agree with the path so far take part, and no other (R104). -/
def SearchingAt (path : Rom) (p : Nat) (devices : List Device) : Prop :=
  ∀ d ∈ devices, (AgreeBefore d.romCode path p ∧ d.phase = .search p 0) ∨
    (¬AgreeBefore d.romCode path p ∧ d.phase = .ignoring)

/-- The two bits of a position, as the participants send them (R104): the AND of their bits, and of the complements. -/
def PairOf (path : Rom) (p : Nat) (codes : List Rom) (x : Resolved) : Prop :=
  (x.id = true ↔ ∀ c ∈ codes, AgreeBefore c path p → romBit c p = true) ∧
  (x.cmp = true ↔ ∀ c ∈ codes, AgreeBefore c path p → romBit c p = false)

/-- The first two slots of a position. -/
theorem searching_pair {path : Rom} {p : Nat} {devices : List Device} (hs : SearchingAt path p devices)
    {h : List BusEvent} {id cmp : Bool} (hid : id = (Bus.reference devices false).readAnswer h)
    (hcmp : cmp = ((Bus.reference devices false).after (.r id)).readAnswer (h ++ [.r id])) (dir : Bool) :
    PairOf path p (devices.map (·.romCode)) ⟨id, cmp, dir⟩ := by
  simp only [PairOf, List.mem_map, forall_exists_index, and_imp, forall_apply_eq_imp_iff₂]
  constructor
  · rw [hid]
    refine (sampleDevices_eq_true ?_).trans ⟨?_, ?_⟩
    · intro d hd
      rcases hs d hd with ⟨-, e⟩ | ⟨-, e⟩ <;> simp [Device.pull, e]
    · intro hh d hd ha
      have := hh d hd
      rcases hs d hd with ⟨-, e⟩ | ⟨e, -⟩
      · simpa [Device.pull, e] using this
      · exact absurd ha e
    · intro hh d hd
      rcases hs d hd with ⟨ha, e⟩ | ⟨-, e⟩
      · simp [Device.pull, e, hh d hd ha]
      · simp [Device.pull, e]
  · rw [hcmp]
    refine (sampleDevices_eq_true ?_).trans ?_
    · intro d hd
      obtain ⟨d, hd', rfl⟩ := List.mem_map.mp hd
      rcases hs d hd' with ⟨-, e⟩ | ⟨-, e⟩ <;> simp [Device.after, Device.afterRead, Device.pull, e]
    · simp only [List.mem_map, forall_exists_index, and_imp, forall_apply_eq_imp_iff₂]
      constructor
      · intro hh d hd ha
        have := hh d hd
        rcases hs d hd with ⟨-, e⟩ | ⟨e, -⟩
        · simpa [Device.after, Device.pull, Device.afterRead, e] using this
        · exact absurd ha e
      · intro hh d hd
        rcases hs d hd with ⟨ha, e⟩ | ⟨-, e⟩
        · simp [Device.after, Device.pull, Device.afterRead, e, hh d hd ha]
        · simp [Device.after, Device.pull, Device.afterRead, e]

/-- One device over the three slots of a position. -/
theorem Device.after_position {path : Rom} {p : Nat} (h1 : 1 ≤ p) {d : Device} (id cmp : Bool)
    (hs : (AgreeBefore d.romCode path p ∧ d.phase = .search p 0) ∨
      (¬AgreeBefore d.romCode path p ∧ d.phase = .ignoring)) :
    let e := ((d.after (.r id)).after (.r cmp)).after (.w (romBit path p))
    e.romCode = d.romCode ∧
      (p < 64 → (AgreeBefore d.romCode path (p + 1) ∧ e.phase = .search (p + 1) 0) ∨
        (¬AgreeBefore d.romCode path (p + 1) ∧ e.phase = .ignoring)) := by
  refine ⟨by simp, ?_⟩
  intro hp
  rcases hs with ⟨ha, e⟩ | ⟨ha, e⟩
  · by_cases hb : romBit d.romCode p = romBit path p
    · exact .inl ⟨ha.succ hb, by simp [Device.after, Device.afterRead, Device.afterWrite, e, hb, hp]⟩
    · refine .inr ⟨fun hc => hb (hc p h1 (by omega)), by simp [Device.after, Device.afterRead, Device.afterWrite, e, hb]⟩
  · exact .inr ⟨fun hc => ha (hc.mono (by omega)), by simp [Device.after, Device.afterRead, Device.afterWrite, e]⟩

/-- The three slots of a position leave exactly the devices that sent the bit written. -/
theorem searching_next {path : Rom} {p : Nat} (h1 : 1 ≤ p) (h2 : p < 64) {devices : List Device}
    (hs : SearchingAt path p devices) (id cmp : Bool) :
    ∃ after, (Bus.reference devices false).afterAll [.r id, .r cmp, .w (romBit path p)] = .reference after false ∧
      after.map (·.romCode) = devices.map (·.romCode) ∧ SearchingAt path (p + 1) after := by
  refine ⟨devices.map fun d => ((d.after (.r id)).after (.r cmp)).after (.w (romBit path p)), ?_, ?_, ?_⟩
  · simp [Function.comp_def]
  · simp
  · intro d hd
    obtain ⟨d, hd', rfl⟩ := List.mem_map.mp hd
    have := Device.after_position h1 id cmp (hs d hd')
    simp only [this.1]
    exact this.2 h2

/-- A participant carries on: the bit written is one that some participant sent. -/
theorem PairOf.participant {path : Rom} {p : Nat} {codes : List Rom} {x : Resolved} {ld : Nat} {rom : Rom}
    (hx : PairOf path p codes x) (hc : ∃ c ∈ codes, AgreeBefore c path p) (h11 : (x.id && x.cmp) = false)
    (hdir : x.dir = chooseDirection ld rom p x.id x.cmp) (hpath : romBit path p = x.dir) :
    ∃ c ∈ codes, AgreeBefore c path (p + 1) := by
  obtain ⟨c, hc, ha⟩ := hc
  obtain ⟨id, cmp, dir⟩ := x
  obtain ⟨h1, h2⟩ := hx
  simp only at h1 h2 h11 hdir hpath
  cases id <;> cases cmp
  · have hone : ∀ b : Bool, ∃ c ∈ codes, AgreeBefore c path p ∧ romBit c p = b := by
      simp only [Bool.false_eq_true, false_iff, not_forall] at h1 h2
      intro b
      cases b
      · obtain ⟨c, hc, ha, hb⟩ := h1
        exact ⟨c, hc, ha, by simpa using hb⟩
      · obtain ⟨c, hc, ha, hb⟩ := h2
        exact ⟨c, hc, ha, by simpa using hb⟩
    obtain ⟨c, hc, ha, hb⟩ := hone dir
    exact ⟨c, hc, ha.succ (hb.trans hpath.symm)⟩
  · have hd : dir = false := by simpa [chooseDirection] using hdir
    exact ⟨c, hc, ha.succ (by rw [hpath, hd]; exact h2.mp rfl c hc ha)⟩
  · have hd : dir = true := by simpa [chooseDirection] using hdir
    exact ⟨c, hc, ha.succ (by rw [hpath, hd]; exact h1.mp rfl c hc ha)⟩
  · simp at h11

/-- No participant answers `1,1` while one takes part. -/
theorem PairOf.answered {path : Rom} {p : Nat} {codes : List Rom} {x : Resolved}
    (hx : PairOf path p codes x) (hc : ∃ c ∈ codes, AgreeBefore c path p) : (x.id && x.cmp) = false := by
  obtain ⟨c, hc, ha⟩ := hc
  by_contra h
  simp only [Bool.not_eq_false, Bool.and_eq_true] at h
  have h1 := hx.1.mp h.1 c hc ha
  rw [hx.2.mp h.2 c hc ha] at h1
  simp at h1

/-- The slots of a pass from position p on, on a reference bus with a participant: every pair is the participants', the
pass never meets `1,1`, and a participant is left at its end. -/
theorem answered_search {path : Rom} {codes : List Rom} {ld : Nat} {rom : Rom} {nr : Bool} {ts : List Resolved} :
    ∀ {p : Nat} {devices : List Device} {h : List BusEvent}, devices.map (·.romCode) = codes → 1 ≤ p →
      (nr = false ∧ p + ts.length ≤ 65 ∨ nr = true ∧ p + ts.length ≤ 64) →
      (p ≤ 64 → SearchingAt path p devices) → (∃ c ∈ codes, AgreeBefore c path p) →
      (∀ k (h : k < ts.length), romBit path (p + k) = ts[k].dir) → Directed ld rom p ts →
      Answered (.reference devices false) h (positionEvents ts nr) →
      nr = false ∧ (∀ k (h : k < ts.length), PairOf path (p + k) codes ts[k]) ∧
        ∃ c ∈ codes, AgreeBefore c path (p + ts.length) := by
  induction ts with
  | nil =>
    intro p devices h hcodes hp hlen hs hc hpath hdir hans
    refine ⟨?_, fun k hk => absurd hk (by simp), hc⟩
    cases nr with
    | false => rfl
    | true =>
      obtain ⟨hid, hcmp, -⟩ := hans
      have hx := searching_pair (hs (by simpa using hlen)) hid hcmp false
      rw [hcodes] at hx
      have := hx.answered hc
      simp at this
  | cons x ts ih =>
    intro p devices h hcodes hp hlen hs hc hpath hdir hans
    simp only [List.length_cons] at hlen
    obtain ⟨hid, hcmp, -, hrest⟩ := hans
    have hx := searching_pair (hs (by omega)) hid hcmp x.dir
    rw [hcodes] at hx
    have hp0 : romBit path p = x.dir := hpath 0 (by simp)
    have hnext := hx.participant hc hdir.1 hdir.2.1 hp0
    obtain ⟨after, ha1, ha2⟩ := Bus.afterAll_reference [.r x.id, .r x.cmp, .w x.dir] devices false
    have hs' : p + 1 ≤ 64 → SearchingAt path (p + 1) after := by
      intro hlt
      obtain ⟨after', hb1, -, hb3⟩ := searching_next hp (by omega) (hs (by omega)) x.id x.cmp
      rw [hp0, ha1, Bus.reference.injEq] at hb1
      rw [hb1.1]
      exact hb3
    have hrest' : Answered (.reference after false) (h ++ [.r x.id] ++ [.r x.cmp] ++ [.w x.dir]) (positionEvents ts nr) := by
      rw [← ha1]
      exact hrest
    obtain ⟨h1, h2, h3⟩ := ih (ha2.trans hcodes) (by omega)
      (hlen.imp (fun h => ⟨h.1, by omega⟩) fun h => ⟨h.1, by omega⟩) hs' hnext
      (fun k hk => by
        have := hpath (k + 1) (by simpa using hk)
        rw [show p + 1 + k = p + (k + 1) by omega, this]
        simp) hdir.2.2 hrest'
    refine ⟨h1, ?_, ?_⟩
    · intro k hk
      cases k with
      | zero => exact hx
      | succ k =>
        rw [show p + (k + 1) = p + 1 + k by omega]
        exact h2 k (by simpa using hk)
    · rw [show p + (x :: ts).length = p + 1 + ts.length by simp; omega]
      exact h3

/-! ## A pass -/

/-- A reset slot and the Search ROM byte start a search on every device (R102, R103, R104). -/
theorem Device.after_searchRom (d : Device) :
    ([.rst .ok, .w false, .w false, .w false, .w false, .w true, .w true, .w true, .w true].foldl
      (fun d e => Device.after e d) d) = { d with phase := .search 1 0 } := by
  simp only [List.foldl, Device.after, Device.afterWrite, List.length, List.nil_append]
  rfl

theorem Bus.afterAll_reference_eq (es : List BusEvent) (devices : List Device) (stuckLow : Bool) :
    (Bus.reference devices stuckLow).afterAll es =
      .reference (devices.map fun d => es.foldl (fun d e => Device.after e d) d) stuckLow := by
  induction es generalizing devices with
  | nil => simp
  | cons e es ih => simp [ih, Function.comp_def]

/-- Checksum 0 over all eight bytes is validity; here, of a ROM Code known to be valid. -/
theorem crc8_of_valid {r : Rom} (h : romValid r = true) : crc8 (romBytes r) = 0 := by
  have h7 : crc8 ((romBytes r).take 7) = romByte r 7 := by simpa [romValid] using h
  have h8 := crc8_take_succ r (k := 7) (by omega)
  rw [List.take_of_length_le (by rw [romBytes_length])] at h8
  rw [h8, h7, crcStep, BitVec.xor_self]
  rfl

/-- What a pass finds on a reference bus of valid, non-zero ROM Codes: one of them, along a path whose pairs are the
participants' (R104, R231). -/
theorem searchPass_reference {s : State} {devices : List Device} (hb : s.bus = .reference devices false)
    (hne : devices ≠ []) (hv : ∀ d ∈ devices, romValid d.romCode = true ∧ d.romCode ≠ 0) :
    ∃ ts, PassResult s (searchPass s) ts false ∧ ts.length = 64 ∧ (searchPass s).sres = .found ∧
      (searchPass s).rom ∈ devices.map (·.romCode) ∧
      ∀ k (h : k < ts.length), PairOf (searchPass s).rom (k + 1) (devices.map (·.romCode)) ts[k] := by
  rcases searchPass_result s with ⟨o, ho, hr, -⟩ | ⟨-, ts, nr, R⟩
  · rw [hb] at hr
    simp only [Bus.resetAnswer, Bool.false_eq_true, if_false, List.isEmpty_iff, hne] at hr
    exact absurd hr.symm ho
  · have hans := R.answered
    have hev : passEvents ts nr = [.rst .ok, .w false, .w false, .w false, .w false, .w true, .w true, .w true, .w true] ++
      positionEvents ts nr := rfl
    rw [hev, hb, answered_append, Bus.afterAll_reference_eq] at hans
    have hbits : ∀ k (h : k < ts.length), romBit (searchPass s).rom (1 + k) = ts[k].dir := fun k h => by
      rw [Nat.add_comm]
      exact R.rom_resolved k h
    obtain ⟨h1, h2, c, hc, h3⟩ := answered_search (codes := devices.map (·.romCode)) (path := (searchPass s).rom)
      (by simp [Function.comp_def]) (Nat.le_refl 1)
      (R.length_le.imp (fun h => ⟨h.1, by omega⟩) fun h => ⟨h.1, by omega⟩)
      (fun _ d hd => by
        obtain ⟨d, -, rfl⟩ := List.mem_map.mp hd
        rw [Device.after_searchRom]
        exact .inl ⟨fun q h1 h2 => absurd h1 (by omega), rfl⟩)
      (by
        obtain ⟨d, hd⟩ := List.exists_mem_of_ne_nil _ hne
        exact ⟨d.romCode, List.mem_map_of_mem hd, fun q h1 h2 => absurd h1 (by omega)⟩)
      hbits R.directed hans.2
    subst h1
    have hlen : ts.length = 64 := by
      rcases R.length_le with h | h
      · exact h.2
      · simp at h
    rw [hlen] at h3
    have hcode : c = (searchPass s).rom := rom_ext fun q hq1 hq2 => h3 q hq1 (by omega)
    obtain ⟨d, hd, hdc⟩ := List.mem_map.mp hc
    have hvalid := hv d hd
    rw [hdc, hcode] at hvalid
    have hacc : (searchPass s).acc = 0 := by
      rw [R.acc_eq, hlen, List.take_of_length_le (by simp [romBytes_length]), crc8_of_valid hvalid.1]
    refine ⟨ts, R, hlen, (R.success ⟨hlen, hacc, hvalid.2⟩).1, hcode ▸ hc, fun k hk => ?_⟩
    rw [Nat.add_comm]
    exact h2 k hk

end Sys2Proof.Machine
end

