-- ==== Sys2Proof/Tests/Slice0.lean ====
section
/-!
SUPPORT. Tests of the model, and the witnesses of the statements. Every expected value is the spec's: the comment before a
test names the rule, or the vector of spec/95_test_vectors.md, it was taken from.
-/

namespace Sys2Proof.Tests

open Sys2Proof Sys2Proof.Machine Sys2Proof.Claims

/-! ## Helpers -/

/-- Right after reset, with this on the line. -/
def onBus (bus : Bus) : State := { State.reset with bus := bus }

/-- Right after reset, with these reference devices on a healthy line. -/
def withDevices (devices : List Device) : State := onBus (.reference devices false)

/-- DEV1 and DEV2 of 95_test_vectors.md: 28 01 02 03 04 05 06 9E and 28 FF 4B 2F 62 16 03 75. -/
def dev1 : Device := .powerUp 0x9E06050403020128 0x0191
def dev2 : Device := .powerUp 0x750316622F4BFF28 0xFF5E

/-- The state a command leaves; the state itself if it stops. -/
def after (i : Instr) (s : State) : State := stateAfter s (exec i s)

/-- A command has been accepted and has not run. -/
def busyWith (i : Instr) (s : State) : State := s.accept (encode i)

/-- The window's first register is the CMD register. -/
theorem cmd_target : accessTarget (Config.owcBase + Reg.offset .cmd) .word = .reg .cmd := accessTarget_register .cmd

/-! ## WellFormed: the smoke test (R133) -/

theorem test_wellFormed_refuses_bit_operand_above_1 :
    Instr.wellFormed (.owWriteBit 0x02) = false ∧ Instr.wellFormed (.owWriteBit 0x80) = false ∧
    Instr.wellFormed (.owWriteBit 0xFF) = false := by decide

theorem test_wellFormed_accepts_bit_operands :
    Instr.wellFormed (.owWriteBit 0) = true ∧ Instr.wellFormed (.owWriteBit 1) = true := by decide

/-! ## Decode: words written out bit by bit (R130, R135, R136) -/

theorem test_decode_owReset : decode 0b00000000000000000000000000000001 = .ok .owReset := rfl
theorem test_decode_owWriteBit : decode 0b00000000000000000000000100000010 = .ok (.owWriteBit 1) := rfl
theorem test_decode_owReadBit : decode 0b00000000000000000000000000000011 = .ok .owReadBit := rfl
theorem test_decode_owWriteByte : decode 0b00000000000000001100110000000100 = .ok (.owWriteByte 0xCC) := rfl
theorem test_decode_owReadByte : decode 0b00000000000000000000000000000101 = .ok .owReadByte := rfl
theorem test_decode_crcClear : decode 0b00000000000000000000000000000110 = .ok .crcClear := rfl
theorem test_decode_crcStep : decode 0b00000000000000001001111000000111 = .ok (.crcStep 0x9E) := rfl
theorem test_decode_searchFirst : decode 0b00000000000000000000000000001000 = .ok .searchFirst := rfl
theorem test_decode_searchNext : decode 0b00000000000000000000000000001001 = .ok .searchNext := rfl

/-- V-E: the illegal words. -/
theorem test_decode_rejects :
    decode 0x0000000F = .error .reservedOp ∧ decode 0x00000302 = .error .argumentNotABit ∧
    decode 0x00008002 = .error .argumentNotABit ∧ decode 0x00000103 = .error .argumentNotZero ∧
    decode 0x00000109 = .error .argumentNotZero ∧ decode 0x000000F4 = .error .reservedLow ∧
    decode 0x80000004 = .error .reservedHigh ∧ decode 0x0001CC04 = .error .reservedHigh := by
  refine ⟨rfl, rfl, rfl, rfl, rfl, rfl, rfl, rfl⟩

/-- The host's numbering: one 32-bit word, bit 0 least significant. -/
theorem test_decodeTableWord :
    decodeTableWord 32 0x0000F004 = some (.owWriteByte 0xF0) ∧ decodeTableWord 32 0 = none := ⟨rfl, rfl⟩

/-! ## One step of each command -/

/-- V-B2. -/
theorem test_owReset_stuck_low :
    (after .owReset (onBus (.reference [] true))).pres = .releaseFailure ∧
    (after .owReset (onBus (.reference [] true))).history = [.rst .releaseFailure] := by decide

/-- V-B9, first row: a presence pulse at 795 to 915 µs; the second row's empty line. -/
theorem test_owReset_on_a_line :
    (after .owReset (onBus (.waveform [[(795, 915)]]))).pres = .ok ∧
    (after .owReset (onBus (.waveform []))).pres = .noPresence := by decide +kernel

/-- V-B4. -/
theorem test_owWriteBit : (after (.owWriteBit 1) (after (.owWriteBit 0) State.reset)).history = [.w false, .w true] := by
  decide

/-- V-B5, V-B6. -/
theorem test_owReadBit :
    (after .owReadBit (withDevices [])).data = 1 ∧ (after .owReadBit (onBus (.reference [] true))).data = 0 := by decide

/-- V-B8: 0x55 from bit 0. -/
theorem test_owWriteByte : (after (.owWriteByte 0x55) State.reset).history =
    [.w true, .w false, .w true, .w false, .w true, .w false, .w true, .w false] := by decide

/-- V-B12. -/
theorem test_owReadByte :
    (after .owReadByte (onBus (.oracle [] [false, false, false, true, true, true, true, false]))).data = 0x78 := by decide

/-- V-C1, first row. -/
theorem test_crcClear : (after .crcClear { State.reset with acc := 0x5E }).acc = 0 := by decide

/-- V-C1, rows 6 and 7. -/
theorem test_crcStep :
    (after (.crcStep 0x00) { State.reset with acc := 0x35 }).acc = 0x81 ∧
    (after (.crcStep 0x01) { State.reset with acc := 0xE1 }).acc = 0xE9 := by decide

/-- V-S2, first row. -/
theorem test_searchFirst_two_devices :
    let t := after .searchFirst (withDevices [dev1, dev2])
    t.rom = dev1.romCode ∧ t.ld = 10 ∧ t.lfd = 0 ∧ t.ldf = false ∧ t.sres = .found ∧ t.history.length = 201 := by
  decide +kernel

/-- V-S8's kind of failure, at position 3: a `1,1` pair after two resolved positions (R226, R233, R236). -/
theorem test_searchFirst_no_response :
    let t := after .searchFirst (onBus (.oracle [.ok] [true, false, false, true, true, true]))
    t.rom = 1 ∧ t.sres = .failed ∧ t.ld = 0 ∧ t.history.length = 9 + 3 + 3 + 2 := by decide +kernel

/-- V-S2, second row: the pass takes 1 at position 10 and is the last. -/
theorem test_searchNext_second_device :
    let t := after .searchNext { withDevices [dev1, dev2] with rom := dev1.romCode, ld := 10 }
    t.rom = dev2.romCode ∧ t.ld = 0 ∧ t.ldf = true ∧ t.sres = .found ∧ t.acc = 0 := by decide +kernel

/-- V-S1, second row: exhausted, no slot. -/
theorem test_searchNext_exhausted :
    let t := after .searchNext { withDevices [dev1] with ldf := true, sres := .found }
    t.sres = .exhausted ∧ t.history = [] ∧ t.ldf = true := by decide

/-! ## Acceptance, completion, reset and the host -/

/-- V-A1 and V-A4: acceptance, and an illegal word while busy, which overruns only. -/
theorem test_acceptance :
    (State.reset.offerCommand 0x0000CC04).cmdLast = 0xCC04 ∧ (State.reset.offerCommand 0x0000CC04).busy = true ∧
    ((busyWith .owReadByte State.reset).offerCommand 0x0000000F).ovr = true ∧
    ((busyWith .owReadByte State.reset).offerCommand 0x0000000F).ill = false := by decide

/-- R145: a placed word runs at the next step, and completes. -/
theorem test_placed_word_runs :
    step (State.reset.withFetchWord 32 0x00000102) = .next { State.reset with
      cmdLast := 0x0102, history := [.w true] } := rfl

/-- R311: reset in a byte command, after three of its eight slots. -/
theorem test_reset_aborts :
    (assertReset 3 (busyWith (.owWriteByte 0xFF) State.reset)).history = [.w true, .w true, .w true, .abort] ∧
    (assertReset 3 (busyWith (.owWriteByte 0xFF) State.reset)).busy = false := by decide

/-- V-B1: STATUS after OW_RESET with one device. -/
theorem test_status_word : hostRead .status (after .owReset (withDevices [dev1])) = 0x00000010 := by decide

/-- V-C4: a corrupted DEV4 is not valid; V-C3: DEV4 is. -/
theorem test_rom_validity : romValid 0xA200000001B81C02 = true ∧ romValid 0xA200000001B91C02 = false := by
  decide +kernel

/-- E5 and E6, in sixteenths, and their binary32 patterns (85.0 and -0.5). -/
theorem test_temperature :
    decodeTemperature 0x50 0x05 = 1360 ∧ decodeTemperature 0xF8 0xFF = -8 ∧
    binary32OfSixteenths 1360 = 0x42AA0000 ∧ binary32OfSixteenths (-8) = 0xBF000000 := by decide +kernel

/-- P1: one device at 25.0625 °C. -/
theorem test_single_reading :
    (readTemperatureSingle 1000 5 (withDevices [dev1])).1 = .celsius 0x41C88000 := by decide +kernel

/-- P4: DEV2 by Match ROM, with DEV1 on the bus: -10.125 °C after 178 events, T_CONV (here 7 µs, and 2 more) waited once,
and DEV1 not converted. -/
theorem test_match_rom_reading :
    let reading := readTemperatureOf 7 2 dev2.romCode (withDevices [{ dev1 with temperature := 0x0190 }, dev2])
    reading.1 = .celsius 0xC1220000 ∧ reading.2.history.length = 178 ∧ reading.2.hostClock = 9 ∧
    reading.2.bus = .reference [⟨dev1.romCode, 0x0190, 0x0550, .ignoring⟩, ⟨dev2.romCode, 0xFF5E, 0xFF5E, .sending 16⟩]
      false := by decide +kernel

/-- R270 on V-S2's bus. -/
theorem test_enumeration :
    (enumerateDevices 5 (withDevices [dev2, dev1])).1 = [dev1.romCode, dev2.romCode] := by decide +kernel

/-! ## Witnesses: a concrete state and operands for the hypotheses of each statement -/

/-- OW_READ_BYTE runs, its two sticky bits are set, and no reset. -/
def busy : State := { busyWith .owReadByte State.reset with ill := true, ovr := true }

/-- Reset is asserted. -/
def held : State := assertReset 0 State.reset

/-- Reserved OP: the third clause's illegal word, on an idle block. -/
theorem test_witness_DecodeAcceptsExactlyTheLegalWords :
    State.reset.inReset = false ∧ State.reset.busy = false ∧ legal 0x0000000F = false := by decide

/-- One state and word for each of the three outcomes; 0x00009E07 and 0x0001CC04 are V-E's. -/
theorem test_witness_CommandWriteIsAcceptedOrRejected :
    (busy.inReset = false ∧ busy.busy = true) ∧
    (State.reset.inReset = false ∧ State.reset.busy = false ∧ legal 0x00009E07 = true) ∧
    legal 0x0001CC04 = false := by decide

theorem test_witness_StatusReadsItsFieldsAndClearsItsErrorBits :
    (busy.inReset = false ∧ busy.busy = true ∧ busy.ill = true ∧ busy.ovr = true) ∧
    (State.reset.inReset = false ∧ State.reset.busy = false) := by decide

theorem test_witness_ResultFieldCodesAreTheSpecs : (1 : BitVec 7) ≠ 0 ∧ (64 : BitVec 7) ≠ 0 := by decide

theorem test_witness_ReadOnlyRegistersIgnoreWrites :
    (Reg.data ≠ .cmd ∧ Reg.data ≠ .status) ∧ (Reg.reserved ≠ .cmd ∧ Reg.reserved ≠ .status) := by decide

theorem test_witness_IdleReadsReturnTheRegisters :
    State.reset.inReset = false ∧ State.reset.busy = false ∧ Reg.rom1 ≠ .status ∧ Reg.cmd ≠ .status := by decide

theorem test_witness_BusyReadsAreExactWhereTheyMustBe : busy.inReset = false ∧ busy.busy = true := by decide

/-- A read of CMD on an idle block answers, and so does one that is not OWC's. -/
theorem test_witness_ReadsChangeNothingAndRepeat : State.reset.busy = false ∧
    accessTarget (Config.owcBase + Reg.offset .cmd) .word = .reg .cmd ∧
    step { State.reset with inputs := [.read (Config.owcBase + Reg.offset .cmd) .word] } =
      .next (State.reset.respond 0) := by
  refine ⟨rfl, cmd_target, ?_⟩
  change serveRead _ _ State.reset = _
  unfold serveRead
  rw [cmd_target]
  rfl

/-- The offsets at both ends of the window, too narrow or misaligned. -/
theorem test_witness_MeaninglessAccessIsRefused :
    (0 < 32 ∧ (AccessWidth.byte ≠ .word ∨ 0 % 4 ≠ 0)) ∧ (31 < 32 ∧ (AccessWidth.word ≠ .word ∨ 31 % 4 ≠ 0)) ∧
    (28 < 32 ∧ (AccessWidth.half ≠ .word ∨ 28 % 4 ≠ 0)) := by decide

/-- The first address past the window; where there is one before it, the last of those. -/
theorem test_witness_ForeignAccessLeavesOwcAlone :
    (Config.owcBase + 32 < Config.owcBase ∨ Config.owcBase + 32 ≤ Config.owcBase + 32) ∧
    (0 < Config.owcBase → Config.owcBase - 1 < Config.owcBase ∨ Config.owcBase + 32 ≤ Config.owcBase - 1) := by omega

/-- An executing OW_WRITE_BYTE of eight slots, cut short before its first, after its seventh and not at all. -/
theorem test_witness_AssertedResetAbortsTheCommand :
    let s := busyWith (.owWriteByte 0xF0) State.reset
    s.busy = true ∧ s.inReset = false ∧ s.pending = some 0xF004 ∧
    decode ((0xF004 : Half).setWidth 32) = .ok (.owWriteByte 0xF0) ∧
    exec (.owWriteByte 0xF0) s = .next (after (.owWriteByte 0xF0) s) ∧
    (after (.owWriteByte 0xF0) s).history = s.history ++ (byteBits 0xF0).map .w ∧
    State.reset.busy = false := ⟨rfl, rfl, rfl, rfl, rfl, rfl, rfl⟩

theorem test_witness_AssertedResetIgnoresTheHost : held.inReset = true := by decide

theorem test_witness_StepRunsThePendingCommand :
    let s := busyWith .searchNext State.reset
    s.busy = true ∧ s.inReset = false ∧ s.pending = some 0x0009 ∧
    decode ((0x0009 : Half).setWidth 32) = .ok .searchNext := ⟨rfl, rfl, rfl, rfl⟩

theorem test_witness_NothingHappensWithoutACommand : State.reset.busy = false ∧ State.reset.inReset = false := by decide

theorem test_witness_PlacedWordRunsNext : decode 0x00000008 = .ok .searchFirst := rfl

theorem test_witness_SlotsAreAnsweredByTheBus :
    exec .owReadBit State.reset = .next (after .owReadBit State.reset) := rfl

theorem test_witness_OwResetReportsItsSlot :
    (onBus (.reference [dev1] true)).bus = .reference [dev1] true ∧
    (withDevices []).bus = .reference [] false := ⟨rfl, rfl⟩

theorem test_witness_OwWriteBitWritesOneSlot :
    (0x02 : Byte).extractLsb' 1 7 ≠ 0 ∧ (0x80 : Byte).extractLsb' 1 7 ≠ 0 := by decide

theorem test_witness_OwReadBitZeroExtendsTheSample : (withDevices []).bus = .reference [] false := rfl

theorem test_witness_OwReadByteAssemblesLowBitFirst : (withDevices []).bus = .reference [] false ∧ 7 < 8 := ⟨rfl, by decide⟩

/-- DEV1 and DEV2 are valid; the first and the last bit to flip. -/
theorem test_witness_SingleBitErrorsAreDetected :
    0 < 64 ∧ 63 < 64 ∧ romValid dev1.romCode = true ∧ romValid dev2.romCode = true := by decide +kernel

theorem test_witness_SearchPassFollowsItsRules : (withDevices [dev1, dev2]).ldf = false := rfl

theorem test_witness_ExhaustedSearchNextOnlyReports : { State.reset with ldf := true }.ldf = true := rfl

/-- IDLE, ACTIVE and EXHAUSTED are all met, and each command answers. -/
theorem test_witness_SearchStateTransitions :
    searchStateCode State.reset.ld State.reset.ldf = 0 ∧ searchStateCode 64 false = 1 ∧ searchStateCode 0 true = 2 ∧
    exec .searchFirst State.reset = .next (after .searchFirst State.reset) ∧
    exec .searchNext State.reset = .next (after .searchNext State.reset) ∧
    exec .crcClear State.reset = .next (after .crcClear State.reset) := ⟨rfl, rfl, rfl, rfl, rfl, rfl⟩

/-- DEV1's pass (V-S1): 64 resolved positions, a zero checksum and a ROM buffer that is not zero; and a reset slot that is
not answered OK. -/
theorem test_witness_SearchStateTransitions_passes :
    (∃ ts, PassSucceeds ts (after .searchFirst (withDevices [dev1]))) ∧
    (¬PassSucceeds [] (after .searchFirst (withDevices []))) := by
  refine ⟨⟨List.replicate 64 ⟨false, true, false⟩, ?_⟩, fun h => absurd h.1 (by decide)⟩
  unfold PassSucceeds
  decide +kernel

/-- An idle search state whose ROM buffer is not empty. -/
theorem test_witness_SearchNextFromIdleIsAFirstPass :
    let s := { withDevices [] with rom := dev1.romCode }
    s.ld = 0 ∧ s.ldf = false ∧ s.lfd = 0 ∧
    exec .searchNext s = .next (after .searchNext s) ∧ exec .searchFirst s = .next (after .searchFirst s) :=
  ⟨rfl, rfl, rfl, rfl, rfl⟩

theorem test_witness_FamilyDiscrepancyGatesNothing :
    exec .searchNext State.reset = .next (after .searchNext State.reset) ∧
    exec .searchNext { State.reset with lfd := 8 } = .next (after .searchNext { State.reset with lfd := 8 }) := ⟨rfl, rfl⟩

/-- A pass that succeeds is among them. -/
theorem test_witness_SlotCountsAreBoundedAndFoundRomsValid :
    ∃ t, exec .searchFirst (withDevices [dev1]) = .next t ∧ t.sres = .found :=
  ⟨searchPass ((withDevices [dev1]).clearSearch.setRom 0), rfl, by decide +kernel⟩

theorem test_witness_CommandsWriteOnlyTheirOwnRegisters :
    exec (.crcStep 1) State.reset = .next (after (.crcStep 1) State.reset) ∧
    Instr.crcStep 1 ≠ .owReset ∧ Instr.crcStep 1 ≠ .owReadBit ∧ Instr.crcStep 1 ≠ .searchFirst ∧
    (Instr.owReset ≠ .crcClear ∧ ∀ a, Instr.owReset ≠ .crcStep a) := by
  refine ⟨rfl, by decide, by decide, by decide, by decide, fun a h => by cases h⟩

/-- What a SEARCH_FIRST that found DEV1 leaves (V-S1), with a SEARCH_NEXT accepted. -/
def afterV_S1 : State :=
  { withDevices [dev1] with
    busy := true, pending := some 0x0009, cmdLast := 0x0009, rom := dev1.romCode, ldf := true, sres := .found }

/-- The invariant holds in a state a search has reached, and the command accepted there runs from it. -/
theorem test_witness_StepKeepsTheInvariant : afterV_S1.Inv ∧
    step afterV_S1 = .next { afterV_S1 with busy := false, pending := none, sres := .exhausted } := by
  refine ⟨?_, rfl⟩
  constructor
  case pending_legal =>
    intro p hp
    have h : p = 0x0009 := by simpa [afterV_S1] using hp.symm
    subst h
    decide
  case reset_held => exact fun h => absurd h (by decide)
  all_goals decide +kernel

/-- A CMD write, time to complete it, a read and a reset to come. -/
theorem test_witness_AcceptableInputsNeverStopTheMachine :
    State.reset.Inv ∧ ∀ i ∈ [Input.write (Config.owcBase + Reg.offset .cmd) .word 8, .run,
      .read (Config.owcBase + Reg.offset .cmd) .word, .wait 5, .assertReset 3, .releaseReset], i.acceptable = true := by
  refine ⟨?_, by simp [Input.acceptable, cmd_target]⟩
  constructor
  case pending_legal => exact fun p hp => absurd hp (by simp [State.reset])
  case reset_held => exact fun h => absurd h (by decide)
  all_goals decide

theorem test_witness_HistoryOnlyGrows :
    step (State.reset.accept 0x00000102) = .next (stateAfter State.reset (step (State.reset.accept 0x00000102))) := rfl

/-- Positions 1 and 64, one device taking part and one not. -/
theorem test_witness_SearchPairFollowsTheParticipants :
    (1 ≤ 1 ∧ 1 ≤ 64 ∧ ∀ d ∈ [{ dev1 with phase := .search 1 0 }, { dev2 with phase := .ignoring }],
      d.phase = .search 1 0 ∨ d.phase = .ignoring) ∧
    (1 ≤ 64 ∧ 64 ≤ 64 ∧ ∀ d ∈ [{ dev1 with phase := .search 64 0 }, { dev2 with phase := .search 64 0 }],
      d.phase = .search 64 0 ∨ d.phase = .ignoring) := by decide

/-- The first and the last of the sixteen bits. -/
theorem test_witness_SeveralSendersAreAnded :
    (0 < 16 ∧ ∀ d ∈ [{ dev1 with phase := .sending 0 }, { dev2 with phase := .sending 0 }],
      d.phase = .sending 0 ∨ d.phase = .ignoring) ∧
    (15 < 16 ∧ ∀ d ∈ [{ dev1 with phase := .sending 15 }, { dev2 with phase := .ignoring }],
      d.phase = .sending 15 ∨ d.phase = .ignoring) := by decide

theorem test_witness_EmptyAndStuckLowBusesAreReported :
    (withDevices []).bus = .reference [] false ∧
    (onBus (.reference [dev1, dev2] true)).bus = .reference [dev1, dev2] true := ⟨rfl, rfl⟩

theorem test_witness_SingleDeviceIsFoundInOnePass :
    (withDevices [dev1]).bus = .reference [dev1] false ∧ romValid dev1.romCode = true ∧ dev1.romCode ≠ 0 := by
  decide +kernel

/-- Two devices, with room for fewer, for both and for more. -/
theorem test_witness_EnumerationFindsEveryDeviceInOrder :
    let s := withDevices [dev2, dev1]
    s.busy = false ∧ s.inReset = false ∧ s.bus = .reference [dev2, dev1] false ∧
    ([dev2, dev1].map (·.romCode)).Nodup ∧ (∀ d ∈ [dev2, dev1], romValid d.romCode = true ∧ d.romCode ≠ 0) ∧
    [dev2, dev1] ≠ [] ∧ [dev2, dev1].length ≤ 2 ∧ ¬[dev2, dev1].length ≤ 1 := by decide +kernel

theorem test_witness_SlotsEndInBoundedTime : Timing.defaults.wellFormed = true := by decide

/-- T_POLL = 100 µs in a wait and a release of 240 µs: the loops look at samples 0 to 3. A line nobody pulls; a pulse that is
low at the last of them and high at the last of the release; and one that never ends. -/
theorem test_witness_PresencePulseDecidesTheResetOutcome :
    let t : Timing := { Timing.defaults with tPoll := 100 }
    0 < t.tPoll ∧ 0 < Timing.defaults.tPoll ∧
    (Polled t t.tPdwait 0 ∧ Polled t t.tPdwait 3 ∧ ¬Polled t t.tPdwait 4 ∧ Polled t t.tPdrel 3) ∧
    (∀ k, Polled t t.tPdwait k → (fun _ : Nat => false) (765 + k * 100) = false) ∧
    ((fun x : Nat => decide (1065 ≤ x ∧ x < 1300)) (765 + 3 * 100) = true ∧
      (∀ j, j < 3 → (fun x : Nat => decide (1065 ≤ x ∧ x < 1300)) (765 + j * 100) = false) ∧
      (fun x : Nat => decide (1065 ≤ x ∧ x < 1300)) (765 + (3 + 3) * 100) = false) ∧
    ∀ m, Polled t t.tPdrel m → (fun x : Nat => decide (1065 ≤ x)) (765 + (3 + m) * 100) = true := by
  refine ⟨by decide, by decide, ?_, fun _ _ => rfl, by decide, fun m _ => ?_⟩
  · unfold Polled
    decide
  · simp
    omega

theorem test_witness_CommandDurationsAreBounded :
    exec .owReadBit State.reset = .next (after .owReadBit State.reset) ∧
    (after .owReadBit State.reset).history = State.reset.history ++ [.r (Config.oracleRead [])] := ⟨rfl, rfl⟩

theorem test_witness_ValidateRomSequenceDecidesValidity : State.reset.busy = false ∧ State.reset.inReset = false := by
  decide

/-- The largest magnitudes, 2048 °C either side of 0. -/
theorem test_witness_TemperatureDecodeIsTwosComplement :
    Int.natAbs 32768 ≤ 32768 ∧ Int.natAbs (-32768) ≤ 32768 ∧ Int.natAbs 0 ≤ 32768 := by decide

theorem test_witness_ConversionPassWritesItsBytesAndWaits :
    let s := withDevices [dev1, dev2]
    SelectorWrites selectSkipRom [0xCC] ∧ SelectorWrites (selectMatchRom dev1.romCode) (0x55 :: romBytes dev1.romCode) ∧
    s.busy = false ∧ s.inReset = false ∧ s.bus.resetAnswer s.history = .ok :=
  ⟨.skip, .matchRom dev1.romCode, rfl, rfl, rfl⟩

/-- An empty bus and a stuck-low one. -/
theorem test_witness_FailedPresenceIsReportedAndStops :
    (let s := withDevices []; s.busy = false ∧ s.inReset = false ∧ s.bus.resetAnswer s.history ≠ .ok) ∧
    (let s := onBus (.reference [dev1] true); s.busy = false ∧ s.inReset = false ∧ s.bus.resetAnswer s.history ≠ .ok) := by
  decide

/-- The buses of P4, with the device addressed second. -/
theorem test_witness_MatchRomReadingIsTheAddressedDevices :
    let s := withDevices [dev1, dev2]
    s.busy = false ∧ s.inReset = false ∧ s.bus = .reference [dev1, dev2] false ∧
    ([dev1, dev2].map (·.romCode)).Nodup ∧ dev2 ∈ [dev1, dev2] := by decide

theorem test_witness_SingleDeviceReadingIsItsTemperature :
    let s := withDevices [dev2]
    s.busy = false ∧ s.inReset = false ∧ s.bus = .reference [dev2] false := ⟨rfl, rfl, rfl⟩

end Sys2Proof.Tests
end

section
/-!
The state invariant is kept by every step. The search registers are the part a command can break, so their clauses form a
predicate of their own, `State.SearchSound`, which every command keeps; the rest of the invariant is about acceptance,
completion and reset.
-/

namespace Sys2Proof.Machine

/-! ## The search registers -/

/-- The clauses of `State.Inv` that speak of the search registers alone (R7, R231 to R235, R238). -/
structure State.SearchSound (s : State) : Prop where
  ld_range : s.ld.toNat ≤ 64
  lfd_range : s.lfd.toNat ≤ 8
  exhausted_ld : s.ldf = true → s.ld = 0
  idle_lfd : s.ldf = false → s.ld = 0 → s.lfd = 0
  found_valid : s.sres = .found → romValid s.rom = true ∧ s.rom ≠ 0 ∧ searchStateCode s.ld s.ldf ≠ 0
  failed_idle : s.sres = .failed → s.ld = 0 ∧ s.ldf = false
  exhausted_state : s.sres = .exhausted → s.ldf = true ∧ romValid s.rom = true ∧ s.rom ≠ 0
  unsearched : s.sres = .none → s.ld = 0 ∧ s.ldf = false ∧ s.rom = 0

theorem State.Inv.searchSound {s : State} (h : s.Inv) : s.SearchSound := { h with }

/-- `SearchSound` depends on the five search registers only. -/
theorem State.SearchSound.congr {s t : State} (h : s.SearchSound) (hld : t.ld = s.ld) (hlfd : t.lfd = s.lfd)
    (hldf : t.ldf = s.ldf) (hrom : t.rom = s.rom) (hsres : t.sres = s.sres) : t.SearchSound := by
  constructor <;> simp only [hld, hlfd, hldf, hrom, hsres]
  exacts [h.ld_range, h.lfd_range, h.exhausted_ld, h.idle_lfd, h.found_valid, h.failed_idle, h.exhausted_state,
    h.unsearched]

/-- The search state is ACTIVE or EXHAUSTED when `ldf` is set or `ld` is not 0 (R40). -/
theorem searchStateCode_ne_zero {ld : BitVec 7} {ldf : Bool} (h : ldf = false → ld ≠ 0) : searchStateCode ld ldf ≠ 0 := by
  cases ldf with
  | true => simp [searchStateCode]
  | false => simpa [searchStateCode] using h rfl

/-- The Idle defaults are sound after a failed pass (R233, R235). -/
theorem State.SearchSound.of_failed {s : State} (hsres : s.sres = .failed) (hld : s.ld = 0) (hldf : s.ldf = false)
    (hlfd : s.lfd = 0) : s.SearchSound := by
  constructor <;> simp [hsres, hld, hldf, hlfd]

/-- A found, valid ROM Code is sound when the last device is flagged exactly where `ld` is 0 (R231, R232). -/
theorem State.SearchSound.of_found {s : State} (hsres : s.sres = .found) (hrom : romValid s.rom = true) (hne : s.rom ≠ 0)
    (hld : s.ld.toNat ≤ 64) (hlfd : s.lfd.toNat ≤ 8) (hldf : s.ldf = true ↔ s.ld = 0) : s.SearchSound where
  ld_range := hld
  lfd_range := hlfd
  exhausted_ld := hldf.mp
  idle_lfd h h0 := by simp [hldf.mpr h0] at h
  found_valid _ := ⟨hrom, hne, searchStateCode_ne_zero fun h h0 => by simp [hldf.mpr h0] at h⟩
  failed_idle h := by simp [hsres] at h
  exhausted_state h := by simp [hsres] at h
  unsearched h := by simp [hsres] at h

/-- EXHAUSTED is reached by a successful search only, so the ROM buffer then holds a valid ROM Code (R232, R320). -/
theorem State.SearchSound.rom_valid_of_ldf {s : State} (h : s.SearchSound) (hldf : s.ldf = true) :
    romValid s.rom = true ∧ s.rom ≠ 0 := by
  cases hsres : s.sres with
  | none => exact absurd (h.unsearched hsres).2.1 (by simp [hldf])
  | found => exact ⟨(h.found_valid hsres).1, (h.found_valid hsres).2.1⟩
  | failed => exact absurd (h.failed_idle hsres).2 (by simp [hldf])
  | exhausted => exact (h.exhausted_state hsres).2

/-- SEARCH_NEXT in EXHAUSTED keeps the search registers sound (R238). -/
theorem State.SearchSound.setSres_exhausted {s : State} (h : s.SearchSound) (hldf : s.ldf = true) :
    (s.setSres .exhausted).SearchSound :=
  { h with
    found_valid := fun h' => by cases h'
    failed_idle := fun h' => by cases h'
    exhausted_state := fun _ => ⟨hldf, h.rom_valid_of_ldf hldf⟩
    unsearched := fun h' => by cases h' }

/-! ## A search pass -/

theorem crcT_eq_zero {i : Byte} (h : crcT i = 0) : i = 0 := by
  revert i
  decide

/-- The checksum over all eight bytes is 0 only for a valid ROM Code (R207, R231). -/
theorem romValid_of_crc8_eq_zero {r : Rom} (h : crc8 ((romBytes r).take 8) = 0) : romValid r = true := by
  rw [crc8_take_succ r (by omega), crcStep] at h
  simpa [romValid, BitVec.xor_eq_zero_iff] using crcT_eq_zero h

theorem lastZeroFrom_one_le (ts : List Resolved) : lastZeroFrom 1 ts 0 ≤ ts.length := by
  rcases lastZeroFrom_cases ts 1 0 with ⟨h, -⟩ | ⟨k, hk, h, -⟩ <;> omega

theorem familyFrom_le {f : BitVec 7} (hf : f.toNat ≤ 8) (p : Nat) (ts : List Resolved) :
    (familyFrom p ts f).toNat ≤ 8 := by
  rcases familyFrom_cases ts p f with ⟨h, -⟩ | ⟨k, -, hk, h, -⟩
  · rwa [h]
  · rw [h, BitVec.toNat_ofNat]
    omega

theorem ofNat_seven_eq_zero_iff {z : Nat} (h : z ≤ 64) : BitVec.ofNat 7 z = 0 ↔ z = 0 := by
  rw [← BitVec.toNat_inj, BitVec.toNat_ofNat, Nat.mod_eq_of_lt (by omega)]
  rfl

/-- A pass whose reset slot was answered OK leaves sound search registers. -/
theorem PassResult.searchSound {s t : State} {ts : List Resolved} {noResponse : Bool} (h : PassResult s t ts noResponse)
    (hldf : s.ldf = false) (hlfd : s.lfd.toNat ≤ 8) : t.SearchSound := by
  by_cases hs : ts.length = 64 ∧ t.acc = 0 ∧ t.rom ≠ 0
  · obtain ⟨hlen, hacc, hrom⟩ := hs
    obtain ⟨hsres, hld, hldf', hlfd'⟩ := h.success ⟨hlen, hacc, hrom⟩
    have hz : lastZeroFrom 1 ts 0 ≤ 64 := hlen ▸ lastZeroFrom_one_le ts
    have hcrc : crc8 ((romBytes t.rom).take 8) = 0 := by
      rw [← hacc, h.acc_eq, hlen]
    refine .of_found hsres (romValid_of_crc8_eq_zero hcrc) hrom ?_ ?_ ?_
    · rw [hld, BitVec.toNat_ofNat]
      omega
    · rw [hlfd']
      exact familyFrom_le hlfd 1 ts
    · rw [hld, hldf', hldf, ofNat_seven_eq_zero_iff hz]
      simp
  · obtain ⟨hsres, hld, hldf', hlfd'⟩ := h.failure hs
    exact .of_failed hsres hld hldf' hlfd'

/-- A search pass leaves sound search registers, whatever the bus answers (R223, R231 to R235). -/
theorem searchPass_searchSound {s : State} (hldf : s.ldf = false) (hlfd : s.lfd.toNat ≤ 8) :
    (searchPass s).SearchSound := by
  rcases searchPass_result s with ⟨o, -, -, h⟩ | ⟨-, ts, noResponse, h⟩
  · rw [h]
    exact .of_failed rfl rfl rfl rfl
  · exact h.searchSound hldf hlfd

/-! ## Commands -/

/-- A command that is no search leaves the search registers alone (R57). -/
theorem exec_keeps_search_registers {i : Instr} {s t : State} (h : exec i s = .next t) (hfirst : i ≠ .searchFirst)
    (hnext : i ≠ .searchNext) :
    t.ld = s.ld ∧ t.lfd = s.lfd ∧ t.ldf = s.ldf ∧ t.rom = s.rom ∧ t.sres = s.sres := by
  cases i with
  | owReset | owWriteBit | owReadBit | crcClear | crcStep =>
    obtain rfl := Host.Outcome.next.inj h
    exact ⟨rfl, rfl, rfl, rfl, rfl⟩
  | owWriteByte arg =>
    obtain rfl := Host.Outcome.next.inj h
    simp [writeByteSlots_eq, State.slots_eq]
  | owReadByte =>
    obtain rfl := Host.Outcome.next.inj h
    simp [readByteSlots, readSlots_snd, State.slots_eq]
  | searchFirst => exact absurd rfl hfirst
  | searchNext => exact absurd rfl hnext

/-- Every command keeps the search registers sound. -/
theorem exec_keeps_searchSound {i : Instr} {s t : State} (h : exec i s = .next t) (hs : s.SearchSound) :
    t.SearchSound := by
  by_cases hfirst : i = .searchFirst
  · subst hfirst
    obtain rfl := Host.Outcome.next.inj h
    exact searchPass_searchSound rfl (by simp)
  by_cases hnext : i = .searchNext
  · subst hnext
    obtain rfl := Host.Outcome.next.inj h
    split
    next hldf => exact hs.setSres_exhausted hldf
    next hldf => exact searchPass_searchSound (by simpa using hldf) hs.lfd_range
  obtain ⟨hld, hlfd, hldf, hrom, hsres⟩ := exec_keeps_search_registers h hfirst hnext
  exact hs.congr hld hlfd hldf hrom hsres

/-- The line is released when a command has run, if it was before (R54, R160). -/
theorem ExecFrame.drive_released {s t : State} {es : List BusEvent} (h : ExecFrame s t es) (hs : s.drive = .released) :
    t.drive = .released := by
  rw [h.state_eq, State.slots_eq]
  simp [hs]

theorem ExecFrame.cmdLast {s t : State} {es : List BusEvent} (h : ExecFrame s t es) : t.cmdLast = s.cmdLast := by
  rw [h.state_eq, State.slots_eq]

theorem ExecFrame.inReset {s t : State} {es : List BusEvent} (h : ExecFrame s t es) : t.inReset = s.inReset := by
  rw [h.state_eq, State.slots_eq]

/-- Executing a command and completing it keeps the invariant (R145). -/
theorem State.Inv.exec_complete {i : Instr} {s t : State} (h : s.Inv) (hrun : s.inReset = false)
    (ht : exec i s = .next t) : t.complete.Inv := by
  obtain ⟨es, hf⟩ := exec_next ht
  have hsound := exec_keeps_searchSound ht h.searchSound
  exact
    { hsound with
      pending_iff_busy := rfl
      pending_legal := fun p hp => by cases hp
      last_legal := by simpa [hf.cmdLast] using h.last_legal
      drive_released := hf.drive_released h.drive_released
      reset_held := fun hr => by simp [hf.inReset, hrun] at hr }

/-- Only the command of a legal pending word answers a next state (R145). -/
theorem runPending_next {s t : State} (h : runPending s = .next t) :
    ∃ p i, s.pending = some p ∧ decodePending p = .ok i ∧ exec i s = .next t := by
  unfold runPending at h
  split at h
  · cases h
  next p hp =>
    split at h
    · cases h
    next i hi => exact ⟨p, i, hp, hi, h⟩

theorem completing_next {o : Host.Outcome State Fault Refusal} {t : State} (h : completing o = .next t) :
    ∃ u, o = .next u ∧ t = u.complete := by
  cases o with
  | next u => exact ⟨u, rfl, (Host.Outcome.next.inj h).symm⟩
  | fault r => cases h
  | refused r => cases h

/-- The controller's turn does nothing, or executes and completes the pending command (R145). -/
theorem controllerStep_next {s t : State} (h : controllerStep s = .next t) :
    t = s ∨ s.inReset = false ∧ ∃ p i u, s.pending = some p ∧ decodePending p = .ok i ∧ exec i s = .next u ∧
      t = u.complete := by
  unfold controllerStep at h
  split at h
  next hrun =>
    obtain ⟨u, hu, rfl⟩ := completing_next h
    obtain ⟨p, i, hp, hi, he⟩ := runPending_next hu
    simp only [Bool.and_eq_true, Bool.not_eq_true'] at hrun
    exact .inr ⟨hrun.2, p, i, u, hp, hi, he, rfl⟩
  · exact .inl (Host.Outcome.next.inj h).symm

/-! ## Reset -/

/-- The reset values meet the invariant (R58). -/
theorem State.AtReset.inv {s : State} (h : s.AtReset) : s.Inv := by
  constructor
  case reset_held => exact fun _ => h
  all_goals simp [h.busy, h.pending, h.cmdLast, h.sres, h.ld, h.lfd, h.ldf, h.rom, h.drive]

theorem assertReset_atReset (slots : Nat) (s : State) : (assertReset slots s).AtReset := by
  constructor <;> rfl

theorem State.Inv.releaseReset {s : State} (h : s.Inv) : (Machine.releaseReset s).Inv := by
  unfold Machine.releaseReset
  split
  · exact State.AtReset.inv (by constructor <;> rfl)
  · exact h

/-! ## Host accesses -/

/-- The invariant does not speak of the bus, nor of the model's own fields. -/
theorem State.Inv.with_surroundings {s : State} (h : s.Inv) (bus : Bus) (inputs : List Input) (responses : List Word)
    (draws hostClock : Nat) :
    { s with bus, inputs, responses, draws, hostClock : State }.Inv :=
  { h with reset_held := fun hr => { h.reset_held hr with } }

/-- Out of reset, the two error bits are free (R37, R38). -/
theorem State.Inv.with_flags {s : State} (h : s.Inv) (hrun : s.inReset = false) (ill ovr : Bool) :
    { s with ill, ovr : State }.Inv :=
  { h with reset_held := fun hr => by simp [hrun] at hr }

/-- A legal word is its bits 15:0 (R132, R138). -/
theorem legal_low_half {w : Word} (h : legal w = true) : (w.extractLsb' 0 16).setWidth 32 = w := by
  simp only [legal, Bool.and_eq_true, beq_iff_eq] at h
  obtain ⟨⟨hrsv1, -⟩, -⟩ := h
  have hhigh := congrArg BitVec.toNat hrsv1
  apply BitVec.eq_of_toNat_eq
  simp only [BitVec.toNat_setWidth, BitVec.extractLsb'_toNat, BitVec.toNat_ofNat, Nat.shiftRight_eq_div_pow] at hhigh ⊢
  omega

/-- An accepted word is a legal pending one (R142). -/
theorem State.Inv.accept {s : State} (h : s.Inv) (hrun : s.inReset = false) {w : Word} (hw : legal w = true) :
    (s.accept w).Inv :=
  have hlegal : legal ((w.extractLsb' 0 16).setWidth 32) = true := by rwa [legal_low_half hw]
  { h with
    pending_iff_busy := rfl
    pending_legal := fun p hp => by
      obtain rfl := Option.some.inj hp
      exact ⟨hlegal, rfl⟩
    last_legal := .inr hlegal
    reset_held := fun hr => by simp [hrun] at hr }

/-- A write to CMD keeps the invariant, whatever its outcome (R142). -/
theorem State.Inv.offerCommand {s : State} (h : s.Inv) (hrun : s.inReset = false) (w : Word) : (s.offerCommand w).Inv := by
  rcases offerCommand_cases w s with ⟨-, e⟩ | ⟨-, hw, e⟩ | ⟨-, -, e⟩ <;> rw [e]
  · exact h.with_flags hrun _ _
  · exact h.accept hrun hw
  · exact h.with_flags hrun _ _

theorem State.Inv.hostWrite {s : State} (h : s.Inv) (r : Reg) (v : Word) : (Machine.hostWrite r v s).Inv := by
  rcases hostWrite_cases r v s with e | ⟨hrun, -, e⟩ | ⟨hrun, -, e⟩ <;> rw [e]
  · exact h
  · exact h.offerCommand hrun v
  · exact h.with_flags hrun _ _

/-! ## Steps -/

theorem State.Inv.controllerStep {s t : State} (h : s.Inv) (ht : Machine.controllerStep s = .next t) : t.Inv := by
  rcases controllerStep_next ht with rfl | ⟨hrun, -, i, u, -, -, hu, rfl⟩
  · exact h
  · exact h.exec_complete hrun hu

/-- Serving any input keeps the invariant. -/
theorem State.Inv.serveInput {i : Input} {s t : State} (h : s.Inv) (ht : Machine.serveInput i s = .next t) : t.Inv := by
  cases i with
  | read addr width =>
    obtain ⟨v, rfl⟩ := serveRead_next ht
    exact h.with_surroundings _ _ _ _ _
  | write addr width v =>
    rcases serveWrite_next ht with rfl | ⟨r, rfl⟩
    · exact h
    · exact h.hostWrite r v
  | run => exact h.controllerStep ht
  | wait micros =>
    obtain rfl := Host.Outcome.next.inj ht
    exact h.with_surroundings _ _ _ _ _
  | assertReset slots =>
    obtain rfl := Host.Outcome.next.inj ht
    exact (assertReset_atReset slots s).inv
  | releaseReset =>
    obtain rfl := Host.Outcome.next.inj ht
    exact h.releaseReset
  | changeBus bus =>
    obtain rfl := Host.Outcome.next.inj ht
    exact h.with_surroundings _ _ _ _ _

/-- Settles O41: the controller's turn keeps the invariant, and so does serving any input. -/
theorem stepKeepsTheInvariant : Obligations.StepKeepsTheInvariant := by
  unfold Obligations.StepKeepsTheInvariant
  intro s t h ht
  unfold step stepOnce at ht
  split at ht
  · exact h.controllerStep ht
  · exact State.Inv.serveInput (h.with_surroundings _ _ _ _ _) ht

end Sys2Proof.Machine
end

section
/-!
The registers as the host meets them: what a served access does (R82, R83), the layout of the words read, busy or not
(R34 to R47, R56), the values after reset (R58), and which command writes which register (R57).
-/

namespace Sys2Proof.Machine

open Sys2Proof.Claims

/-! ## Serving a register access -/

theorem serveRead_register (r : Reg) (s : State) :
    serveRead (Config.owcBase + r.offset) .word s = .next (s.respond (hostRead r s)) := by
  rw [serveRead, accessTarget_register]

theorem serveWrite_register (r : Reg) (v : Word) (s : State) :
    serveWrite (Config.owcBase + r.offset) .word v s = .next (hostWrite r v s) := by
  rw [serveWrite, accessTarget_register]

/-- A register read is served in every state (R82). -/
theorem step_hostReads (r : Reg) (rest : List Input) (s : State) :
    step (hostReads r rest s) = .next ({ s with inputs := rest }.respond (hostRead r s)) :=
  serveRead_register r { s with inputs := rest }

/-- A register write is served in every state (R83). -/
theorem step_hostWrites (r : Reg) (v : Word) (rest : List Input) (s : State) :
    step (hostWrites r v rest s) = .next (hostWrite r v { s with inputs := rest }) :=
  serveWrite_register r v { s with inputs := rest }

theorem readAnswers_hostRead (r : Reg) (s : State) : ReadAnswers r s (hostRead r s) :=
  fun rest => ⟨s.draws + 1, step_hostReads r rest s⟩

/-! ## The words read -/

section
variable {s : State} (hrun : s.inReset = false)
include hrun

theorem hostRead_cmd : hostRead .cmd s = s.cmdLast.setWidth 32 := by simp [hostRead, hrun]

theorem hostRead_reserved : hostRead .reserved s = 0 := by simp [hostRead, hrun]

/-- STATUS has the layout of R35, busy or not; only the result fields are free while a command executes (R56). -/
theorem hostRead_status : ∃ sres sstate pres, hostRead .status s = packStatus sres sstate pres s.ovr s.ill s.busy ∧
    (s.busy = false → sres = s.sres.code ∧ sstate = searchStateCode s.ld s.ldf ∧ pres = s.pres.code) := by
  rcases Bool.eq_false_or_eq_true s.busy with hb | hb
  · have hword : hostRead .status s = statusBusy (Config.busyRead s.draws) s := by simp [hostRead, hrun, hb]
    exact ⟨_, _, _, hword, by simp [hb]⟩
  · have hword : hostRead .status s = statusIdle s := by simp [hostRead, hrun, hb]
    exact ⟨_, _, _, hword, fun _ => ⟨rfl, rfl, rfl⟩⟩

/-- DATA is one byte, zero-extended, busy or not (R42, R56). -/
theorem hostRead_data : ∃ b : Byte, hostRead .data s = b.setWidth 32 ∧ (s.busy = false → b = s.data) := by
  cases hb : s.busy
  · exact ⟨s.data, by simp [hostRead, hrun, hb], fun _ => rfl⟩
  · exact ⟨(Config.busyRead s.draws).extractLsb' 0 8, by simp [hostRead, hrun, hb], nofun⟩

/-- CRC is one byte, zero-extended, busy or not (R43, R56). -/
theorem hostRead_crc : ∃ b : Byte, hostRead .crc s = b.setWidth 32 ∧ (s.busy = false → b = s.acc) := by
  cases hb : s.busy
  · exact ⟨s.acc, by simp [hostRead, hrun, hb], fun _ => rfl⟩
  · exact ⟨(Config.busyRead s.draws).extractLsb' 0 8, by simp [hostRead, hrun, hb], nofun⟩

/-- SEARCH has the layout of R44, busy or not (R56). -/
theorem hostRead_search : ∃ ldf lfd ld, hostRead .search s = packSearch ldf lfd ld ∧
    (s.busy = false → ldf = s.ldf ∧ lfd = s.lfd ∧ ld = s.ld) := by
  cases hb : s.busy
  · exact ⟨s.ldf, s.lfd, s.ld, by simp [hostRead, hrun, hb], fun _ => ⟨rfl, rfl, rfl⟩⟩
  · exact ⟨(Config.busyRead s.draws).getLsbD 16, (Config.busyRead s.draws).extractLsb' 8 7,
      (Config.busyRead s.draws).extractLsb' 0 7, by simp [hostRead, hrun, hb], nofun⟩

theorem hostRead_rom0 (hidle : s.busy = false) : hostRead .rom0 s = s.rom.extractLsb' 0 32 := by
  simp [hostRead, hrun, hidle]

theorem hostRead_rom1 (hidle : s.busy = false) : hostRead .rom1 s = s.rom.extractLsb' 32 32 := by
  simp [hostRead, hrun, hidle]

end

/-- A zero-extended value has only zeros above its own width. -/
theorem extractLsb'_setWidth_eq_zero {n w start len : Nat} (v : BitVec n) (h : n ≤ start) :
    (v.setWidth w).extractLsb' start len = 0#len := by
  apply BitVec.eq_of_getLsbD_eq
  intro k hk
  simp [BitVec.getLsbD_of_ge v (start + k) (by omega)]

/-- The bytes of a byte register (R42, R43). -/
theorem byte_register_bytes (v : Byte) :
    (v.setWidth 32 : Word).extractLsb' 0 8 = v ∧ (v.setWidth 32 : Word).extractLsb' 8 8 = 0 ∧
      (v.setWidth 32 : Word).extractLsb' 16 8 = 0 ∧ (v.setWidth 32 : Word).extractLsb' 24 8 = 0 :=
  ⟨byte_register v, extractLsb'_setWidth_eq_zero v (by decide), extractLsb'_setWidth_eq_zero v (by decide),
    extractLsb'_setWidth_eq_zero v (by decide)⟩

/-- The reserved bits of a SEARCH word (R44). -/
theorem packSearch_reserved (ldf : Bool) (lfd ld : BitVec 7) :
    (packSearch ldf lfd ld).getLsbD 7 = false ∧ (packSearch ldf lfd ld).getLsbD 15 = false ∧
      (packSearch ldf lfd ld).extractLsb' 17 15 = 0 := by
  unfold packSearch
  refine ⟨?_, ?_, ?_⟩
  · simp only [BitVec.getLsbD_append]
    rfl
  · simp only [BitVec.getLsbD_append]
    rfl
  · iterate 5 rw [BitVec.extractLsb'_append_eq_of_le (by decide)]
    rfl

/-- A STATUS write is the write-1-to-clear of the two error bits (R35). -/
theorem hostWrite_status {s : State} (hrun : s.inReset = false) (v : Word) :
    hostWrite .status v s = s.clearFlags v := by
  simp [hostWrite, hrun]

theorem clearFlags_eq (v : Word) (s : State) : s.clearFlags v = { s with
    ill := if v.getLsbD 1 then false else s.ill
    ovr := if v.getLsbD 2 then false else s.ovr } := by
  unfold State.clearFlags
  cases v.getLsbD 1 <;> cases v.getLsbD 2 <;> simp

/-! ## After reset -/

theorem reset_atReset : State.reset.AtReset := by constructor <;> rfl

/-- Every register reads 0 after reset (R58). -/
theorem hostRead_reset (r : Reg) : hostRead r State.reset = 0 := by cases r <;> decide

/-! ## The statements on reads, codes and reset -/

/-- Settles O6: the layout of STATUS holds busy or not, and its write clears flags only. -/
theorem statusReadsItsFieldsAndClearsItsErrorBits : Obligations.StatusReadsItsFieldsAndClearsItsErrorBits := by
  unfold Obligations.StatusReadsItsFieldsAndClearsItsErrorBits
  refine ⟨fun s hrun => ⟨readAnswers_hostRead .status s, ?_⟩, hostRead_reset .status, fun s v rest hrun => ?_⟩
  · obtain ⟨sres, sstate, pres, hword, hidle⟩ := hostRead_status hrun
    obtain ⟨hbusy, hill, hovr, h3, hpres, h6, hsstate, h10, hsres, h14⟩ :=
      packStatus_fields sres sstate pres s.ovr s.ill s.busy
    rw [hword]
    exact ⟨hbusy, hill, hovr, h3, fun hb => hpres.trans (hidle hb).2.2, h6, fun hb => hsstate.trans (hidle hb).2.1,
      h10, fun hb => hsres.trans (hidle hb).1, h14⟩
  · rw [step_hostWrites, hostWrite_status (s := { s with inputs := rest }) hrun, clearFlags_eq]

/-- Settles O9: each idle read, byte by byte. -/
theorem idleReadsReturnTheRegisters : Obligations.IdleReadsReturnTheRegisters := by
  unfold Obligations.IdleReadsReturnTheRegisters
  intro s r rest hrun hidle hr
  refine ⟨_, hostRead r s, step_hostReads r rest s, rfl, ?_⟩
  cases r with
  | cmd =>
    rw [hostRead_cmd hrun]
    exact ⟨BitVec.extractLsb'_setWidth_of_le (by decide), BitVec.extractLsb'_setWidth_of_le (by decide),
      extractLsb'_setWidth_eq_zero _ (by decide), extractLsb'_setWidth_eq_zero _ (by decide)⟩
  | status => exact absurd rfl hr
  | data =>
    obtain ⟨b, hword, hb⟩ := hostRead_data hrun
    rw [hword, hb hidle]
    exact byte_register_bytes s.data
  | crc =>
    obtain ⟨b, hword, hb⟩ := hostRead_crc hrun
    rw [hword, hb hidle]
    exact byte_register_bytes s.acc
  | search =>
    obtain ⟨ldf, lfd, ld, hword, hfields⟩ := hostRead_search hrun
    obtain ⟨rfl, rfl, rfl⟩ := hfields hidle
    rw [hword]
    exact packSearch_bytes s.ldf s.lfd s.ld
  | rom0 =>
    rw [hostRead_rom0 hrun hidle]
    have hbyte := fun k (hk : k < 4) => (rom_registers s.rom hk).1
    exact ⟨hbyte 0 (by decide), hbyte 1 (by decide), hbyte 2 (by decide), hbyte 3 (by decide)⟩
  | rom1 =>
    rw [hostRead_rom1 hrun hidle]
    have hbyte := fun k (hk : k < 4) => (rom_registers s.rom hk).2
    exact ⟨hbyte 0 (by decide), hbyte 1 (by decide), hbyte 2 (by decide), hbyte 3 (by decide)⟩
  | reserved =>
    rw [hostRead_reserved hrun]
    exact ⟨rfl, rfl, rfl, rfl⟩

/-- Settles O10: the layouts hold while a command executes too. -/
theorem busyReadsAreExactWhereTheyMustBe : Obligations.BusyReadsAreExactWhereTheyMustBe := by
  unfold Obligations.BusyReadsAreExactWhereTheyMustBe
  intro s hrun hbusy
  obtain ⟨sres, sstate, pres, hstatus, -⟩ := hostRead_status hrun
  obtain ⟨h0, hill, hovr, h3, -, h6, -, h10, -, h14⟩ := packStatus_fields sres sstate pres s.ovr s.ill s.busy
  obtain ⟨data, hdata, -⟩ := hostRead_data hrun
  obtain ⟨crc, hcrc, -⟩ := hostRead_crc hrun
  obtain ⟨ldf, lfd, ld, hsearch, -⟩ := hostRead_search hrun
  obtain ⟨hs7, hs15, hs17⟩ := packSearch_reserved ldf lfd ld
  rw [hstatus, hdata, hcrc, hsearch]
  exact ⟨fun r => readAnswers_hostRead r s, hostRead_cmd hrun, h0.trans hbusy, hill, hovr, h3, h6, h10, h14,
    extractLsb'_setWidth_eq_zero data (by decide), extractLsb'_setWidth_eq_zero crc (by decide), hs7, hs15, hs17,
    hostRead_reserved hrun⟩

/-- Settles O7: the tables of R39 and R41, and the three cases of R40. -/
theorem resultFieldCodesAreTheSpecs : Obligations.ResultFieldCodesAreTheSpecs := by
  unfold Obligations.ResultFieldCodesAreTheSpecs
  refine ⟨rfl, rfl, rfl, rfl, rfl, rfl, rfl, rfl, fun _ => rfl, fun ld hld => ?_, rfl⟩
  simpa [searchStateCode] using hld

/-- Settles O14: the reset values, and the words read there. -/
theorem resetValuesAreTheSpecs : Obligations.ResetValuesAreTheSpecs :=
  ⟨reset_atReset, rfl, hostRead_reset⟩

/-- Settles O40: the reset values meet the invariant. -/
theorem resetStateMeetsTheInvariant : Obligations.ResetStateMeetsTheInvariant := reset_atReset.inv

/-! ## Which command writes which register -/

theorem PassResult.keeps_pres_data {s t : State} {ts : List Resolved} {noResponse : Bool}
    (h : PassResult s t ts noResponse) : t.pres = s.pres ∧ t.data = s.data := by
  rw [h.state_eq, State.slots_eq]
  exact ⟨rfl, rfl⟩

/-- A pass writes neither PRES nor DATA (R221). -/
theorem searchPass_keeps_pres_data (s : State) : (searchPass s).pres = s.pres ∧ (searchPass s).data = s.data := by
  rcases searchPass_result s with ⟨o, -, -, h⟩ | ⟨-, ts, noResponse, h⟩
  · simp [h]
  · exact h.keeps_pres_data

/-- PRES, DATA and the accumulator are written by their own commands only (R42, R43, R57, R171). -/
theorem exec_keeps_results {i : Instr} {s t : State} (h : exec i s = .next t) :
    (i ≠ .owReset → t.pres = s.pres) ∧
    (i ≠ .owReadBit → i ≠ .owReadByte → t.data = s.data) ∧
    (i ≠ .crcClear → (∀ a, i ≠ .crcStep a) → i ≠ .searchFirst → i ≠ .searchNext → t.acc = s.acc) := by
  cases i with
  | owReset | owWriteBit | owReadBit | crcClear | crcStep =>
    obtain rfl := Host.Outcome.next.inj h
    simp
  | owWriteByte arg =>
    obtain rfl := Host.Outcome.next.inj h
    simp [writeByteSlots_eq, State.slots_eq]
  | owReadByte =>
    obtain rfl := Host.Outcome.next.inj h
    simp [readByteSlots, readSlots_snd, State.slots_eq]
  | searchFirst =>
    obtain rfl := Host.Outcome.next.inj h
    simp [searchPass_keeps_pres_data]
  | searchNext =>
    obtain rfl := Host.Outcome.next.inj h
    split <;> simp [searchPass_keeps_pres_data]

/-- Settles O39: the frame of every command, and who writes each result. -/
theorem commandsWriteOnlyTheirOwnRegisters : Obligations.CommandsWriteOnlyTheirOwnRegisters := by
  unfold Obligations.CommandsWriteOnlyTheirOwnRegisters
  intro i s t h
  obtain ⟨hpres, hdata, hacc⟩ := exec_keeps_results h
  refine ⟨?_, hpres, hdata, exec_keeps_search_registers h, hacc⟩
  obtain ⟨es, hf⟩ := exec_next h
  rw [hf.state_eq, State.slots_eq]
  exact ⟨rfl, rfl, rfl, rfl, rfl, rfl, rfl, rfl, rfl, rfl⟩

end Sys2Proof.Machine
end

section
/-!
The host's accesses and the machine's steps: which accesses are served and what they leave alone (R81 to R86), that a step
only appends to the bus history (R99), and that a step from a safe state does not stop (R84, R145).
-/

namespace Sys2Proof.Machine

open Sys2Proof.Claims

/-! ## Where an access leads -/

/-- An address in the window is an offset from its base (R81). -/
theorem accessTarget_window {off : Nat} (h : off < 32) (width : AccessWidth) :
    accessTarget (Config.owcBase + off) width = targetAtOffset off width := by
  unfold accessTarget
  rw [if_pos ⟨by omega, by omega⟩, Nat.add_sub_cancel_left]

theorem accessTarget_foreign {addr : Nat} (h : addr < Config.owcBase ∨ Config.owcBase + 32 ≤ addr) (width : AccessWidth) :
    accessTarget addr width = .foreign :=
  if_neg (by omega)

/-- The two forms of an access that OWC gives no meaning (R84). -/
theorem targetAtOffset_meaningless {off : Nat} {width : AccessWidth} (h : width ≠ .word ∨ off % 4 ≠ 0) :
    ∃ why, (why = .accessNotWordWide width ∨ why = .accessMisaligned off) ∧
      targetAtOffset off width = .meaningless why := by
  unfold targetAtOffset
  by_cases hwidth : width = .word
  · exact ⟨_, .inr rfl, by rw [if_neg (not_not.mpr hwidth), if_pos (h.resolve_left (not_not.mpr hwidth))]⟩
  · exact ⟨_, .inl rfl, if_pos hwidth⟩

/-! ## Serving an access -/

/-- A served read appends one value to the host's answers: the register's, where it selects one (R82). -/
theorem serveRead_value {addr : Nat} {width : AccessWidth} {s t : State} (h : serveRead addr width s = .next t) :
    ∃ v, t = s.respond v ∧ ∀ r, accessTarget addr width = .reg r → v = hostRead r s := by
  unfold serveRead at h
  split at h
  next htarget => exact ⟨_, (Host.Outcome.next.inj h).symm, fun r hr => by simp [htarget] at hr⟩
  next => cases h
  next r' htarget =>
    refine ⟨_, (Host.Outcome.next.inj h).symm, fun r hr => ?_⟩
    rw [htarget, Target.reg.injEq] at hr
    rw [hr]

/-- An answered read moves only the index of the free values, which no idle read uses (R86; log 5). -/
theorem hostRead_respond {s : State} (hidle : s.busy = false) (v : Word) (r : Reg) :
    hostRead r (s.respond v) = hostRead r s := by
  cases hreset : s.inReset with
  | true => simp [hostRead, hreset]
  | false => cases r <;> simp [hostRead, hreset, hidle, statusIdle]

/-- Only CMD and STATUS take a write (R47, R83). -/
theorem hostWrite_readOnly {r : Reg} (hcmd : r ≠ .cmd) (hstatus : r ≠ .status) (v : Word) (s : State) :
    hostWrite r v s = s := by
  rcases hostWrite_cases r v s with e | ⟨-, e, -⟩ | ⟨-, e, -⟩
  · exact e
  · exact absurd e hcmd
  · exact absurd e hstatus

/-- A host write reaches neither the queue of inputs nor the bus history. -/
theorem hostWrite_keeps (r : Reg) (v : Word) (s : State) :
    (hostWrite r v s).inputs = s.inputs ∧ (hostWrite r v s).history = s.history := by
  rcases hostWrite_cases r v s with e | ⟨-, -, e⟩ | ⟨-, -, e⟩ <;> rw [e]
  · exact ⟨rfl, rfl⟩
  · rcases offerCommand_cases v s with ⟨-, e⟩ | ⟨-, -, e⟩ | ⟨-, -, e⟩ <;> rw [e] <;> exact ⟨rfl, rfl⟩
  · exact ⟨rfl, rfl⟩

/-- The controller has nothing to do without a command (R149). -/
theorem controllerStep_idle {s : State} (hidle : s.busy = false) : controllerStep s = .next s := by
  simp [controllerStep, hidle]

/-! ## What every step keeps -/

theorem ExecFrame.inputs {s t : State} {es : List BusEvent} (h : ExecFrame s t es) : t.inputs = s.inputs := by
  rw [h.state_eq, State.slots_eq]

/-- The controller's turn takes no input, and a command only appends to the history (R99). -/
theorem controllerStep_keeps {s t : State} (h : controllerStep s = .next t) :
    t.inputs = s.inputs ∧ s.history <+: t.history := by
  rcases controllerStep_next h with rfl | ⟨-, -, i, u, -, -, hu, rfl⟩
  · exact ⟨rfl, List.prefix_rfl⟩
  · obtain ⟨es, hf⟩ := exec_next hu
    exact ⟨hf.inputs, es, hf.history.symm⟩

/-- Serving an input puts no other in the queue, and only appends to the history: a reset too leaves what has happened on
the bus (R312). -/
theorem serveInput_keeps {i : Input} {s t : State} (h : serveInput i s = .next t) :
    t.inputs = s.inputs ∧ s.history <+: t.history := by
  cases i with
  | read addr width =>
    obtain ⟨v, rfl⟩ := serveRead_next h
    exact ⟨rfl, List.prefix_rfl⟩
  | write addr width v =>
    rcases serveWrite_next h with rfl | ⟨r, rfl⟩
    · exact ⟨rfl, List.prefix_rfl⟩
    · obtain ⟨hinputs, hhistory⟩ := hostWrite_keeps r v s
      exact ⟨hinputs, hhistory ▸ List.prefix_rfl⟩
  | run => exact controllerStep_keeps h
  | wait micros =>
    obtain rfl := Host.Outcome.next.inj h
    exact ⟨rfl, List.prefix_rfl⟩
  | assertReset slots =>
    obtain rfl := Host.Outcome.next.inj h
    exact ⟨rfl, slotsBeforeReset slots s, rfl⟩
  | releaseReset =>
    obtain rfl := Host.Outcome.next.inj h
    unfold releaseReset
    split <;> exact ⟨rfl, List.prefix_rfl⟩
  | changeBus bus =>
    obtain rfl := Host.Outcome.next.inj h
    exact ⟨rfl, List.prefix_rfl⟩

/-- A step uses up the input it serves, and only appends to the history. -/
theorem step_keeps {s t : State} (h : step s = .next t) : t.inputs = s.inputs.tail ∧ s.history <+: t.history := by
  unfold step stepOnce at h
  split at h
  next hinputs =>
    obtain ⟨htail, hhistory⟩ := controllerStep_keeps h
    exact ⟨by rw [htail, hinputs, List.tail_nil], hhistory⟩
  next i rest hinputs =>
    obtain ⟨htail, hhistory⟩ := serveInput_keeps h
    exact ⟨by rw [htail, hinputs, List.tail_cons], hhistory⟩

/-! ## No stop -/

/-- A legal word names a command (R138, R140). -/
theorem decode_of_legal {w : Word} (h : legal w = true) : ∃ i, decode w = .ok i := by
  simp only [legal, Bool.and_eq_true, Bool.or_eq_true, beq_iff_eq] at h
  obtain ⟨⟨hrsv1, hrsv0⟩, hop⟩ := h
  have hdecode : decode w = decodeOp (fieldOp w).toNat (fieldArg w) :=
    (if_neg (not_not.mpr hrsv1)).trans (if_neg (not_not.mpr hrsv0))
  rw [hdecode]
  rcases hop with ((hop | hop) | ⟨hop, harg⟩) | ⟨((((hop | hop) | hop) | hop) | hop) | hop, harg⟩ <;> rw [hop]
  · exact ⟨_, rfl⟩
  · exact ⟨_, rfl⟩
  · exact ⟨_, if_pos ((fieldArg_high w).trans harg)⟩
  all_goals exact ⟨_, if_pos harg⟩

/-- The controller's turn does not stop while the pending word is a legal one (R142, R145). -/
theorem State.Inv.controllerStep_answers {s : State} (h : s.Inv) : ∃ t, Machine.controllerStep s = .next t := by
  cases hbusy : s.busy with
  | false => exact ⟨s, controllerStep_idle hbusy⟩
  | true =>
    obtain ⟨p, hp⟩ := Option.isSome_iff_exists.mp (h.pending_iff_busy.trans hbusy)
    obtain ⟨i, hi⟩ := decode_of_legal (h.pending_legal p hp).1
    obtain ⟨t, -, ht, -⟩ := exec_frame i s
    have hrun : runPending s = .next t := by simp [runPending, hp, decodePending, hi, ht]
    cases hreset : s.inReset with
    | false => exact ⟨t.complete, by simp [Machine.controllerStep, hbusy, hreset, hrun, completing]⟩
    | true => exact ⟨s, by simp [Machine.controllerStep, hreset]⟩

/-- An acceptable input is served (R84). -/
theorem State.Inv.serveInput_answers {i : Input} {s : State} (h : s.Inv) (hi : i.acceptable = true) :
    ∃ t, Machine.serveInput i s = .next t := by
  cases i with
  | read addr width =>
    cases htarget : accessTarget addr width with
    | foreign => simp [Machine.serveInput, serveRead, htarget]
    | meaningless why => simp [Input.acceptable, htarget] at hi
    | reg r => simp [Machine.serveInput, serveRead, htarget]
  | write addr width v =>
    cases htarget : accessTarget addr width with
    | foreign => simp [Machine.serveInput, serveWrite, htarget]
    | meaningless why => simp [Input.acceptable, htarget] at hi
    | reg r => simp [Machine.serveInput, serveWrite, htarget]
  | run => exact h.controllerStep_answers
  | wait | assertReset | releaseReset | changeBus => exact ⟨_, rfl⟩

/-- A step from a safe state whose next input is acceptable does not stop. -/
theorem State.Inv.step_answers {s : State} (h : s.Inv) (hinputs : ∀ i ∈ s.inputs, i.acceptable = true) :
    ∃ t, step s = .next t := by
  unfold step stepOnce
  split
  next => exact h.controllerStep_answers
  next i rest hi =>
    exact State.Inv.serveInput_answers (h.with_surroundings _ _ _ _ _) (hinputs i (by simp [hi]))

/-! ## The statements on accesses -/

/-- Settles O11: a served read is an answer appended, and idle reads do not look at the answers. -/
theorem readsChangeNothingAndRepeat : Obligations.ReadsChangeNothingAndRepeat := by
  unfold Obligations.ReadsChangeNothingAndRepeat
  intro s t addr width rest h
  obtain ⟨v, rfl, hv⟩ := serveRead_value (s := { s with inputs := rest }) h
  exact ⟨⟨v, rfl, hv⟩, fun hidle r => hostRead_respond (s := { s with inputs := rest }) hidle v r⟩

/-- Settles O8: a write to any other register is served and changes nothing. -/
theorem readOnlyRegistersIgnoreWrites : Obligations.ReadOnlyRegistersIgnoreWrites := by
  unfold Obligations.ReadOnlyRegistersIgnoreWrites
  intro s r v rest hcmd hstatus
  rw [step_hostWrites, hostWrite_readOnly hcmd hstatus]

/-- Settles O12: the target of such an access has no meaning, for a read and a write alike. -/
theorem meaninglessAccessIsRefused : Obligations.MeaninglessAccessIsRefused := by
  unfold Obligations.MeaninglessAccessIsRefused
  intro s off width v rest hoff h
  obtain ⟨why, hwhy, htarget⟩ := targetAtOffset_meaningless h
  rw [← accessTarget_window hoff] at htarget
  refine ⟨why, hwhy, ?_, ?_⟩
  · change serveRead _ _ _ = _
    rw [serveRead, htarget]
  · change serveWrite _ _ _ _ = _
    rw [serveWrite, htarget]

/-- Settles O13: the target of such an access is foreign, which leaves OWC out of it. -/
theorem foreignAccessLeavesOwcAlone : Obligations.ForeignAccessLeavesOwcAlone := by
  unfold Obligations.ForeignAccessLeavesOwcAlone
  intro s addr width v rest h
  have htarget := accessTarget_foreign h width
  constructor
  · change serveWrite _ _ _ _ = _
    rw [serveWrite, htarget]
  · refine ⟨{ s with inputs := rest }.respond (Config.foreignRead s.draws), Config.foreignRead s.draws, ?_, rfl⟩
    change serveRead _ _ _ = _
    rw [serveRead, htarget]

/-- Settles O18: without a command the controller's turn leaves the state, and the other inputs have no other effect. -/
theorem nothingHappensWithoutACommand : Obligations.NothingHappensWithoutACommand := by
  unfold Obligations.NothingHappensWithoutACommand
  intro s rest
  refine ⟨fun hidle _ => ⟨?_, ?_⟩, fun us => rfl, fun bus => rfl, fun hrun => ?_⟩
  · exact controllerStep_idle (s := { s with inputs := rest }) hidle
  · exact controllerStep_idle (s := { s with inputs := [] }) hidle
  · have hkept : releaseReset { s with inputs := rest } = { s with inputs := rest } := by simp [releaseReset, hrun]
    exact congrArg Host.Outcome.next hkept

/-! ## The statements on runs -/

/-- Settles O21: the frame of every command. -/
theorem slotsAreAnsweredByTheBus : Obligations.SlotsAreAnsweredByTheBus := by
  unfold Obligations.SlotsAreAnsweredByTheBus
  intro i s t h
  obtain ⟨es, hf⟩ := exec_next h
  exact ⟨es, hf.history, hf.bus, hf.answered⟩

/-- Settles O43: the later history begins with the earlier one. -/
theorem historyOnlyGrows : Obligations.HistoryOnlyGrows := by
  unfold Obligations.HistoryOnlyGrows
  intro s t h
  obtain ⟨es, hes⟩ := (step_keeps h).2
  exact ⟨es, hes.symm⟩

/-- Settles O42, by induction on the number of steps: a step does not stop, keeps the invariant, and leaves acceptable
inputs to come. -/
theorem acceptableInputsNeverStopTheMachine : Obligations.AcceptableInputsNeverStopTheMachine := by
  unfold Obligations.AcceptableInputsNeverStopTheMachine
  intro n
  induction n with
  | zero => exact fun _ _ _ => trivial
  | succ n ih =>
    intro s h hinputs
    obtain ⟨t, ht⟩ := h.step_answers hinputs
    refine ⟨t, ht, ih t (stepKeepsTheInvariant s t h ht) fun i hi => hinputs i ?_⟩
    rw [(step_keeps ht).1] at hi
    exact List.mem_of_mem_tail hi

end Sys2Proof.Machine
end

section
/-!
The reference slave set on a line: what several devices answer together (R104 to R107), and what the commands report of an
empty bus and of a stuck-low line (R102, R109).
-/

namespace Sys2Proof.Machine

/-! ## What the devices answer together -/

/-- The wired-AND of the devices in one phase, where the others take no part: the bit read is 1 exactly when each of them
sends 1 (R93, R106, R107). -/
theorem readAnswer_eq_true {devices : List Device} {q : Phase} {bit : Device → Bool} (h : List BusEvent)
    (hphase : ∀ d ∈ devices, d.phase = q ∨ d.phase = .ignoring)
    (hpull : ∀ d : Device, d.phase = q → d.pull = some (!bit d)) :
    (Bus.reference devices false).readAnswer h = true ↔ ∀ d ∈ devices, d.phase = q → bit d = true := by
  have hignoring : ∀ d : Device, d.phase = .ignoring → d.pull = some false := fun d hd => by simp [Device.pull, hd]
  have hanswered : ∀ d ∈ devices, d.pull ≠ none := fun d hd => by
    rcases hphase d hd with hq | hi
    · simp [hpull d hq]
    · simp [hignoring d hi]
  refine (sampleDevices_eq_true hanswered).trans (forall₂_congr fun d hd => ?_)
  by_cases hq : d.phase = q
  · simp [hpull d hq, hq]
  · simp [hignoring d ((hphase d hd).resolve_left hq), hq]

/-- The first read of a search position: a participant sends its bit (R104). -/
theorem Device.pull_search_first {d : Device} {p : Nat} (h : d.phase = .search p 0) :
    d.pull = some (!romBit d.romCode p) := by
  simp [Device.pull, h]

/-- The second read of a search position: a participant sends the complement of its bit (R104). -/
theorem Device.pull_search_second {d : Device} {p : Nat} (h : d.phase = .search p 1) :
    d.pull = some (romBit d.romCode p) := by
  simp [Device.pull, h]

/-- A sender sends the next bit of its scratchpad (R105). -/
theorem Device.pull_sending {d : Device} {n : Nat} (hn : n < 16) (h : d.phase = .sending n) :
    d.pull = some (!d.scratchpad.getLsbD n) := by
  simp [Device.pull, h, hn]

/-! ## One position of a search -/

/-- The first read moves the participants to the second, and no other device (R104). -/
theorem Device.after_search_first {d : Device} {p : Nat} (b : Bool)
    (h : d.phase = .search p 0 ∨ d.phase = .ignoring) :
    ((d.after (.r b)).phase = .search p 1 ∨ (d.after (.r b)).phase = .ignoring) ∧
      ((d.after (.r b)).phase = .search p 1 ↔ d.phase = .search p 0) := by
  rcases h with h | h <;> simp [Device.after, Device.afterRead, h]

/-- The three slots of a position: a device that took part and had the bit written goes on to the next position, up to 64,
and any other takes no part (R104). -/
theorem Device.after_search_position {d : Device} {p : Nat} (id cmp dir : Bool)
    (h : d.phase = .search p 0 ∨ d.phase = .ignoring) :
    ((d.after (.r id)).after (.r cmp)).after (.w dir) =
      if d.phase = .search p 0 ∧ romBit d.romCode p = dir ∧ p < 64 then { d with phase := .search (p + 1) 0 }
      else { d with phase := .ignoring } := by
  rcases h with h | h
  · by_cases hbit : romBit d.romCode p = dir
    · by_cases hp : p < 64 <;> simp [Device.after, Device.afterRead, Device.afterWrite, h, hbit, hp]
    · simp [Device.after, Device.afterRead, Device.afterWrite, h, hbit]
  · have hsame : { d with phase := .ignoring } = d := by rw [← h]
    simp [Device.after, Device.afterRead, Device.afterWrite, h, hsame]

/-! ## A reset slot that is not answered OK -/

/-- SEARCH_FIRST ends after such a reset slot, in IDLE, and leaves PRES alone (R171, R222, R224). -/
theorem exec_searchFirst_of_reset_failed {s : State} {o : ResetOutcome} (ho : s.bus.resetAnswer s.history = o)
    (hne : o ≠ .ok) :
    ∃ u, exec .searchFirst s = .next u ∧ u.sres = .failed ∧ searchStateCode u.ld u.ldf = 0 ∧ u.pres = s.pres ∧
      u.history = s.history ++ [.rst o] := by
  refine ⟨searchPass (s.clearSearch.setRom 0), rfl, ?_⟩
  rcases searchPass_result (s.clearSearch.setRom 0) with ⟨o', -, ho', hpass⟩ | ⟨hok, -⟩
  · obtain rfl : o' = o := ho'.symm.trans ho
    rw [hpass]
    simp [searchStateCode]
  · exact absurd (ho.symm.trans hok) hne

/-- OW_RESET records the outcome of its slot (R170). -/
theorem exec_owReset_pres {s : State} {o : ResetOutcome} (ho : s.bus.resetAnswer s.history = o) :
    ∃ t, exec .owReset s = .next t ∧ t.pres = Pres.ofOutcome o :=
  ⟨_, rfl, congrArg Pres.ofOutcome ho⟩

/-- Every read slot on a stuck-low line samples 0 (R109). -/
theorem readSlots_stuckLow (n : Nat) {s : State} {devices : List Device} (h : s.bus = .reference devices true) :
    (readSlots n s).1 = List.replicate n false := by
  induction n generalizing s devices with
  | zero => rfl
  | succ n ih =>
    have hfirst : (busReadSlot s).1 = false := by simp [h, Bus.readAnswer]
    have hbus : (busReadSlot s).2.bus = .reference (devices.map (Device.after (.r (busReadSlot s).1))) true := by simp [h]
    rw [readSlots, List.replicate_succ, hfirst, ih hbus]

/-! ## The statements on the reference slave set -/

/-- Settles O44: the pair is two wired-ANDs over the participants, and the three slots act on each device by itself. -/
theorem searchPairFollowsTheParticipants : Obligations.SearchPairFollowsTheParticipants := by
  unfold Obligations.SearchPairFollowsTheParticipants
  intro devices h p dir _ _ hphase bus id cmp
  refine ⟨readAnswer_eq_true h hphase fun d => Device.pull_search_first, ?_, ?_⟩
  · have hphase' : ∀ d ∈ devices.map (Device.after (.r id)), d.phase = .search p 1 ∨ d.phase = .ignoring :=
      List.forall_mem_map.mpr fun d hd => (Device.after_search_first id (hphase d hd)).1
    have hpull : ∀ d : Device, d.phase = .search p 1 → d.pull = some (!!romBit d.romCode p) := fun d hd => by
      rw [Device.pull_search_second hd, Bool.not_not]
    refine (readAnswer_eq_true _ hphase' hpull).trans (List.forall_mem_map.trans ?_)
    refine forall₂_congr fun d hd => ?_
    rw [(Device.after_search_first id (hphase d hd)).2, Device.after_romCode, Bool.not_eq_true']
  · rw [Bus.afterAll_reference_eq]
    exact congrArg (Bus.reference · false)
      (List.map_congr_left fun d hd => Device.after_search_position id cmp dir (hphase d hd))

/-- Settles O45: the wired-AND over the senders. -/
theorem severalSendersAreAnded : Obligations.SeveralSendersAreAnded := by
  unfold Obligations.SeveralSendersAreAnded
  intro devices h n hn hphase
  rw [Bool.eq_iff_iff, readAnswer_eq_true h hphase fun d => Device.pull_sending hn, List.all_eq_true]
  refine forall₂_congr fun d _ => ?_
  by_cases hsending : d.phase = .sending n <;> simp [hsending]

/-- Settles O46: neither line answers a reset slot OK, and the stuck one answers 0 to every read. -/
theorem emptyAndStuckLowBusesAreReported : Obligations.EmptyAndStuckLowBusesAreReported := by
  unfold Obligations.EmptyAndStuckLowBusesAreReported
  intro s devices
  constructor
  · intro hbus
    have ho : s.bus.resetAnswer s.history = .noPresence := by rw [hbus]; rfl
    obtain ⟨t, ht, hpres⟩ := exec_owReset_pres ho
    obtain ⟨u, hu⟩ := exec_searchFirst_of_reset_failed ho (by decide)
    exact ⟨t, u, ht, hpres, hu⟩
  · intro hbus
    have ho : s.bus.resetAnswer s.history = .releaseFailure := by rw [hbus]; rfl
    obtain ⟨t, ht, hpres⟩ := exec_owReset_pres ho
    obtain ⟨u, hu, hsres, hidle, hkept, hhistory⟩ := exec_searchFirst_of_reset_failed ho (by decide)
    have hdata : (readByteSlots s).1 = 0 := by rw [readByteSlots, readSlots_stuckLow 8 hbus]; rfl
    exact ⟨t, u, _, ht, hpres, hu, hsres, hidle, hkept, hhistory, rfl, hdata⟩

end Sys2Proof.Machine
end

section
/-!
The command word (30_encoding.md): decoding undoes encoding (R140, R141), the illegal words raise Illegal (R138), and the
match and mask table names the decoded command (R136).
-/

namespace Sys2Proof

/-! ## Decoding an assembled word -/

/-- Words are equal when their four fields are (R131 to R133). -/
theorem word_eq_iff_fields {v w : Word} :
    v = w ↔ fieldRsv1 v = fieldRsv1 w ∧ fieldArg v = fieldArg w ∧ fieldRsv0 v = fieldRsv0 w ∧ fieldOp v = fieldOp w := by
  refine ⟨fun h => h ▸ ⟨rfl, rfl, rfl, rfl⟩, fun ⟨hrsv1, harg, hrsv0, hop⟩ => ?_⟩
  rw [word_eq_fields v, word_eq_fields w, hrsv1, harg, hrsv0, hop]

/-- With the reserved fields 0, OP and ARG decide (R132, R140). -/
theorem decode_of_reserved_zero {w : Word} (hrsv1 : fieldRsv1 w = 0) (hrsv0 : fieldRsv0 w = 0) :
    decode w = decodeOp (fieldOp w).toNat (fieldArg w) := by
  simp [decode, hrsv1, hrsv0]

/-- A well-formed command's own OP and ARG pass its operand rule (R133). -/
theorem decodeOp_of_wellFormed {i : Instr} (h : i.wellFormed = true) : decodeOp i.op.toNat i.arg = .ok i := by
  cases i with
  | owWriteBit arg => exact if_pos (beq_iff_eq.mp h)
  | owReset | owReadBit | owWriteByte | owReadByte | crcClear | crcStep | searchFirst | searchNext => rfl

theorem decode_encode {i : Instr} (h : i.wellFormed = true) : decode (encode i) = .ok i := by
  obtain ⟨hrsv1, harg, hrsv0, hop⟩ := encode_fields i
  rw [decode_of_reserved_zero hrsv1 hrsv0, hop, harg, decodeOp_of_wellFormed h]

theorem encode_of_decode {w : Word} {i : Instr} (h : decode w = .ok i) : encode i = w := by
  obtain ⟨hrsv1, hrsv0, harg, hop, -⟩ := decode_ok h
  obtain ⟨hrsv1', harg', hrsv0', hop'⟩ := encode_fields i
  exact word_eq_iff_fields.mpr
    ⟨hrsv1'.trans hrsv1.symm, harg'.trans harg.symm, hrsv0'.trans hrsv0.symm, hop'.trans hop.symm⟩

/-- Settles O1: a word that decodes has its command's fields, and an assembled word passes its command's operand rule. -/
theorem decodeAgreesWithEncode : Obligations.DecodeAgreesWithEncode := by
  unfold Obligations.DecodeAgreesWithEncode
  intro w i
  constructor
  · intro h
    obtain ⟨-, -, -, -, hwf⟩ := decode_ok h
    exact ⟨hwf, encode_of_decode h⟩
  · rintro ⟨hwf, rfl⟩
    exact decode_encode hwf

/-! ## The match and mask table -/

/-- A row of R136 by fields: the reserved fields and OP are compared whole, and ARG must be 0 in the bits of `argMask`. -/
def commandRow (mnemonic : String) (op : BitVec 4) (argMask : Byte) : OpcodeRow where
  mnemonic := mnemonic
  matchWord := 0#16 ++ 0#8 ++ 0#4 ++ op
  mask := BitVec.allOnes 16 ++ argMask ++ BitVec.allOnes 4 ++ BitVec.allOnes 4

/-- The nine rows of R136 have that form. -/
theorem opcodeTable_eq_commandRows : opcodeTable =
    [commandRow "OW_RESET" 1 0xFF, commandRow "OW_WRITE_BIT" 2 0xFE, commandRow "OW_READ_BIT" 3 0xFF,
     commandRow "OW_WRITE_BYTE" 4 0x00, commandRow "OW_READ_BYTE" 5 0xFF, commandRow "CRC_CLEAR" 6 0xFF,
     commandRow "CRC_STEP" 7 0x00, commandRow "SEARCH_FIRST" 8 0xFF, commandRow "SEARCH_NEXT" 9 0xFF] := rfl

/-- The fields of a masked word. -/
theorem fields_and (v w : Word) :
    fieldRsv1 (v &&& w) = fieldRsv1 v &&& fieldRsv1 w ∧ fieldArg (v &&& w) = fieldArg v &&& fieldArg w ∧
      fieldRsv0 (v &&& w) = fieldRsv0 v &&& fieldRsv0 w ∧ fieldOp (v &&& w) = fieldOp v &&& fieldOp w :=
  ⟨BitVec.extractLsb'_and, BitVec.extractLsb'_and, BitVec.extractLsb'_and, BitVec.extractLsb'_and⟩

theorem commandRow_selects (mnemonic : String) (op : BitVec 4) (argMask : Byte) (w : Word) :
    (commandRow mnemonic op argMask).selects w = true ↔
      fieldRsv1 w = 0 ∧ fieldArg w &&& argMask = 0 ∧ fieldRsv0 w = 0 ∧ fieldOp w = op := by
  obtain ⟨hrsv1, harg, hrsv0, hop⟩ := fields_and w (commandRow mnemonic op argMask).mask
  obtain ⟨mrsv1, marg, mrsv0, mop⟩ := fields_append (BitVec.allOnes 16) argMask (BitVec.allOnes 4) (BitVec.allOnes 4)
  obtain ⟨vrsv1, varg, vrsv0, vop⟩ := fields_append 0#16 0#8 0#4 op
  rw [OpcodeRow.selects, beq_iff_eq, word_eq_iff_fields, hrsv1, harg, hrsv0, hop]
  simp only [commandRow, mrsv1, marg, mrsv0, mop, vrsv1, varg, vrsv0, vop, BitVec.and_allOnes]
  rfl

/-- The mask of OW_WRITE_BIT's row covers `arg[7:1]` (R133, R136). -/
theorem and_fe_eq_zero_iff : ∀ arg : Byte, arg &&& 0xFE = 0 ↔ arg.extractLsb' 1 7 = 0 := by decide

/-- A row of a command without an operand covers the whole of ARG (R133, R136). -/
theorem and_ff_eq_zero_iff (arg : Byte) : arg &&& 0xFF = 0 ↔ arg = 0 := by
  rw [show (0xFF : Byte) = BitVec.allOnes 8 from rfl, BitVec.and_allOnes]

/-- With the reserved fields 0, a row looks at OP and at its bits of ARG. -/
theorem commandRow_selects_of_reserved_zero (mnemonic : String) (op : BitVec 4) (argMask : Byte) {w : Word}
    (hrsv1 : fieldRsv1 w = 0) (hrsv0 : fieldRsv0 w = 0) :
    (commandRow mnemonic op argMask).selects w = decide (fieldOp w = op ∧ fieldArg w &&& argMask = 0) := by
  rw [Bool.eq_iff_iff, commandRow_selects, decide_eq_true_iff]
  simp [hrsv1, hrsv0, and_comm]

/-- With the reserved fields 0, the row of OP selects exactly the ARG its command's operand rule accepts. -/
theorem selected_of_reserved_zero {w : Word} (hrsv1 : fieldRsv1 w = 0) (hrsv0 : fieldRsv0 w = 0) :
    (opcodeTable.filter (·.selects w)).map (·.mnemonic) =
      match decode w with
      | .ok i => [i.mnemonic]
      | .error _ => [] := by
  rw [decode_of_reserved_zero hrsv1 hrsv0]
  simp only [opcodeTable_eq_commandRows, List.filter_cons, List.filter_nil, and_ff_eq_zero_iff, and_fe_eq_zero_iff,
    commandRow_selects_of_reserved_zero _ _ _ hrsv1 hrsv0]
  generalize fieldOp w = op
  generalize fieldArg w = arg
  obtain ⟨n, hn⟩ := op
  match n, hn with
  | 1, _ | 3, _ | 5, _ | 6, _ | 8, _ | 9, _ =>
    by_cases harg : arg = 0#8 <;> simp [harg, commandRow, decodeOp, noOperand, Instr.mnemonic]
  | 2, _ =>
    by_cases harg : arg.extractLsb' 1 7 = 0#7 <;> simp [harg, commandRow, decodeOp, bitOperand, Instr.mnemonic]
  | 4, _ | 7, _ => simp [commandRow, decodeOp, Instr.mnemonic]
  | 0, _ | 10, _ | 11, _ | 12, _ | 13, _ | 14, _ | 15, _ => rfl
  | _ + 16, hn => omega

/-- No row selects a word with a reserved bit set (R132, R136). -/
theorem selected_of_reserved_nonzero {w : Word} (h : ¬(fieldRsv1 w = 0 ∧ fieldRsv0 w = 0)) :
    opcodeTable.filter (·.selects w) = [] := by
  have hrow : ∀ mnemonic op argMask, ¬(commandRow mnemonic op argMask).selects w = true := by
    intro mnemonic op argMask hselects
    obtain ⟨hrsv1, -, hrsv0, -⟩ := (commandRow_selects mnemonic op argMask w).mp hselects
    exact h ⟨hrsv1, hrsv0⟩
  simp [opcodeTable_eq_commandRows, hrow]

/-- Settles O3: a word with a reserved bit set selects no row and decodes to nothing; any other is decided by OP and ARG. -/
theorem tableRowsSelectTheDecodedCommand : Obligations.TableRowsSelectTheDecodedCommand := by
  unfold Obligations.TableRowsSelectTheDecodedCommand
  intro w
  by_cases h : fieldRsv1 w = 0 ∧ fieldRsv0 w = 0
  · exact selected_of_reserved_zero h.1 h.2
  · rw [selected_of_reserved_nonzero h]
    cases hdecode : decode w with
    | error why => rfl
    | ok i =>
      obtain ⟨hrsv1, hrsv0, -⟩ := decode_ok hdecode
      exact absurd ⟨hrsv1, hrsv0⟩ h

/-! ## The examples of the specification -/

theorem namesCommand_of_decode {w : Word} {i : Instr} (h : decode w = .ok i) : Claims.NamesCommand w i :=
  ⟨decode_legal h, encode_of_decode h, h⟩

theorem namesNothing_of_decode {w : Word} {why : DecodeReject} (h : decode w = .error why) : Claims.NamesNothing w why := by
  refine ⟨Bool.eq_false_iff.mpr fun hlegal => ?_, h⟩
  obtain ⟨i, hi⟩ := Machine.decode_of_legal hlegal
  rw [h] at hi
  cases hi

/-- Settles O4: the decoder computes each example, and its answer gives legality and the assembled word. -/
theorem specEncodingExamplesDecode : Obligations.SpecEncodingExamplesDecode :=
  ⟨namesCommand_of_decode rfl, namesCommand_of_decode rfl, namesCommand_of_decode rfl, namesCommand_of_decode rfl,
    namesCommand_of_decode rfl, namesNothing_of_decode rfl, namesNothing_of_decode rfl, namesNothing_of_decode rfl,
    namesNothing_of_decode rfl, namesNothing_of_decode rfl, namesNothing_of_decode rfl⟩

end Sys2Proof

namespace Sys2Proof.Machine

open Sys2Proof.Claims

/-! ## Acceptance of a CMD write -/

/-- Out of reset, a CMD write offers its word (R83, R142). -/
theorem hostWrite_cmd {s : State} (hrun : s.inReset = false) (w : Word) : hostWrite .cmd w s = s.offerCommand w := by
  simp [hostWrite, hrun]

/-- Settles O5: the write is served, and the word it offers is accepted or rejected. -/
theorem commandWriteIsAcceptedOrRejected : Obligations.CommandWriteIsAcceptedOrRejected := by
  unfold Obligations.CommandWriteIsAcceptedOrRejected
  intro s w rest hrun
  rw [step_hostWrites, hostWrite_cmd (s := { s with inputs := rest }) hrun]
  rfl

/-- Settles O2: legality and decoding imply each other, and an idle write of an illegal word is O5's last outcome. -/
theorem decodeAcceptsExactlyTheLegalWords : Obligations.DecodeAcceptsExactlyTheLegalWords := by
  unfold Obligations.DecodeAcceptsExactlyTheLegalWords
  intro w
  refine ⟨⟨fun ⟨_, h⟩ => decode_legal h, decode_of_legal⟩, ?_, fun s rest hrun hidle hillegal => ?_⟩
  · simp only [legal, fieldOp, Bool.and_eq_true, Bool.or_eq_true, beq_iff_eq, and_assoc, or_assoc]
    rfl
  · rw [commandWriteIsAcceptedOrRejected s w rest hrun, hidle, hillegal]
    rfl

/-! ## Execution -/

theorem completing_eq_completed (o : Host.Outcome State Fault Refusal) : completing o = completed o := by
  cases o <;> rfl

/-- The controller's turn executes and completes the decoded pending command (R145). -/
theorem controllerStep_pending {s : State} {p : Half} {i : Instr} (hbusy : s.busy = true) (hrun : s.inReset = false)
    (hpending : s.pending = some p) (hdecode : decode (p.setWidth 32) = .ok i) :
    controllerStep s = completed (exec i s) := by
  simp [controllerStep, runPending, decodePending, hbusy, hrun, hpending, hdecode, completing_eq_completed]

/-- Settles O17: both inputs lead to the controller's turn. -/
theorem stepRunsThePendingCommand : Obligations.StepRunsThePendingCommand := by
  unfold Obligations.StepRunsThePendingCommand
  intro s p i rest hbusy hrun hpending hdecode
  exact ⟨controllerStep_pending (s := { s with inputs := rest }) hbusy hrun hpending hdecode,
    controllerStep_pending (s := { s with inputs := [] }) hbusy hrun hpending hdecode⟩

/-- A legal word is placed as the idle machine accepts it, with the controller's turn next (R142; log 3). -/
theorem withFetchWord_of_legal {w : Word} (h : legal w = true) (s : State) :
    s.withFetchWord 32 w.toNat = { s.accept w with inReset := false, inputs := .run :: s.inputs } := by
  have hword : BitVec.ofNat 32 (w.toNat % 2 ^ 32) = w := by
    rw [Nat.mod_eq_of_lt w.isLt, BitVec.ofNat_toNat, BitVec.setWidth_eq]
  simp only [State.withFetchWord, loadCommand, hword, State.offerCommand, h]
  rfl

/-- Settles O19: the placed word is pending, and its step is the controller's turn of O17. -/
theorem placedWordRunsNext : Obligations.PlacedWordRunsNext := by
  unfold Obligations.PlacedWordRunsNext
  intro s w i h
  have hpending : decode ((w.extractLsb' 0 16).setWidth 32) = .ok i := by rwa [decode_low_half h]
  rw [withFetchWord_of_legal (decode_legal h)]
  exact (stepRunsThePendingCommand { s.accept w with inReset := false } _ i s.inputs rfl rfl rfl hpending).1

/-- Settles O20: every command has a frame, whose state it answers. -/
theorem everyCommandCompletes : Obligations.EveryCommandCompletes := by
  unfold Obligations.EveryCommandCompletes
  intro i s
  obtain ⟨t, -, ht, -⟩ := exec_frame i s
  exact ⟨t, ht⟩

end Sys2Proof.Machine
end

section
/-!
The slot procedures on the line (R160 to R164): how long each slot lasts, what OWC drives in it, and which samples decide
the outcome of a reset slot.
-/

namespace Sys2Proof.Machine

open Sys2Proof.Claims

/-! ## The clock of a slot -/

@[simp] theorem SlotClock.start_time : SlotClock.start.time = 0 := rfl
@[simp] theorem SlotClock.start_trace : SlotClock.start.trace = [] := rfl
@[simp] theorem SlotClock.set_time (d : Drive) (c : SlotClock) : (c.set d).time = c.time := rfl
@[simp] theorem SlotClock.set_drive (d : Drive) (c : SlotClock) : (c.set d).drive = d := rfl
@[simp] theorem SlotClock.set_trace (d : Drive) (c : SlotClock) : (c.set d).trace = c.trace := rfl
@[simp] theorem SlotClock.wait_time (us : Nat) (c : SlotClock) : (c.wait us).time = c.time + us := rfl
@[simp] theorem SlotClock.wait_drive (us : Nat) (c : SlotClock) : (c.wait us).drive = c.drive := rfl
@[simp] theorem SlotClock.wait_trace (us : Nat) (c : SlotClock) :
    (c.wait us).trace = c.trace ++ [⟨c.drive, us⟩] := rfl

/-- On a released line the sample is 1 exactly when no slave pulls (R93). -/
theorem SlotClock.sample_released {c : SlotClock} (h : c.drive = .released) (pulls : Nat → Bool) :
    c.sample pulls = !pulls c.time := by
  simp [SlotClock.sample, lineLevel, h]

/-- A bit 1 is written by releasing the line, a bit 0 by holding it low (R97). -/
theorem pinDrive_output (b : Bool) : pinDrive true b = if b then .released else .low := by
  cases b <;> rfl

/-! ## The reset slot -/

/-- OWC's clock when the reset pulse is over and the first loop of R161 begins. -/
def pollStart (t : Timing) : SlotClock := ((SlotClock.start.set .low).wait t.tRstl).set .released |>.wait t.tRel

/-- The first loop of R161: it waits for the presence pulse. -/
def presenceLoop (t : Timing) (pulls : Nat → Bool) : Bool × SlotClock :=
  pollWhile t pulls true t.tPdwait (t.tPdwait + 1) 0 (pollStart t)

/-- The second loop of R161: it waits for the release, from where the first has stopped. -/
def releaseLoop (t : Timing) (pulls : Nat → Bool) : Bool × SlotClock :=
  pollWhile t pulls false t.tPdrel (t.tPdrel + 1) 0 (presenceLoop t pulls).2

/-- A reset slot is its two loops, the second one only after a presence pulse (R161). -/
theorem lineReset_eq (t : Timing) (pulls : Nat → Bool) : lineReset t pulls =
    if (presenceLoop t pulls).1 then
      (if (releaseLoop t pulls).1 then .ok else .releaseFailure, (releaseLoop t pulls).2)
    else (.noPresence, (presenceLoop t pulls).2) := by
  simp only [lineReset, releaseLoop, presenceLoop, pollStart]
  split
  next c hpresence => simp [hpresence]
  next c hpresence =>
    simp only [hpresence]
    split
    next c' hrelease => simp [hrelease]
    next c' hrelease => simp [hrelease]

section

variable (t : Timing) (pulls : Nat → Bool)

@[simp] theorem pollStart_time : (pollStart t).time = t.tRstl + t.tRel := by simp [pollStart]

@[simp] theorem pollStart_drive : (pollStart t).drive = .released := rfl

theorem presenceLoop_time : (presenceLoop t pulls).2.time ≤ t.tRstl + t.tRel + (t.tPdwait + t.tPoll) := by
  simpa [presenceLoop] using (pollWhile_time pulls true t.tPdwait (t.tPdwait + 1) 0 (pollStart t) (Nat.zero_le _)).1

theorem presenceLoop_drive : (presenceLoop t pulls).2.drive = .released :=
  (pollWhile_time pulls true t.tPdwait (t.tPdwait + 1) 0 (pollStart t) (Nat.zero_le _)).2

theorem releaseLoop_time : (releaseLoop t pulls).2.time ≤ (presenceLoop t pulls).2.time + (t.tPdrel + t.tPoll) :=
  (pollWhile_time pulls false t.tPdrel (t.tPdrel + 1) 0 (presenceLoop t pulls).2 (Nat.zero_le _)).1

theorem releaseLoop_drive : (releaseLoop t pulls).2.drive = .released :=
  (pollWhile_time pulls false t.tPdrel (t.tPdrel + 1) 0 (presenceLoop t pulls).2 (Nat.zero_le _)).2.trans
    (presenceLoop_drive t pulls)

end

/-! ## Which samples decide -/

/-- A loop takes its samples in order (R161). -/
theorem polled_of_le {t : Timing} {bound j k : Nat} (hk : Polled t bound k) (hjk : j ≤ k) : Polled t bound j := by
  rcases hk with rfl | hk
  · exact .inl (Nat.le_zero.mp hjk)
  · exact .inr (Nat.lt_of_le_of_lt (Nat.mul_le_mul_right _ (Nat.sub_le_sub_right hjk 1)) hk)

section

variable {t : Timing} {pulls : Nat → Bool} (h0 : 0 < t.tPoll)
include h0

/-- A loop gives up on a line that keeps its level at every sample it takes (R161). -/
theorem loop_gives_up {level : Bool} {bound : Nat} {c : SlotClock} (hd : c.drive = .released)
    (hkept : ∀ k, Polled t bound k → pulls (c.time + k * t.tPoll) = !level) :
    (pollWhile t pulls level bound (bound + 1) 0 c).1 = false :=
  pollWhile_gives_up h0 hd (Nat.succ_pos bound) (by omega) fun k hk => hkept k (by simpa [Polled] using hk)

/-- A loop ends at the first sample at which the line has left its level (R161). -/
theorem loop_sees {level : Bool} {bound k : Nat} {c : SlotClock} (hd : c.drive = .released) (hk : Polled t bound k)
    (hleft : pulls (c.time + k * t.tPoll) = level) (hkept : ∀ j, j < k → pulls (c.time + j * t.tPoll) = !level) :
    (pollWhile t pulls level bound (bound + 1) 0 c).1 = true ∧
      (pollWhile t pulls level bound (bound + 1) 0 c).2.time = c.time + k * t.tPoll := by
  have hk' : k = 0 ∨ 0 + (k - 1) * t.tPoll < bound := by simpa [Polled] using hk
  obtain ⟨hseen, htime, -⟩ := pollWhile_sees h0 hd (Nat.succ_pos bound) (by omega) hk' hleft hkept
  exact ⟨hseen, htime⟩

/-- A line high at every sample of the first loop shows no presence. -/
theorem presenceLoop_gives_up
    (hhigh : ∀ k, Polled t t.tPdwait k → pulls (t.tRstl + t.tRel + k * t.tPoll) = false) :
    (presenceLoop t pulls).1 = false := by
  rw [← pollStart_time] at hhigh
  exact loop_gives_up h0 (pollStart_drive t) hhigh

/-- The first low sample is the presence, and ends the first loop. -/
theorem presenceLoop_sees {k : Nat} (hk : Polled t t.tPdwait k)
    (hlow : pulls (t.tRstl + t.tRel + k * t.tPoll) = true)
    (hhigh : ∀ j, j < k → pulls (t.tRstl + t.tRel + j * t.tPoll) = false) :
    (presenceLoop t pulls).1 = true ∧ (presenceLoop t pulls).2.time = t.tRstl + t.tRel + k * t.tPoll := by
  rw [← pollStart_time] at hlow hhigh ⊢
  exact loop_sees h0 (pollStart_drive t) hk hlow hhigh

/-- A line low at every sample of the second loop is not released. -/
theorem releaseLoop_gives_up
    (hlow : ∀ m, Polled t t.tPdrel m → pulls ((presenceLoop t pulls).2.time + m * t.tPoll) = true) :
    (releaseLoop t pulls).1 = false :=
  loop_gives_up h0 (presenceLoop_drive t pulls) hlow

/-- Any high sample of the second loop is the release: the first one ends the loop. -/
theorem releaseLoop_sees {m : Nat} (hm : Polled t t.tPdrel m)
    (hhigh : pulls ((presenceLoop t pulls).2.time + m * t.tPoll) = false) : (releaseLoop t pulls).1 = true := by
  have hex : ∃ m, pulls ((presenceLoop t pulls).2.time + m * t.tPoll) = false := ⟨m, hhigh⟩
  have hfirst : Polled t t.tPdrel (Nat.find hex) := polled_of_le hm (Nat.find_min' hex hhigh)
  have hlow : ∀ j, j < Nat.find hex → pulls ((presenceLoop t pulls).2.time + j * t.tPoll) = true := fun j hj => by
    simpa using Nat.find_min hex hj
  exact (loop_sees h0 (presenceLoop_drive t pulls) hfirst (Nat.find_spec hex) hlow).1

end

/-! ## The statements on the line -/

/-- Settles O50: the first low sample ends the first loop, whose end is the start of the second. -/
theorem presencePulseDecidesTheResetOutcome : Obligations.PresencePulseDecidesTheResetOutcome := by
  unfold Obligations.PresencePulseDecidesTheResetOutcome
  intro t pulls h0 at_
  refine ⟨fun hhigh => ?_, fun k hk hlow hbefore => ?_⟩
  · simp [lineReset_eq, presenceLoop_gives_up h0 hhigh]
  · obtain ⟨hpresence, htime⟩ := presenceLoop_sees h0 hk hlow hbefore
    have hsample : ∀ m, (presenceLoop t pulls).2.time + m * t.tPoll = at_ (k + m) := fun m => by
      rw [htime, Nat.add_assoc, ← Nat.add_mul]
    refine ⟨fun ⟨m, hm, hhigh⟩ => ?_, fun hstuck => ?_⟩
    · rw [← hsample] at hhigh
      simp [lineReset_eq, hpresence, releaseLoop_sees h0 hm hhigh]
    · simp only [← hsample] at hstuck
      simp [lineReset_eq, hpresence, releaseLoop_gives_up h0 hstuck]

/-- Settles O49: each loop of a reset slot ends within one poll of its bound, and the other slots have fixed parts. -/
theorem slotsEndInBoundedTime : Obligations.SlotsEndInBoundedTime := by
  unfold Obligations.SlotsEndInBoundedTime
  refine ⟨fun t pulls _ => ?_, fun t b => ?_, fun t pulls => ?_, rfl, rfl, rfl⟩
  · have hpresence := presenceLoop_time t pulls
    have hrelease := releaseLoop_time t pulls
    rw [lineReset_eq]
    split
    · exact ⟨by dsimp only; omega, releaseLoop_drive t pulls⟩
    · exact ⟨by dsimp only; omega, presenceLoop_drive t pulls⟩
  · simp [lineWrite]
  · simp [lineRead]

/-- Settles O51: the parts of each slot, in order. -/
theorem writeAndReadSlotsKeepTheirTimeline : Obligations.WriteAndReadSlotsKeepTheirTimeline := by
  unfold Obligations.WriteAndReadSlotsKeepTheirTimeline
  refine ⟨fun t => ⟨?_, ?_⟩, fun t pulls => ⟨?_, ?_⟩⟩
  · simp [lineWrite, pinDrive_output]
  · simp [lineWrite, pinDrive_output]
  · rw [lineRead, SlotClock.sample_released rfl]
    simp
  · simp [lineRead]

end Sys2Proof.Machine
end

section
/-!
The bit and byte commands (40_bus_primitives.md R170 to R186) in every state, and how many slots each command performs
(R186, R225, R239).
-/

namespace Sys2Proof.Machine

/-! ## An empty bus -/

@[simp] theorem Bus.readAnswer_empty (h : List BusEvent) : (Bus.reference [] false).readAnswer h = true := rfl

/-- With no device on the line every read slot samples 1 (R106). -/
theorem readSlots_empty (n : Nat) {s : State} (h : s.bus = .reference [] false) :
    (readSlots n s).1 = List.replicate n true := by
  induction n generalizing s with
  | zero => rfl
  | succ n ih =>
    have hfirst : (busReadSlot s).1 = true := by simp [h]
    have hbus : (busReadSlot s).2.bus = .reference [] false := by simp [h]
    rw [readSlots, List.replicate_succ, hfirst, ih hbus]

/-! ## A byte in bus order -/

/-- Bit i of a byte read in bus order is the (i+1)-th bit read (R98, R168). -/
theorem testBit_bitsValue (bits : List Bool) (i : Nat) : (bitsValue bits).testBit i = bits.getD i false := by
  induction bits generalizing i with
  | nil => simp [bitsValue]
  | cons b bits ih =>
    have hcons : bitsValue (b :: bits) = Nat.bit b (bitsValue bits) := (Nat.bit_val b (bitsValue bits)).symm
    cases i with
    | zero => simp [hcons]
    | succ i => simp [hcons, Nat.testBit_bit_succ, ih]

theorem getLsbD_byteOfBits {bits : List Bool} (hlen : bits.length = 8) {i : Nat} (h : i < bits.length) :
    (byteOfBits bits).getLsbD i = bits[i] := by
  have hi : i < 8 := hlen ▸ h
  rw [byteOfBits, BitVec.getLsbD_ofNat, testBit_bitsValue]
  simp [hi, h]

/-! ## The command words -/

/-- The last eight bits of an assembled word are RSV0 and OP (R131, R132). -/
theorem append_low_byte (h : BitVec 16) (a : Byte) (l o : BitVec 4) : h ++ a ++ l ++ o = h ++ a ++ (l ++ o) :=
  BitVec.append_assoc

theorem encode_owWriteByte (v : Byte) : encode (.owWriteByte v) = 0x0000#16 ++ v ++ 0x04#8 :=
  append_low_byte 0#16 v 0#4 4#4

/-- An operand with `arg[7:1]` not 0 fails OW_WRITE_BIT's operand rule, so its word is not legal (R133, R138). -/
theorem legal_encode_owWriteBit {arg : Byte} (h : arg.extractLsb' 1 7 ≠ 0) : legal (encode (.owWriteBit arg)) = false := by
  refine Bool.eq_false_iff.mpr fun hlegal => ?_
  obtain ⟨i, hi⟩ := decode_of_legal hlegal
  obtain ⟨hrsv1, harg, hrsv0, hop⟩ := encode_fields (.owWriteBit arg)
  rw [decode_of_reserved_zero hrsv1 hrsv0, harg, hop] at hi
  exact h (bitOperand_ok hi).1

/-! ## What the commands do -/

/-- One or more slots: the history grows, the bus follows, the line ends released, and nothing else changes. -/
theorem State.slots_eq_of_ne_nil {es : List BusEvent} (h : es ≠ []) (s : State) :
    s.slots es = { s with history := s.history ++ es, bus := s.bus.afterAll es, drive := .released } := by
  rw [State.slots_eq, if_neg h]

/-- OW_READ_BYTE is eight read slots and their byte (R185). -/
theorem exec_owReadByte (s : State) : exec .owReadByte s =
    .next ((s.slots ((readSlots 8 s).1.map .r)).setData (byteOfBits (readSlots 8 s).1)) := by
  rw [← readSlots_snd]
  rfl

theorem exec_owWriteByte (v : Byte) (s : State) :
    exec (.owWriteByte v) s = .next (s.slots ((byteBits v).map .w)) :=
  congrArg Host.Outcome.next (writeByteSlots_eq v s)

/-- Settles O26: the eight bits are those of the read slots, and an empty bus answers each with 1. -/
theorem owReadByteAssemblesLowBitFirst : Obligations.OwReadByteAssemblesLowBitFirst := by
  unfold Obligations.OwReadByteAssemblesLowBitFirst
  refine ⟨rfl, rfl, fun s => ⟨_, (readSlots 8 s).1, readSlots_length 8 s, exec_owReadByte s, answered_reads 8 s,
    fun i h => getLsbD_byteOfBits (readSlots_length 8 s) h, fun hbus => ?_, ?_⟩⟩
  · rw [State.setData_data, readSlots_empty 8 hbus]
    rfl
  · have hne : (readSlots 8 s).1.map BusEvent.r ≠ [] := List.ne_nil_of_length_pos (by simp)
    rw [State.slots_eq_of_ne_nil hne]
    rfl

/-- Settles O22: one reset slot, whose outcome is the bus's answer. -/
theorem owResetReportsItsSlot : Obligations.OwResetReportsItsSlot := by
  unfold Obligations.OwResetReportsItsSlot
  refine ⟨rfl, rfl, fun s => ⟨rfl, fun devices hbus => ?_, fun hbus => ?_⟩⟩
  · rw [hbus]
    rfl
  · rw [hbus]
    rfl

/-- Settles O23: one write slot; an operand above one bit makes the word illegal. -/
theorem owWriteBitWritesOneSlot : Obligations.OwWriteBitWritesOneSlot := by
  unfold Obligations.OwWriteBitWritesOneSlot
  exact ⟨rfl, rfl, rfl, rfl, fun _ => legal_encode_owWriteBit, fun _ _ => rfl⟩

/-- Settles O24: one read slot, whose bit is zero-extended. -/
theorem owReadBitZeroExtendsTheSample : Obligations.OwReadBitZeroExtendsTheSample := by
  unfold Obligations.OwReadBitZeroExtendsTheSample
  refine ⟨rfl, rfl, fun s => ⟨?_, fun hbus => ?_⟩⟩
  · simp only [exec, execOwReadBit, busReadSlot_fst, busReadSlot_snd]
    cases s.bus.readAnswer s.history <;> rfl
  · rw [hbus, Bus.readAnswer_empty]

/-- Settles O25: the eight bits in bus order, each written by one slot. -/
theorem owWriteByteWritesLowBitFirst : Obligations.OwWriteByteWritesLowBitFirst := by
  unfold Obligations.OwWriteByteWritesLowBitFirst
  intro s v es
  have hbits : (byteBits v).map BusEvent.w = es := rfl
  refine ⟨encode_owWriteByte v, ?_, ?_⟩
  · rw [← encode_owWriteByte]
    exact decode_encode rfl
  · rw [exec_owWriteByte, hbits, State.slots_eq_of_ne_nil (by simp [es])]

/-! ## How many slots a command performs -/

theorem PassResult.history {s t : State} {ts : List Resolved} {noResponse : Bool} (h : PassResult s t ts noResponse) :
    t.history = s.history ++ passEvents ts noResponse := by
  rw [h.state_eq]
  simp

/-- A pass that was answered performs at most 201 slots (R225, R239). -/
theorem PassResult.history_length_le {s t : State} {ts : List Resolved} {noResponse : Bool}
    (h : PassResult s t ts noResponse) : t.history.length ≤ s.history.length + 201 := by
  rw [h.history, List.length_append, passEvents_length]
  rcases h.length_le with ⟨rfl, hlen⟩ | ⟨rfl, hlen⟩
  · simp [hlen]
  · simp
    omega

/-- A pass performs at most 201 slots (R225, R239). -/
theorem searchPass_history_length_le (s : State) : (searchPass s).history.length ≤ s.history.length + 201 := by
  rcases searchPass_result s with ⟨o, -, -, h⟩ | ⟨-, ts, noResponse, h⟩
  · simp [h]
  · exact h.history_length_le

/-- A pass reports FOUND only after all 64 positions, with a valid ROM Code that is not 0 (R231, R246). -/
theorem searchPass_found {s : State} (hfound : (searchPass s).sres = .found) :
    (searchPass s).history.length = s.history.length + 201 ∧ romValid (searchPass s).rom = true ∧
      (searchPass s).rom ≠ 0 ∧ (searchPass s).acc = 0 := by
  rcases searchPass_result s with ⟨o, -, -, h⟩ | ⟨-, ts, noResponse, h⟩
  · simp [h] at hfound
  · have hs : ts.length = 64 ∧ (searchPass s).acc = 0 ∧ (searchPass s).rom ≠ 0 := by
      by_contra hs
      simp [(h.failure hs).1] at hfound
    obtain ⟨hlen, hacc, hrom⟩ := hs
    have hcrc : crc8 ((romBytes (searchPass s).rom).take 8) = 0 := by rw [← hacc, h.acc_eq, hlen]
    refine ⟨?_, romValid_of_crc8_eq_zero hcrc, hrom, hacc⟩
    rcases h.length_le with ⟨rfl, -⟩ | ⟨-, hlt⟩
    · rw [h.history, List.length_append, passEvents_length, hlen]
      rfl
    · omega

/-- Settles O38: the slots of each command, counted; SEARCH_NEXT in EXHAUSTED performs none and finds nothing. -/
theorem slotCountsAreBoundedAndFoundRomsValid : Obligations.SlotCountsAreBoundedAndFoundRomsValid := by
  unfold Obligations.SlotCountsAreBoundedAndFoundRomsValid
  intro i s t h
  refine ⟨?_, ?_, ?_, ?_⟩
  · rintro (rfl | ⟨a, rfl⟩ | rfl) <;> obtain rfl := Host.Outcome.next.inj h <;> simp
  · rintro (⟨a, rfl⟩ | rfl)
    · rw [exec_owWriteByte] at h
      obtain rfl := Host.Outcome.next.inj h
      simp [byteBits]
    · rw [exec_owReadByte] at h
      obtain rfl := Host.Outcome.next.inj h
      simp
  · rintro (rfl | ⟨a, rfl⟩) <;> obtain rfl := Host.Outcome.next.inj h <;> rfl
  · rintro (rfl | rfl)
    · obtain rfl := Host.Outcome.next.inj h
      exact ⟨searchPass_history_length_le (s.clearSearch.setRom 0), searchPass_found⟩
    · obtain rfl := Host.Outcome.next.inj h
      split
      next hldf => simp
      next hldf => exact ⟨searchPass_history_length_le s, searchPass_found⟩

end Sys2Proof.Machine
end

section
/-!
The checksum engine (41_crc8.md): the table as the generator's values (R201), hence linear over XOR (R203); the step as
injective in each argument, hence validity as residue 0 (R208) and the detection of a change within one byte (R209); and
the two commands (R205, R206).
-/

namespace Sys2Proof.Machine

/-! ## The table and its generator -/

theorem crcTable_length : crcTable.length = 256 := by
  simp only [crcTable, List.length_append, List.length_cons, List.length_nil]

/-- The entries and the generator's values, compared one by one (R201). -/
theorem crcTable_getElem? : ∀ i : Byte, crcTable[i.toNat]? = some (tgen i) := by decide

/-- Settles O29: 256 entries, each compared with the generator. -/
theorem generatorGivesTheTable : Obligations.GeneratorGivesTheTable := by
  unfold Obligations.GeneratorGivesTheTable
  exact ⟨crcTable_length, crcTable_getElem?⟩

theorem crcT_eq_tgen (i : Byte) : crcT i = tgen i := by
  rw [crcT, List.getD_eq_getElem?_getD, crcTable_getElem? i, Option.getD_some]

/-- A turn of the generator: a shift, and the polynomial where a 1 is shifted out (R201). -/
theorem tgenStep_eq (x : Byte) : tgenStep x = (x >>> 1) ^^^ if x.getLsbD 0 then 0x8C else 0 := by
  unfold tgenStep
  split <;> simp

theorem tgenStep_xor (a b : Byte) : tgenStep (a ^^^ b) = tgenStep a ^^^ tgenStep b := by
  have hpoly : ∀ p q : Bool,
      (if p ^^ q then 0x8C else 0 : Byte) = (if p then 0x8C else 0) ^^^ if q then 0x8C else 0 := by decide
  simp only [tgenStep_eq, BitVec.getLsbD_xor, BitVec.ushiftRight_xor_distrib, hpoly]
  ac_rfl

/-- Any number of turns is linear, as one turn is. -/
theorem repeat_tgenStep_xor (n : Nat) (a b : Byte) :
    Nat.repeat tgenStep n (a ^^^ b) = Nat.repeat tgenStep n a ^^^ Nat.repeat tgenStep n b := by
  induction n with
  | zero => rfl
  | succ n ih => simp only [Nat.repeat, ih, tgenStep_xor]

theorem crcT_xor (a b : Byte) : crcT (a ^^^ b) = crcT a ^^^ crcT b := by
  simp only [crcT_eq_tgen]
  exact repeat_tgenStep_xor 8 a b

/-- A linear map that sends only 0 to 0 is injective. -/
theorem crcT_injective : Function.Injective crcT := fun a b h => by
  have h0 : crcT (a ^^^ b) = 0 := by rw [crcT_xor, h, BitVec.xor_self]; rfl
  exact BitVec.xor_eq_zero_iff.mp (crcT_eq_zero h0)

/-! ## The step and the checksum -/

/-- A step gives 0 exactly on the accumulator's own value (R203). -/
theorem crcStep_eq_zero_iff {a v : Byte} : crcStep a v = 0 ↔ v = a := by
  constructor
  · intro h
    exact (BitVec.xor_eq_zero_iff.mp (crcT_eq_zero h)).symm
  · rintro rfl
    rw [crcStep, BitVec.xor_self]
    rfl

theorem crcStep_left_inj {a b v : Byte} : crcStep a v = crcStep b v ↔ a = b := by
  rw [crcStep, crcStep, crcT_injective.eq_iff, BitVec.xor_left_inj]

theorem crcStep_right_inj {a v w : Byte} : crcStep a v = crcStep a w ↔ v = w := by
  rw [crcStep, crcStep, crcT_injective.eq_iff, BitVec.xor_right_inj]

/-- The bytes that follow keep two accumulators apart. -/
theorem foldl_crcStep_inj {a b : Byte} (bs : List Byte) : bs.foldl crcStep a = bs.foldl crcStep b ↔ a = b := by
  induction bs generalizing a b with
  | nil => rfl
  | cons v bs ih => rw [List.foldl_cons, List.foldl_cons, ih, crcStep_left_inj]

/-- A change of one byte always shows in the checksum. -/
theorem crc8_set_eq_iff {bs : List Byte} {k : Nat} (hk : k < bs.length) (v : Byte) :
    crc8 (bs.set k v) = crc8 bs ↔ v = bs[k] := by
  conv_lhs => rhs; rw [← List.set_getElem_self hk]
  simp only [crc8, List.set_eq_take_append_cons_drop, hk, if_true, List.foldl_append, List.foldl_cons,
    foldl_crcStep_inj, crcStep_right_inj]

/-- Settles O30: the table is linear as its generator is, and injective because only 0 goes to 0. -/
theorem tableIsLinearAndBijective : Obligations.TableIsLinearAndBijective := by
  unfold Obligations.TableIsLinearAndBijective
  exact ⟨rfl, Finite.injective_iff_bijective.mp crcT_injective, crcT_xor, fun _ _ => crcStep_eq_zero_iff⟩

/-! ## Validity -/

theorem romValid_iff {r : Rom} : romValid r = true ↔ crc8 ((romBytes r).take 7) = romByte r 7 := beq_iff_eq

theorem crc8_romBytes_eq_zero_iff {r : Rom} : crc8 (romBytes r) = 0 ↔ romValid r = true := by
  constructor
  · intro h
    exact romValid_of_crc8_eq_zero (by rwa [List.take_of_length_le (romBytes_length r).le])
  · exact crc8_of_valid

/-- Settles O31: the step over byte 7 gives 0 exactly when that byte is the checksum of the seven before it. -/
theorem zeroResidueIsValidity : Obligations.ZeroResidueIsValidity := by
  unfold Obligations.ZeroResidueIsValidity
  exact fun _ => ⟨romValid_iff, crc8_romBytes_eq_zero_iff⟩

/-! ## Appending the checksum, and single bit errors -/

/-- The ROM buffer with bytes 0 to 6 of `r` and byte 7 `c`, as the statement of R209 builds it. -/
def withLastByte (r : Rom) (c : Byte) : Rom := (r.extractLsb' 0 56).setWidth 64 ||| c.setWidth 64 <<< 56

theorem romBytes_take_withLastByte (r : Rom) (c : Byte) :
    (romBytes (withLastByte r c)).take 7 = (romBytes r).take 7 := by
  refine romBytes_take_congr fun p h1 h2 => ?_
  have hp : p - 1 < 56 := by omega
  simp [romBit, withLastByte, hp]
  omega

theorem romByte_withLastByte (r : Rom) (c : Byte) : romByte (withLastByte r c) 7 = c := by
  refine BitVec.eq_of_getLsbD_eq fun i hi => ?_
  have hi' : 56 + i < 64 := by omega
  simp [romByte, withLastByte, hi, hi']

theorem romValid_withLastByte (r : Rom) : romValid (withLastByte r (crc8 ((romBytes r).take 7))) = true := by
  rw [romValid_iff, romBytes_take_withLastByte, romByte_withLastByte]

/-- Bit `i` of a ROM buffer is bit `i % 8` of byte `i / 8`, and a flip of it is a flip there. -/
theorem getLsbD_romByte_flip (r : Rom) {i k j : Nat} (hi : i < 64) (hj : j < 8) :
    (romByte (r ^^^ (1#64 <<< i)) k).getLsbD j = ((romByte r k).getLsbD j ^^ decide (8 * k + j = i)) := by
  simp [romByte, hj, hi, ← BitVec.twoPow_eq, BitVec.getLsbD_twoPow, eq_comm]

theorem romByte_flip_other (r : Rom) {i k : Nat} (hi : i < 64) (hk : k ≠ i / 8) :
    romByte (r ^^^ (1#64 <<< i)) k = romByte r k := by
  refine BitVec.eq_of_getLsbD_eq fun j hj => ?_
  have hne : 8 * k + j ≠ i := by omega
  simp [getLsbD_romByte_flip r hi hj, hne]

theorem romByte_flip_ne (r : Rom) {i : Nat} (hi : i < 64) :
    romByte (r ^^^ (1#64 <<< i)) (i / 8) ≠ romByte r (i / 8) := by
  intro h
  have hbit := getLsbD_romByte_flip r (k := i / 8) hi (Nat.mod_lt i (by omega : 8 > 0))
  simp [h, Nat.div_add_mod] at hbit

/-- Two ROM buffers with at most byte `k` different. -/
theorem romBytes_eq_set {a b : Rom} {k : Nat} (h : ∀ j, j ≠ k → romByte a j = romByte b j) :
    romBytes a = (romBytes b).set k (romByte a k) := by
  refine List.ext_getElem (by simp [romBytes_length]) fun j _ _ => ?_
  rw [List.getElem_set]
  split
  next hjk => simp [romBytes, hjk]
  next hjk => simp [romBytes, h j (Ne.symm hjk)]

/-- A single bit error changes the checksum of the eight bytes (R209). -/
theorem crc8_romBytes_flip_ne (r : Rom) {i : Nat} (hi : i < 64) :
    crc8 (romBytes (r ^^^ (1#64 <<< i))) ≠ crc8 (romBytes r) := by
  have hk : i / 8 < (romBytes r).length := by
    rw [romBytes_length]
    omega
  rw [romBytes_eq_set fun _ => romByte_flip_other r hi, Ne, crc8_set_eq_iff hk]
  simpa [romBytes] using romByte_flip_ne r hi

/-- Settles O32: the appended byte is the checksum by construction; a flip changes the residue, which was 0. -/
theorem singleBitErrorsAreDetected : Obligations.SingleBitErrorsAreDetected := by
  unfold Obligations.SingleBitErrorsAreDetected
  refine ⟨romValid_withLastByte, fun r i hi hr => Bool.eq_false_iff.mpr fun hflip => crc8_romBytes_flip_ne r hi ?_⟩
  rw [crc8_of_valid hflip, crc8_of_valid hr]

/-! ## The commands -/

theorem encode_crcStep (v : Byte) : encode (.crcStep v) = 0x0000#16 ++ v ++ 0x07#8 :=
  append_low_byte 0#16 v 0#4 7#4

/-- Settles O27: the accumulator is all that CRC_CLEAR writes. -/
theorem crcClearZeroesTheAccumulator : Obligations.CrcClearZeroesTheAccumulator := by
  unfold Obligations.CrcClearZeroesTheAccumulator
  exact ⟨rfl, decode_encode (i := .crcClear) rfl, fun _ => rfl⟩

theorem exec_crcStep (v : Byte) (s : State) : exec (.crcStep v) s = .next (s.setAcc (crcStep s.acc v)) := rfl

/-- Settles O28: one lookup, at the accumulator XOR the byte. -/
theorem crcStepFoldsOneByte : Obligations.CrcStepFoldsOneByte := by
  unfold Obligations.CrcStepFoldsOneByte
  intro s v
  refine ⟨encode_crcStep v, ?_, ?_, ?_⟩
  · rw [← encode_crcStep]
    exact decode_encode rfl
  · rw [exec_crcStep, crcStep, crcT, List.getD_eq_getElem?_getD]
    rfl
  · rw [exec_crcStep, crcStep_eq_zero_iff.mpr rfl]
    rfl

end Sys2Proof.Machine
end

section
/-!
A search pass by its rules (R223 to R240): the deepest discrepancies it took 0 at, its end, and the transitions of the search
state.
-/

namespace Sys2Proof.Machine

open Sys2Proof.Claims

/-! ## The deepest discrepancies -/

/-- The loop's `last_zero` is the deepest discrepancy at which the pass took 0 (R229). -/
theorem deepestZero_lastZeroFrom {ts : List Resolved} (hlen : ts.length ≤ 64) :
    DeepestZero ts 64 (lastZeroFrom 1 ts 0) := by
  rcases lastZeroFrom_cases ts 1 0 with ⟨hz, hnone⟩ | ⟨k, hk, hz, hzero, hdeeper⟩
  · exact .inl ⟨hz, fun k hk _ => hnone k hk⟩
  · rw [hz, Nat.add_comm]
    exact .inr ⟨by omega, by omega, ⟨hk, hzero⟩, fun j hj hkj _ => hdeeper j hj (by omega)⟩

/-- The loop's `lfd` is the deepest such discrepancy in the family code, or the earlier value where there is none (R229). -/
theorem deepestZero_familyFrom (ts : List Resolved) (f : BitVec 7) :
    ∃ n, DeepestZero ts 8 n ∧ familyFrom 1 ts f = if n = 0 then f else BitVec.ofNat 7 n := by
  rcases familyFrom_cases ts 1 f with ⟨hf, hnone⟩ | ⟨k, hk, hk8, hf, hzero, hdeeper⟩
  · exact ⟨0, .inl ⟨rfl, fun k hk hk8 => hnone k hk (by omega)⟩, hf⟩
  · refine ⟨k + 1, .inr ⟨by omega, by omega, ⟨hk, hzero⟩, fun j hj hkj hj8 => hdeeper j hj (by omega) (by omega)⟩, ?_⟩
    rw [if_neg (by omega), hf, Nat.add_comm]

/-! ## A pass from a state that is not EXHAUSTED -/

/-- The direction written at a position, after a pair that is not `1,1` (R227, R228). -/
theorem Directed.rules {ld : Nat} {rom : Rom} {ts : List Resolved} (hd : Directed ld rom 1 ts) {k : Nat}
    (h : k < ts.length) :
    ¬(ts[k].id = true ∧ ts[k].cmp = true) ∧ (ts[k].id ≠ ts[k].cmp → ts[k].dir = ts[k].id) ∧
      (ts[k].id = ts[k].cmp → ts[k].dir = if k + 1 < ld then romBit rom (k + 1) else decide (k + 1 = ld)) := by
  obtain ⟨hpair, hdir⟩ := hd.getElem h
  rw [Nat.add_comm 1 k] at hdir
  refine ⟨by simpa using hpair, fun hne => ?_, fun heq => ?_⟩
  · rw [hdir, chooseDirection, if_pos hne]
  · rw [hdir, chooseDirection, if_neg (not_not.mpr heq)]
    by_cases hlt : k + 1 < ld <;> by_cases hld : k + 1 = ld <;> simp [hlt, hld]

/-- The ROM buffer after a pass, position by position (R230, R236). -/
theorem PassResult.rom_bits {s t : State} {ts : List Resolved} {noResponse : Bool} (h : PassResult s t ts noResponse)
    {k : Nat} (hk : k < 64) :
    romBit t.rom (k + 1) = if hk : k < ts.length then ts[k].dir else romBit s.rom (k + 1) := by
  by_cases hkt : k < ts.length
  · rw [dif_pos hkt, h.rom_resolved k hkt]
  · rw [dif_neg hkt, h.rom_kept (k + 1) (by omega) (by omega)]

theorem PassResult.length_le_64 {s t : State} {ts : List Resolved} {noResponse : Bool}
    (h : PassResult s t ts noResponse) : ts.length ≤ 64 := by
  rcases h.length_le with ⟨-, hlen⟩ | ⟨-, hlen⟩ <;> omega

/-- A pass that succeeds reports FOUND, with `ld` its `last_zero` and `ldf` set where that is 0 (R231, R232). -/
theorem PassResult.found {s t : State} {ts : List Resolved} {noResponse : Bool} (h : PassResult s t ts noResponse)
    (hldf : s.ldf = false) (hs : PassSucceeds ts t) :
    t.sres = .found ∧ t.ld.toNat = lastZeroFrom 1 ts 0 ∧ t.ldf = decide (t.ld = 0) ∧ t.lfd = familyFrom 1 ts s.lfd := by
  obtain ⟨hsres, hld, hldf', hlfd⟩ := h.success hs
  have hz : lastZeroFrom 1 ts 0 ≤ 64 := (lastZeroFrom_one_le ts).trans h.length_le_64
  refine ⟨hsres, ?_, ?_, hlfd⟩
  · rw [hld, BitVec.toNat_ofNat, Nat.mod_eq_of_lt (by omega)]
  · rw [hldf', hldf, Bool.false_or, hld, decide_eq_decide, ofNat_seven_eq_zero_iff hz]

/-- SSTATE, where `ldf` is set exactly at `ld = 0`: EXHAUSTED there, and ACTIVE elsewhere (R40). -/
theorem searchStateCode_of_flagged {ld : BitVec 7} {ldf : Bool} (h : ldf = decide (ld = 0)) :
    searchStateCode ld ldf = if ld.toNat = 0 then 2 else 1 := by
  have hzero : ld.toNat = 0 ↔ ld = 0#7 := (BitVec.toNat_eq (y := 0#7)).symm
  by_cases hld : ld = 0#7
  · simp [searchStateCode, h, hld]
  · rw [if_neg (mt hzero.mp hld)]
    simp [searchStateCode, h, hld]

/-- EXHAUSTED is `ldf = 1` (R40). -/
theorem searchStateCode_eq_two_iff {ld : BitVec 7} {ldf : Bool} : searchStateCode ld ldf = 2 ↔ ldf = true := by
  unfold searchStateCode
  cases ldf
  · simp only [Bool.false_eq_true, if_false, iff_false]
    split <;> decide
  · simp

/-- A pass meets the rules of a pass, whatever the bus answers. -/
theorem searchPass_meetsRules {s : State} (hldf : s.ldf = false) : PassMeetsRules s (searchPass s) := by
  rcases searchPass_result s with ⟨o, hne, ho, hpass⟩ | ⟨-, ts, noResponse, h⟩
  · exact .inl ⟨o, hne, ho.symm, hpass⟩
  · refine .inr ⟨ts, noResponse, h.answered, h.length_le.imp And.symm And.symm, fun k => h.directed.rules,
      fun k => h.rom_bits, h.acc_eq, fun hs => ?_, h.failure, ?_⟩
    · obtain ⟨hsres, hld, hldf', hlfd⟩ := h.found hldf hs
      rw [hsres, hld, hlfd]
      exact ⟨rfl, deepestZero_lastZeroFrom h.length_le_64, hldf', deepestZero_familyFrom ts s.lfd⟩
    · refine h.state_eq.trans ?_
      rw [State.slots_eq_of_ne_nil (by simp [passEvents])]

/-- A pass takes the search state along the rows of R240. -/
theorem searchPass_transition {s : State} (hldf : s.ldf = false) : PassTransition s (searchPass s) := by
  rcases searchPass_result s with ⟨o, hne, -, hpass⟩ | ⟨-, ts, noResponse, h⟩
  · exact .inl ⟨o, hne, by simp [hpass], by simp [hpass], by simp [hpass, searchStateCode]⟩
  · refine .inr ⟨ts, noResponse, lastZeroFrom 1 ts 0, h.history, deepestZero_lastZeroFrom h.length_le_64, fun hs => ?_,
      fun hs => ?_⟩
    · obtain ⟨hsres, hld, hldf', -⟩ := h.found hldf hs
      exact ⟨hsres, hld ▸ searchStateCode_of_flagged hldf'⟩
    · obtain ⟨hsres, hld, hldf', -⟩ := h.failure hs
      exact ⟨hsres, by simp [searchStateCode, hld, hldf']⟩

/-! ## The two search commands -/

/-- SEARCH_FIRST is a pass from the cleared search state and ROM buffer (R237). -/
theorem exec_searchFirst (s : State) : exec .searchFirst s = .next (searchPass (sessionStart s)) := rfl

/-- SEARCH_NEXT is a pass, where the search state is not EXHAUSTED (R238). -/
theorem exec_searchNext {s : State} (hldf : s.ldf = false) : exec .searchNext s = .next (searchPass s) := by
  simp [exec, execSearchNext, hldf]

/-- SEARCH_NEXT in EXHAUSTED only reports (R238). -/
theorem exec_searchNext_exhausted {s : State} (hldf : s.ldf = true) :
    exec .searchNext s = .next (s.setSres .exhausted) := by
  simp [exec, execSearchNext, hldf]

/-- Settles O34: the branch of SEARCH_NEXT that runs no pass. -/
theorem exhaustedSearchNextOnlyReports : Obligations.ExhaustedSearchNextOnlyReports := by
  unfold Obligations.ExhaustedSearchNextOnlyReports
  exact fun s => exec_searchNext_exhausted

/-- Settles O33: each command's pass starts with `ldf = 0`. -/
theorem searchPassFollowsItsRules : Obligations.SearchPassFollowsItsRules := by
  unfold Obligations.SearchPassFollowsItsRules
  exact ⟨fun s => ⟨_, exec_searchFirst s, searchPass_meetsRules rfl⟩,
    fun s hldf => ⟨_, exec_searchNext hldf, searchPass_meetsRules hldf⟩⟩

/-- Settles O35: a pass, an exhausted SEARCH_NEXT, and the commands that are no search. -/
theorem searchStateTransitions : Obligations.SearchStateTransitions := by
  unfold Obligations.SearchStateTransitions
  intro i s t h
  refine ⟨?_, ?_, ?_, fun hfirst hnext => ?_⟩
  · rintro rfl
    obtain rfl := Host.Outcome.next.inj h
    exact searchPass_transition (s := sessionStart s) rfl
  · rintro rfl hcode
    have hldf : s.ldf = false := Bool.eq_false_iff.mpr (mt searchStateCode_eq_two_iff.mpr hcode)
    rw [exec_searchNext hldf] at h
    obtain rfl := Host.Outcome.next.inj h
    exact searchPass_transition hldf
  · rintro rfl hcode
    rw [exec_searchNext_exhausted (searchStateCode_eq_two_iff.mp hcode)] at h
    obtain rfl := Host.Outcome.next.inj h
    exact ⟨rfl, hcode⟩
  · obtain ⟨hld, -, hldf, -, hsres⟩ := exec_keeps_search_registers h hfirst hnext
    rw [hld, hldf]
    exact ⟨hsres, rfl⟩

end Sys2Proof.Machine
end

section
/-!
What a search pass does not depend on: `lfd` (R245), and the ROM buffer from position `ld` on but for what it leaves
unresolved there (R228, R236). Two passes that the same bus answers, with the same directions, perform the same slots.
-/

namespace Sys2Proof.Machine

open Sys2Proof.Claims

/-! ## The slots of a pass are determined -/

/-- Directions depend on the earlier buffer before `ld` only (R228). -/
theorem Directed.congr_before {ld : Nat} {a b : Rom} {p : Nat} {ts : List Resolved} (hp : 1 ≤ p)
    (h : ∀ q, 1 ≤ q → q < ld → romBit a q = romBit b q) (hd : Directed ld a p ts) : Directed ld b p ts := by
  induction ts generalizing p with
  | nil => trivial
  | cons x ts ih =>
    obtain ⟨hpair, hdir, hrest⟩ := hd
    refine ⟨hpair, ?_, ih (by omega) hrest⟩
    rw [hdir]
    by_cases hlt : p < ld
    · simp [chooseDirection, h p hp hlt]
    · simp [chooseDirection, hlt]

/-- A bus does not answer a pair both `1,1` and as a resolved position. -/
theorem not_answered_ones {x : Resolved} {bus : Bus} {h es : List BusEvent} (hx : (x.id && x.cmp) = false)
    (hans : Answered bus h (.r x.id :: .r x.cmp :: es)) : ¬Answered bus h [.r true, .r true] := by
  rintro ⟨hid, hcmp, -⟩
  obtain ⟨hid', hcmp', -⟩ := hans
  have hidt : x.id = true := hid'.trans hid.symm
  rw [hidt] at hcmp'
  have hcmpt : x.cmp = true := hcmp'.trans hcmp.symm
  simp [hidt, hcmpt] at hx

/-- One bus and one rule for the directions leave one way for the positions of a pass. -/
theorem positions_unique {ld : Nat} {rom : Rom} {a b : Bool} {ts us : List Resolved} {n p : Nat} {bus : Bus}
    {h : List BusEvent} (hts : Directed ld rom p ts) (hus : Directed ld rom p us)
    (hta : Answered bus h (positionEvents ts a)) (hub : Answered bus h (positionEvents us b))
    (hla : a = false ∧ ts.length = n ∨ a = true ∧ ts.length < n)
    (hlb : b = false ∧ us.length = n ∨ b = true ∧ us.length < n) : ts = us ∧ a = b := by
  induction ts generalizing us n p bus h with
  | nil =>
    cases us with
    | nil => exact ⟨rfl, by grind⟩
    | cons y us =>
      obtain rfl : a = true := by grind
      exact absurd hta (not_answered_ones hus.1 hub)
  | cons x ts ih =>
    cases us with
    | nil =>
      obtain rfl : b = true := by grind
      exact absurd hub (not_answered_ones hts.1 hta)
    | cons y us =>
      obtain ⟨-, hxdir, hts⟩ := hts
      obtain ⟨-, hydir, hus⟩ := hus
      obtain ⟨hxid, hxcmp, -, hta⟩ := hta
      obtain ⟨hyid, hycmp, -, hub⟩ := hub
      obtain ⟨id, cmp, dir⟩ := x
      obtain ⟨id', cmp', dir'⟩ := y
      obtain rfl : id = id' := hxid.trans hyid.symm
      obtain rfl : cmp = cmp' := hxcmp.trans hycmp.symm
      obtain rfl : dir = dir' := hxdir.trans hydir.symm
      obtain ⟨rfl, rfl⟩ := ih (n := n - 1) hts hus hta hub (by grind) (by grind)
      exact ⟨rfl, rfl⟩

/-- Two passes from states that agree on the bus, the history, `ld` and the buffer before `ld` perform the same slots. -/
theorem PassResult.positions_eq {s s' t t' : State} {ts us : List Resolved} {a b : Bool} (h : PassResult s t ts a)
    (h' : PassResult s' t' us b) (hbus : s'.bus = s.bus) (hhistory : s'.history = s.history) (hld : s'.ld = s.ld)
    (hrom : ∀ q, 1 ≤ q → q < s.ld.toNat → romBit s'.rom q = romBit s.rom q) : us = ts ∧ b = a := by
  have hans := h'.answered
  have hdir := h'.directed
  rw [hbus, hhistory] at hans
  rw [hld] at hdir
  obtain ⟨rfl, rfl⟩ := positions_unique h.directed (hdir.congr_before le_rfl hrom)
    ((answered_append _ _ _ _).mp h.answered).2 ((answered_append _ _ _ _).mp hans).2 h.length_le h'.length_le
  exact ⟨rfl, rfl⟩

/-! ## What the ROM buffer and `lfd` leave alone -/

/-- The ends of two passes with the same positions, from states that differ in the ROM buffer and `lfd` only. -/
theorem PassResult.agree {s t t' : State} {r : Rom} {f : BitVec 7} {ts : List Resolved} {noResponse : Bool}
    (h : PassResult s t ts noResponse) (h' : PassResult { s with rom := r, lfd := f } t' ts noResponse) :
    t' = { t with rom := t'.rom, lfd := t'.lfd } ∧ (f = s.lfd → t'.lfd = t.lfd) ∧ (t.sres = .found → t'.rom = t.rom) := by
  have hresolved : ∀ p, 1 ≤ p → p ≤ ts.length → romBit t'.rom p = romBit t.rom p := fun p h1 h2 => by
    obtain ⟨k, rfl⟩ : ∃ k, p = k + 1 := ⟨p - 1, by omega⟩
    rw [h.rom_resolved k (by omega), h'.rom_resolved k (by omega)]
  have hacc : t'.acc = t.acc := by
    rw [h.acc_eq, h'.acc_eq, romBytes_take_congr fun p h1 h2 => hresolved p h1 (by omega)]
  have hfull : ts.length = 64 → t'.rom = t.rom := fun hlen => rom_ext fun p h1 h2 => hresolved p h1 (by omega)
  have hframe : t'.sres = t.sres → t'.ld = t.ld → t'.ldf = t.ldf → t' = { t with rom := t'.rom, lfd := t'.lfd } :=
    fun hsres hld hldf => by
      refine h'.state_eq.trans ?_
      rw [hacc, hsres, hld, hldf, State.slots_eq, h.state_eq, State.slots_eq]
  by_cases hs : ts.length = 64 ∧ t.acc = 0 ∧ t.rom ≠ 0
  · obtain ⟨hsres, hld, hldf, hlfd⟩ := h.success hs
    obtain ⟨hsres', hld', hldf', hlfd'⟩ := h'.success ⟨hs.1, by rw [hacc, hfull hs.1]; exact hs.2⟩
    refine ⟨hframe (hsres'.trans hsres.symm) (hld'.trans hld.symm) (hldf'.trans hldf.symm), fun hf => ?_,
      fun _ => hfull hs.1⟩
    rw [hlfd', hlfd, hf]
  · obtain ⟨hsres, hld, hldf, hlfd⟩ := h.failure hs
    obtain ⟨hsres', hld', hldf', hlfd'⟩ := h'.failure fun hs' => hs ⟨hs'.1, by
      rw [← hacc, ← hfull hs'.1]; exact hs'.2⟩
    exact ⟨hframe (hsres'.trans hsres.symm) (hld'.trans hld.symm) (hldf'.trans hldf.symm),
      fun _ => hlfd'.trans hlfd.symm, fun hfound => absurd (hsres.symm.trans hfound) (by decide)⟩

/-- Two passes from states that differ in `lfd` and in the ROM buffer from `ld` on: their ends differ in those only, in
`lfd` not if it was the same, and in the buffer only where both passes left it unresolved, so not if they found a device. -/
theorem searchPass_agree {s t t' : State} {r : Rom} {f : BitVec 7} (ht : searchPass s = t)
    (ht' : searchPass { s with rom := r, lfd := f } = t')
    (hrom : ∀ q, 1 ≤ q → q < s.ld.toNat → romBit r q = romBit s.rom q) :
    t' = { t with rom := t'.rom, lfd := t'.lfd } ∧ (f = s.lfd → t'.lfd = t.lfd) ∧ (t.sres = .found → t'.rom = t.rom) ∧
      ∀ p, 1 ≤ p → p ≤ 64 →
        romBit t'.rom p = romBit t.rom p ∨ (romBit t'.rom p = romBit r p ∧ romBit t.rom p = romBit s.rom p) := by
  have hs := searchPass_result s
  have hs' := searchPass_result { s with rom := r, lfd := f }
  rw [ht] at hs
  rw [ht'] at hs'
  rcases hs with ⟨o, hne, ho, rfl⟩ | ⟨hok, ts, a, h⟩ <;> rcases hs' with ⟨o', hne', ho', rfl⟩ | ⟨hok', us, b, h'⟩
  · obtain rfl : o = o' := ho.symm.trans ho'
    exact ⟨rfl, fun _ => rfl, nofun, fun p _ _ => .inr (by simp)⟩
  · exact absurd (ho.symm.trans hok') hne
  · exact absurd (ho'.symm.trans hok) hne'
  · obtain ⟨rfl, rfl⟩ := h.positions_eq h' rfl rfl rfl hrom
    obtain ⟨hframe, hlfd, hfound⟩ := h.agree h'
    refine ⟨hframe, hlfd, hfound, fun p h1 h2 => ?_⟩
    by_cases hp : p ≤ us.length
    · obtain ⟨k, rfl⟩ : ∃ k, p = k + 1 := ⟨p - 1, by omega⟩
      exact .inl ((h'.rom_resolved k (by omega)).trans (h.rom_resolved k (by omega)).symm)
    · exact .inr ⟨h'.rom_kept p (by omega) h2, h.rom_kept p (by omega) h2⟩

/-! ## The statements -/

theorem sessionStart_of_idle {s : State} (hld : s.ld = 0) (hldf : s.ldf = false) :
    s = { sessionStart s with rom := s.rom, lfd := s.lfd } := by
  unfold sessionStart
  rw [← hldf]
  cases s
  cases hld
  rfl

/-- Settles O36: the pass of SEARCH_NEXT is that of SEARCH_FIRST with another ROM buffer, none of it before `ld = 0`. -/
theorem searchNextFromIdleIsAFirstPass : Obligations.SearchNextFromIdleIsAFirstPass := by
  unfold Obligations.SearchNextFromIdleIsAFirstPass
  intro s t u hld hldf hlfd hnext hfirst
  rw [exec_searchNext hldf] at hnext
  obtain rfl := Host.Outcome.next.inj hnext
  obtain rfl := Host.Outcome.next.inj hfirst
  obtain ⟨hframe, hlfd', hfound, hbits⟩ := searchPass_agree (s := sessionStart s) (r := s.rom) (f := s.lfd) rfl
    (congrArg searchPass (sessionStart_of_idle hld hldf).symm) fun q _ hq => absurd hq (by simp [sessionStart])
  rw [hlfd' hlfd] at hframe
  refine ⟨hframe, fun hs => ?_, fun p h1 h2 => (hbits p h1 h2).imp_right fun ⟨ht, hu⟩ => ⟨ht, ?_⟩⟩
  · rw [hframe] at hs
    exact hframe.trans (by rw [hfound hs]; rfl)
  · exact hu.trans (by simp [sessionStart, romBit])

/-- Reads do not depend on `lfd`. -/
theorem readSlots_setLfd (v : BitVec 7) (n : Nat) (s : State) :
    readSlots n (s.setLfd v) = ((readSlots n s).1, (readSlots n s).2.setLfd v) := by
  induction n generalizing s with
  | zero => rfl
  | succ n ih =>
    have hslot : (busReadSlot (s.setLfd v)).2 = (busReadSlot s).2.setLfd v := rfl
    simp only [readSlots, hslot, ih]
    rfl

/-- Settles O37: outside a pass nothing reads `lfd`, SEARCH_FIRST clears it, and a pass ends the same but for it. -/
theorem familyDiscrepancyGatesNothing : Obligations.FamilyDiscrepancyGatesNothing := by
  unfold Obligations.FamilyDiscrepancyGatesNothing
  intro i s t u v ht hu
  cases i with
  | owReset | owWriteBit | owReadBit | crcClear | crcStep | searchFirst =>
    obtain rfl := Host.Outcome.next.inj ht
    obtain rfl := Host.Outcome.next.inj hu
    rfl
  | owWriteByte arg =>
    rw [exec_owWriteByte] at ht hu
    obtain rfl := Host.Outcome.next.inj ht
    obtain rfl := Host.Outcome.next.inj hu
    simp only [State.slots_eq]
  | owReadByte =>
    obtain rfl := Host.Outcome.next.inj ht
    obtain rfl := Host.Outcome.next.inj hu
    have hreads : readByteSlots { s with lfd := v } = ((readByteSlots s).1, (readByteSlots s).2.setLfd v) :=
      congrArg (fun x => (byteOfBits x.1, x.2)) (readSlots_setLfd v 8 s)
    rw [hreads]
    rfl
  | searchNext =>
    cases hldf : s.ldf with
    | true =>
      rw [exec_searchNext_exhausted hldf] at ht
      rw [exec_searchNext_exhausted (s := { s with lfd := v }) hldf] at hu
      obtain rfl := Host.Outcome.next.inj ht
      obtain rfl := Host.Outcome.next.inj hu
      rfl
    | false =>
      rw [exec_searchNext hldf] at ht
      rw [exec_searchNext (s := { s with lfd := v }) hldf] at hu
      obtain rfl := Host.Outcome.next.inj ht
      obtain rfl := Host.Outcome.next.inj hu
      obtain ⟨hframe, -, -, hbits⟩ := searchPass_agree (s := s) (r := s.rom) (f := v) rfl rfl fun _ _ _ => rfl
      have hrom : (searchPass { s with lfd := v }).rom = (searchPass s).rom := rom_ext fun p h1 h2 =>
        (hbits p h1 h2).elim id fun ⟨ht, hu⟩ => ht.trans hu.symm
      rw [hrom] at hframe
      exact hframe

end Sys2Proof.Machine
end

section
/-!
A pass on a healthy reference line (R241, R242). It follows one ROM Code; wherever another code first differs from it, the
pass met a discrepancy and chose by R228. So each pass finds the least code above the last one found, and `ld` says whether
there is one.
-/

namespace Sys2Proof.Machine

open Sys2Proof.Claims

/-! ## The order of R241 -/

theorem AgreeBefore.symm {a b : Rom} {p : Nat} (h : AgreeBefore a b p) : AgreeBefore b a p :=
  fun q h1 h2 => (h q h1 h2).symm

/-- `b` first differs from `a` at position p, where it has the 1. -/
structure FirstAbove (a b : Rom) (p : Nat) : Prop where
  one_le : 1 ≤ p
  le_64 : p ≤ 64
  agree : AgreeBefore a b p
  low : romBit a p = false
  high : romBit b p = true

theorem romBefore_iff {a b : Rom} : RomBefore a b ↔ ∃ p, FirstAbove a b p :=
  exists_congr fun _ => ⟨fun ⟨h1, h2, h3, h4, h5⟩ => ⟨h1, h2, h3, h4, h5⟩, fun ⟨h1, h2, h3, h4, h5⟩ => ⟨h1, h2, h3, h4, h5⟩⟩

theorem FirstAbove.romBefore {a b : Rom} {p : Nat} (h : FirstAbove a b p) : RomBefore a b := romBefore_iff.mpr ⟨p, h⟩

theorem FirstAbove.le_of_agree {a b : Rom} {p q : Nat} (h : FirstAbove a b q) (hagree : AgreeBefore a b p) : p ≤ q :=
  Nat.le_of_not_lt fun hlt => absurd ((h.low.symm.trans (hagree q h.one_le hlt)).trans h.high) (by decide)

theorem romBefore_irrefl (a : Rom) : ¬RomBefore a a := fun h => by
  obtain ⟨p, hp⟩ := romBefore_iff.mp h
  exact absurd (hp.low.symm.trans hp.high) (by decide)

theorem romBefore_trans {a b c : Rom} (hab : RomBefore a b) (hbc : RomBefore b c) : RomBefore a c := by
  obtain ⟨p, hp⟩ := romBefore_iff.mp hab
  obtain ⟨q, hq⟩ := romBefore_iff.mp hbc
  have hagree : AgreeBefore a c (min p q) := fun k h1 h2 =>
    (hp.agree k h1 (by omega)).trans (hq.agree k h1 (by omega))
  rcases Nat.lt_trichotomy p q with hlt | rfl | hlt
  · rw [Nat.min_eq_left hlt.le] at hagree
    exact FirstAbove.romBefore ⟨hp.one_le, hp.le_64, hagree, hp.low, (hq.agree p hp.one_le hlt).symm.trans hp.high⟩
  · exact absurd (hp.high.symm.trans hq.low) (by decide)
  · rw [Nat.min_eq_right hlt.le] at hagree
    exact FirstAbove.romBefore ⟨hq.one_le, hq.le_64, hagree, (hp.agree q hq.one_le hlt).trans hq.low, hq.high⟩

/-- Different ROM Codes have a first position at which they differ. -/
theorem exists_first_difference {a b : Rom} (h : a ≠ b) :
    ∃ p, 1 ≤ p ∧ p ≤ 64 ∧ AgreeBefore a b p ∧ romBit a p ≠ romBit b p := by
  have hex : ∃ p, 1 ≤ p ∧ p ≤ 64 ∧ romBit a p ≠ romBit b p := by
    by_contra hc
    exact h (rom_ext fun p h1 h2 => not_not.mp fun hp => hc ⟨p, h1, h2, hp⟩)
  obtain ⟨h1, h2, hne⟩ := Nat.find_spec hex
  exact ⟨Nat.find hex, h1, h2, fun q hq1 hq => not_not.mp fun hqne => Nat.find_min hex hq ⟨hq1, by omega, hqne⟩, hne⟩

/-! ## The path of a pass -/

/-- The ROM Code a pass follows among `codes`: where another code first differs from it, the direction taken is that of R228,
with the `ld` and the ROM buffer of the pass before. -/
structure PassPath (codes : List Rom) (ld : Nat) (rom path : Rom) : Prop where
  mem : path ∈ codes
  fork : ∀ c ∈ codes, ∀ p, 1 ≤ p → p ≤ 64 → AgreeBefore c path p → romBit c p ≠ romBit path p →
    romBit path p = if p < ld then romBit rom p else decide (p = ld)

/-- `z` is the deepest position at which a code above `r` first differs from `r`, or 0 if no code is above `r`. -/
structure DeepestFork (codes : List Rom) (r : Rom) (z : Nat) : Prop where
  le : ∀ c ∈ codes, ∀ p, FirstAbove r c p → p ≤ z
  attained : z ≠ 0 → ∃ c ∈ codes, FirstAbove r c z

/-- No code is above one whose deepest fork is 0. -/
theorem DeepestFork.no_above {codes : List Rom} {r : Rom} (h : DeepestFork codes r 0) {c : Rom} (hc : c ∈ codes) :
    ¬RomBefore r c := fun hrc => by
  obtain ⟨p, hp⟩ := romBefore_iff.mp hrc
  have := h.le c hc p hp
  have := hp.one_le
  omega

/-- A first pass follows the least code (R241). -/
theorem PassPath.least {codes : List Rom} {rom path : Rom} (h : PassPath codes 0 rom path) {c : Rom} (hc : c ∈ codes) :
    c = path ∨ RomBefore path c := by
  refine or_iff_not_imp_left.mpr fun hne => ?_
  obtain ⟨p, h1, h2, hagree, hp⟩ := exists_first_difference hne
  have hlow : romBit path p = false := by
    rw [h.fork c hc p h1 h2 hagree hp, if_neg (by omega)]
    simpa using Nat.ne_of_gt h1
  exact FirstAbove.romBefore ⟨h1, h2, hagree.symm, hlow, by simpa [hlow] using hp⟩

section
variable {codes : List Rom} {z : Nat} {rom path : Rom} (hpath : PassPath codes z rom path) (hrom : rom ∈ codes)
  (hdeep : DeepestFork codes rom z) (hz : z ≠ 0)
include hpath hrom

/-- Before `ld` a pass repeats the code found last (R228). -/
theorem PassPath.agree_before : AgreeBefore rom path z := by
  by_cases heq : rom = path
  · exact heq ▸ fun _ _ _ => rfl
  obtain ⟨p, h1, h2, hagree, hp⟩ := exists_first_difference heq
  refine hagree.mono (Nat.le_of_not_lt fun hlt => hp ?_)
  rw [hpath.fork rom hrom p h1 h2 hagree hp, if_pos hlt]

include hdeep

/-- A later pass follows the least code above the last (R241): a code above the last that first differs from the path before
`ld` has the 1 there, none does at `ld`, and after `ld` the path has the 0. -/
theorem PassPath.least_above {c : Rom} (hc : c ∈ codes) (habove : RomBefore rom c) : c = path ∨ RomBefore path c := by
  refine or_iff_not_imp_left.mpr fun hne => ?_
  obtain ⟨p, h1, h2, hagree, hp⟩ := exists_first_difference hne
  obtain ⟨q, hq⟩ := romBefore_iff.mp habove
  have hlow : romBit path p = false := by
    by_cases hpz : p ≤ z
    · have hkept := hpath.agree_before hrom
      have hagree' : AgreeBefore rom c p := fun k hk1 hk2 =>
        (hkept k hk1 (by omega)).trans (hagree k hk1 hk2).symm
      obtain rfl | hlt := (hq.le_of_agree hagree').eq_or_lt
      · exact Bool.eq_false_iff.mpr fun hhigh => hp (hq.high.trans hhigh.symm)
      · have hqz := hdeep.le c hc q hq
        exact absurd ((hq.agree p h1 hlt).symm.trans (hkept p h1 (by omega))) hp
    · rw [hpath.fork c hc p h1 h2 hagree hp, if_neg (by omega)]
      simpa using Nat.ne_of_gt (Nat.lt_of_not_le hpz)
  exact FirstAbove.romBefore ⟨h1, h2, hagree.symm, hlow, by simpa [hlow] using hp⟩

include hz

/-- At `ld` a pass takes the 1 that the pass before left (R228), so it follows a code above the last. -/
theorem PassPath.firstAbove : FirstAbove rom path z := by
  obtain ⟨c, hc, habove⟩ := hdeep.attained hz
  have hagree := hpath.agree_before hrom
  refine ⟨habove.one_le, habove.le_64, hagree, habove.low, not_not.mp fun hlow => hlow ?_⟩
  have hfork := hpath.fork c hc z habove.one_le habove.le_64
    (fun q h1 h2 => (habove.agree q h1 h2).symm.trans (hagree q h1 h2)) (habove.high ▸ Ne.symm hlow)
  simpa using hfork

end

/-! ## A pass on a healthy reference line -/

/-- The line is healthy and its devices have these ROM Codes. -/
def HealthyLine (codes : List Rom) (bus : Bus) : Prop :=
  ∃ devices, bus = .reference devices false ∧ devices.map (·.romCode) = codes

theorem HealthyLine.afterAll {codes : List Rom} {bus : Bus} (h : HealthyLine codes bus) (es : List BusEvent) :
    HealthyLine codes (bus.afterAll es) := by
  obtain ⟨devices, rfl, hcodes⟩ := h
  obtain ⟨after, hafter, hkept⟩ := Bus.afterAll_reference es devices false
  exact ⟨after, hafter, hkept.trans hcodes⟩

/-- What a pass over the devices leaves: it found a code, and `ld` and `ldf` say where a code above it first differs, and
whether there is none. -/
structure Reports (codes : List Rom) (t : State) : Prop where
  idle : t.busy = false
  running : t.inReset = false
  line : HealthyLine codes t.bus
  found : t.sres = .found
  mem : t.rom ∈ codes
  deepest : DeepestFork codes t.rom t.ld.toNat
  flag : t.ldf = decide (t.ld = 0)

/-- A pass that leaves `ldf` clear leaves `ld` at a position (R232). -/
theorem Reports.ld_ne_zero {codes : List Rom} {t : State} (h : Reports codes t) (hldf : t.ldf = false) :
    t.ld.toNat ≠ 0 := fun h0 => by
  have hflag := h.flag
  rw [BitVec.eq_of_toNat_eq (y := 0) h0] at hflag
  simp [hflag] at hldf

/-- The slots of a pass, where each pair is that of the participants and a participant is found. -/
structure PassSlots (codes : List Rom) (s t : State) (ts : List Resolved) : Prop where
  result : PassResult s t ts false
  length_eq : ts.length = 64
  found : t.sres = .found
  mem : t.rom ∈ codes
  pair : ∀ k (h : k < ts.length), PairOf t.rom (k + 1) codes ts[k]

theorem searchPass_slots {codes : List Rom} {s : State} (hline : HealthyLine codes s.bus) (hne : codes ≠ [])
    (hvalid : ∀ c ∈ codes, romValid c = true ∧ c ≠ 0) : ∃ ts, PassSlots codes s (searchPass s) ts := by
  obtain ⟨devices, hbus, rfl⟩ := hline
  obtain ⟨ts, hresult, hlen, hfound, hmem, hpair⟩ := searchPass_reference hbus (mt List.map_eq_nil_iff.mpr hne)
    fun d hd => hvalid d.romCode (List.mem_map_of_mem hd)
  exact ⟨ts, hresult, hlen, hfound, hmem, hpair⟩

section
variable {codes : List Rom} {s t : State} {ts : List Resolved} (h : PassSlots codes s t ts)
include h

/-- Where a code first differs from the one found, both bits were sent, so the pair was `0,0` (R104). -/
theorem PassSlots.pair_at_fork {c : Rom} (hc : c ∈ codes) {k : Nat} (hk : k < ts.length)
    (hagree : AgreeBefore c t.rom (k + 1)) (hne : romBit c (k + 1) ≠ romBit t.rom (k + 1)) :
    ts[k].id = false ∧ ts[k].cmp = false := by
  obtain ⟨hid, hcmp⟩ := h.pair k hk
  have hself : AgreeBefore t.rom t.rom (k + 1) := fun _ _ _ => rfl
  exact ⟨Bool.eq_false_iff.mpr fun h1 => hne ((hid.mp h1 c hc hagree).trans (hid.mp h1 _ h.mem hself).symm),
    Bool.eq_false_iff.mpr fun h1 => hne ((hcmp.mp h1 c hc hagree).trans (hcmp.mp h1 _ h.mem hself).symm)⟩

/-- A pass follows the code it finds. -/
theorem PassSlots.passPath : PassPath codes s.ld.toNat s.rom t.rom where
  mem := h.mem
  fork c hc p h1 h2 hagree hne := by
    obtain ⟨k, rfl⟩ : ∃ k, p = k + 1 := ⟨p - 1, by omega⟩
    have hk : k < ts.length := by have := h.length_eq; omega
    obtain ⟨hid, hcmp⟩ := h.pair_at_fork hc hk hagree hne
    rw [h.result.rom_resolved k hk, (h.result.directed.rules hk).2.2 (hid.trans hcmp.symm)]

/-- A discrepancy at which the pass took 0 is a position at which a code above the one found first differs from it. -/
theorem PassSlots.isZero_iff {k : Nat} (hk : k < ts.length) :
    ts[k].isZero = true ↔ ∃ c ∈ codes, FirstAbove t.rom c (k + 1) := by
  have hdir := h.result.rom_resolved k hk
  have hlen := h.length_eq
  constructor
  · intro hzero
    simp only [Resolved.isZero, Bool.and_eq_true, Bool.not_eq_true'] at hzero
    obtain ⟨⟨-, hcmp⟩, hdir0⟩ := hzero
    have hsent : ¬∀ c ∈ codes, AgreeBefore c t.rom (k + 1) → romBit c (k + 1) = false := fun hall =>
      Bool.eq_false_iff.mp hcmp ((h.pair k hk).2.mpr hall)
    push Not at hsent
    obtain ⟨c, hc, hagree, hhigh⟩ := hsent
    exact ⟨c, hc, by omega, by omega, hagree.symm, hdir.trans hdir0, by simpa using hhigh⟩
  · rintro ⟨c, hc, habove⟩
    obtain ⟨hid, hcmp⟩ := h.pair_at_fork hc hk habove.agree.symm (by simp [habove.low, habove.high])
    simp [Resolved.isZero, hid, hcmp, ← hdir, habove.low]

/-- The deepest discrepancy at which the pass took 0 is the deepest fork above the code found. -/
theorem PassSlots.deepestFork {z : Nat} (hz : DeepestZero ts 64 z) : DeepestFork codes t.rom z := by
  have hlen := h.length_eq
  have hfork : ∀ c ∈ codes, ∀ p, FirstAbove t.rom c p → ∃ k, ∃ hk : k < ts.length, p = k + 1 ∧ ts[k].isZero = true :=
    fun c hc p hp => by
      have := hp.one_le
      have := hp.le_64
      obtain ⟨k, rfl⟩ : ∃ k, p = k + 1 := ⟨p - 1, by omega⟩
      exact ⟨k, by omega, rfl, (h.isZero_iff (by omega)).mpr ⟨c, hc, hp⟩⟩
  rcases hz with ⟨rfl, hnone⟩ | ⟨h1, -, ⟨hk, hzero⟩, hdeeper⟩
  · refine ⟨fun c hc p hp => ?_, fun h0 => absurd rfl h0⟩
    obtain ⟨k, hk, rfl, hzero⟩ := hfork c hc p hp
    exact absurd hzero (by simp [hnone k hk (by omega)])
  · refine ⟨fun c hc p hp => ?_, fun _ => ?_⟩
    · obtain ⟨k, hk, rfl, hzero⟩ := hfork c hc p hp
      exact Nat.le_of_not_lt fun hlt => absurd hzero (by simp [hdeeper k hk hlt (by omega)])
    · have := (h.isZero_iff hk).mp hzero
      rwa [Nat.sub_add_cancel h1] at this

/-- `ld` is the deepest fork above the code found, and `ldf` is set where it is 0 (R232). -/
theorem PassSlots.deepestFork_ld (hldf : s.ldf = false) :
    DeepestFork codes t.rom t.ld.toNat ∧ t.ldf = decide (t.ld = 0) := by
  have hs : PassSucceeds ts t := not_not.mp fun hs => absurd (h.found.symm.trans (h.result.failure hs).1) (by decide)
  obtain ⟨-, hld, hflag, -⟩ := h.result.found hldf hs
  exact ⟨hld ▸ h.deepestFork (deepestZero_lastZeroFrom h.result.length_le_64), hflag⟩

end

/-- A pass from a state that is not EXHAUSTED, completed, reports the code it follows. -/
theorem searchPass_reports {codes : List Rom} {s : State} (hrun : s.inReset = false) (hldf : s.ldf = false)
    (hline : HealthyLine codes s.bus) (hne : codes ≠ []) (hvalid : ∀ c ∈ codes, romValid c = true ∧ c ≠ 0) :
    Reports codes (searchPass s).complete ∧ PassPath codes s.ld.toNat s.rom (searchPass s).rom := by
  obtain ⟨ts, hslots⟩ := searchPass_slots hline hne hvalid
  obtain ⟨es, hframe⟩ := searchPass_frame s
  obtain ⟨hdeep, hflag⟩ := hslots.deepestFork_ld hldf
  exact ⟨⟨rfl, hframe.inReset.trans hrun, hframe.bus ▸ hline.afterAll es, hslots.found, hslots.mem, hdeep, hflag⟩,
    hslots.passPath⟩

/-- Settles O47: no other code differs from the one device's, so no pair is a discrepancy and `ld` is 0. -/
theorem singleDeviceIsFoundInOnePass : Obligations.SingleDeviceIsFoundInOnePass := by
  unfold Obligations.SingleDeviceIsFoundInOnePass
  intro s d hbus hvalid hnonzero
  obtain ⟨ts, hslots⟩ := searchPass_slots (codes := [d.romCode]) (s := sessionStart s) ⟨[d], hbus, rfl⟩ (by simp)
    (by simpa using ⟨hvalid, hnonzero⟩)
  have hrom : (searchPass (sessionStart s)).rom = d.romCode := by simpa using hslots.mem
  obtain ⟨hdeep, hflag⟩ := hslots.deepestFork_ld rfl
  have hld : (searchPass (sessionStart s)).ld.toNat = 0 := by
    by_contra hz
    obtain ⟨c, hc, habove⟩ := hdeep.attained hz
    rw [List.mem_singleton.mp hc, hrom] at habove
    exact romBefore_irrefl _ habove.romBefore
  refine ⟨_, ts, exec_searchFirst s, hslots.found, hrom, BitVec.eq_of_toNat_eq hld, ?_, hslots.result.history,
    hslots.length_eq, fun k hk => ?_⟩
  · rw [searchStateCode_of_flagged hflag, if_pos hld]
  · obtain ⟨hid, hcmp⟩ := hslots.pair k hk
    have hdir := hslots.result.rom_resolved k hk
    rw [hrom] at hid hcmp hdir
    have hself : AgreeBefore d.romCode d.romCode (k + 1) := fun _ _ _ => rfl
    simp only [List.mem_singleton, forall_eq, hself, true_imp_iff] at hid hcmp
    have hcmp' : ts[k].cmp = !romBit d.romCode (k + 1) := by rw [Bool.eq_iff_iff, hcmp, Bool.not_eq_true']
    calc ts[k] = ⟨ts[k].id, ts[k].cmp, ts[k].dir⟩ := rfl
      _ = _ := by rw [Bool.eq_iff_iff.mpr hid, hcmp', ← hdir]

end Sys2Proof.Machine
end

section
/-!
The enumeration of R270 on a healthy reference line: what the host reads of a search, what each `DO` of a search command
leaves, and what the loop reports.
-/

namespace Sys2Proof.Machine

open Sys2Proof.Claims

/-! ## What the host reads of a search (R267, R270) -/

/-- STATUS, read while no command executes, gives SRES and SSTATE (R40, R41). -/
theorem hostRead_status_search {s : State} (hrun : s.inReset = false) (hidle : s.busy = false) :
    (hostRead .status s).extractLsb' 12 2 = s.sres.code ∧
      (hostRead .status s).extractLsb' 8 2 = searchStateCode s.ld s.ldf := by
  obtain ⟨sres, sstate, pres, hword, hfields⟩ := hostRead_status hrun
  obtain ⟨rfl, rfl, rfl⟩ := hfields hidle
  obtain ⟨-, -, -, -, -, -, hsstate, -, hsres, -⟩ := packStatus_fields s.sres.code _ s.pres.code s.ovr s.ill s.busy
  rw [hword]
  exact ⟨hsres, hsstate⟩

/-- ROM1 and ROM0 together are the ROM buffer (R45, R46). -/
theorem copyRom_eq {s : State} (hrun : s.inReset = false) (hidle : s.busy = false) : copyRom s = s.rom := by
  rw [copyRom, hostRead_rom1 hrun hidle, hostRead_rom0 hrun hidle]
  apply BitVec.eq_of_getLsbD_eq
  intro k hk
  rw [BitVec.getLsbD_append]
  by_cases hlow : k < 32
  · simp [hlow]
  · have hsplit : 32 + (k - 32) = k := by omega
    simp [hlow, hsplit, show k - 32 < 32 by omega]

/-- `DO SEARCH_FIRST` on an idle block. -/
theorem hostDo_searchFirst {s : State} (hidle : s.busy = false) (hrun : s.inReset = false) :
    hostDo .searchFirst s = (searchPass (sessionStart (s.accept (encode .searchFirst)))).complete :=
  hostDo_eq (i := .searchFirst) rfl hidle hrun rfl

/-- `DO SEARCH_NEXT` on an idle block that is not EXHAUSTED. -/
theorem hostDo_searchNext {s : State} (hidle : s.busy = false) (hrun : s.inReset = false) (hldf : s.ldf = false) :
    hostDo .searchNext s = (searchPass (s.accept (encode .searchNext))).complete :=
  hostDo_eq (i := .searchNext) rfl hidle hrun (exec_searchNext hldf)

/-! ## The enumeration -/

section
variable {codes : List Rom} (hne : codes ≠ []) (hvalid : ∀ c ∈ codes, romValid c = true ∧ c ≠ 0)
include hne hvalid

/-- `DO SEARCH_FIRST` finds the least code (R241). -/
theorem hostDo_searchFirst_reports {s : State} (hidle : s.busy = false) (hrun : s.inReset = false)
    (hline : HealthyLine codes s.bus) :
    Reports codes (hostDo .searchFirst s) ∧
      ∀ c ∈ codes, c = (hostDo .searchFirst s).rom ∨ RomBefore (hostDo .searchFirst s).rom c := by
  rw [hostDo_searchFirst hidle hrun]
  obtain ⟨hreports, hpath⟩ := searchPass_reports (s := sessionStart (s.accept (encode .searchFirst))) hrun rfl hline hne
    hvalid
  exact ⟨hreports, fun c => hpath.least⟩

/-- `DO SEARCH_NEXT` finds the least code above the last, where there is one (R241). -/
theorem Reports.hostDo_searchNext {s : State} (h : Reports codes s) (hldf : s.ldf = false) :
    Reports codes (hostDo .searchNext s) ∧ RomBefore s.rom (hostDo .searchNext s).rom ∧
      ∀ c ∈ codes, RomBefore s.rom c → c = (hostDo .searchNext s).rom ∨ RomBefore (hostDo .searchNext s).rom c := by
  rw [Machine.hostDo_searchNext h.idle h.running hldf]
  obtain ⟨hreports, hpath⟩ := searchPass_reports (s := s.accept (encode .searchNext)) h.running hldf h.line hne hvalid
  exact ⟨hreports, (hpath.firstAbove h.mem h.deepest (h.ld_ne_zero hldf)).romBefore, fun c => hpath.least_above h.mem h.deepest⟩

end

/-- What the loop of R270 reports, with room for `room` codes, from the code `r` on: the codes from `r` up in ascending order,
either all of them, which ends EXHAUSTED, or as many as there is room for, with a code left above them. -/
structure EnumeratesFrom (codes : List Rom) (r : Rom) (room : Nat) (found : List Rom) (t : State) : Prop where
  first : r ∈ found
  from_first : ∀ x ∈ found, x = r ∨ RomBefore r x
  ascending : found.Pairwise RomBefore
  sound : ∀ x ∈ found, x ∈ codes
  complete : ∀ c ∈ codes, (c = r ∨ RomBefore r c) → c ∈ found ∨ ∀ x ∈ found, RomBefore x c
  length_le : found.length ≤ room
  ends : (t.ldf = true ∧ ∀ c ∈ codes, (c = r ∨ RomBefore r c) → c ∈ found) ∨
    (found.length = room ∧ ∃ c ∈ codes, ∀ x ∈ found, RomBefore x c)

/-- The loop stops at a code when it has no more room, or in EXHAUSTED. -/
theorem Reports.enumerates_one {codes : List Rom} {s : State} (h : Reports codes s) {room : Nat} (hroom : 1 ≤ room)
    (hstop : room = 1 ∨ s.ldf = true) : EnumeratesFrom codes s.rom room [s.rom] s where
  first := by simp
  from_first := by simp
  ascending := by simp
  sound := by simpa using h.mem
  complete c hc hfrom := hfrom.imp (by simp) (by simp)
  length_le := hroom
  ends := by
    cases hldf : s.ldf with
    | true =>
      have hld : s.ld = 0 := by simpa [hldf] using h.flag
      have hdeep := h.deepest
      rw [hld] at hdeep
      exact .inl ⟨rfl, fun c hc hfrom => by simpa using hfrom.resolve_right (hdeep.no_above hc)⟩
    | false =>
      obtain ⟨c, hc, habove⟩ := h.deepest.attained (h.ld_ne_zero hldf)
      have hroom' : room = 1 := hstop.resolve_right (by simp [hldf])
      exact .inr ⟨hroom'.symm, c, hc, by simpa using habove.romBefore⟩

/-- The loop goes on from a code to the least one above it. -/
theorem EnumeratesFrom.cons {codes : List Rom} {r r' : Rom} {room : Nat} {found : List Rom} {t : State}
    (h : EnumeratesFrom codes r' room found t) (hr : r ∈ codes) (hnext : RomBefore r r')
    (hleast : ∀ c ∈ codes, RomBefore r c → c = r' ∨ RomBefore r' c) :
    EnumeratesFrom codes r (room + 1) (r :: found) t := by
  have habove : ∀ x ∈ found, RomBefore r x := fun x hx =>
    (h.from_first x hx).elim (fun he => he ▸ hnext) (romBefore_trans hnext)
  have hpast : ∀ c, (∀ x ∈ found, RomBefore x c) → ∀ x ∈ r :: found, RomBefore x c := fun c hc =>
    List.forall_mem_cons.mpr ⟨romBefore_trans hnext (hc r' h.first), hc⟩
  refine ⟨by simp, ?_, List.pairwise_cons.mpr ⟨habove, h.ascending⟩, List.forall_mem_cons.mpr ⟨hr, h.sound⟩, ?_,
    Nat.succ_le_succ h.length_le, ?_⟩
  · exact List.forall_mem_cons.mpr ⟨.inl rfl, fun x hx => .inr (habove x hx)⟩
  · rintro c hc (rfl | hrc)
    · exact .inl (by simp)
    · exact (h.complete c hc (hleast c hc hrc)).imp (List.mem_cons_of_mem r) (hpast c)
  · rcases h.ends with ⟨hldf, hall⟩ | ⟨hfull, c, hc, hleft⟩
    · refine .inl ⟨hldf, ?_⟩
      rintro c hc (rfl | hrc)
      · simp
      · exact List.mem_cons_of_mem r (hall c hc (hleast c hc hrc))
    · exact .inr ⟨congrArg (· + 1) hfull, c, hc, hpast c hleft⟩

/-- One turn of the loop on a code found: it is copied out, and the loop stops or searches on (R270). -/
theorem Reports.enumerateLoop_succ {codes : List Rom} {s : State} (h : Reports codes s) (room : Nat) :
    Machine.enumerateLoop (room + 1) s =
      if room = 0 ∨ s.ldf = true then ([s.rom], s)
      else (s.rom :: (Machine.enumerateLoop room (hostDo .searchNext s)).1,
        (Machine.enumerateLoop room (hostDo .searchNext s)).2) := by
  obtain ⟨hsres, hsstate⟩ := hostRead_status_search h.running h.idle
  have hexhausted : (hostRead .status s).extractLsb' 8 2 = 2#2 ↔ s.ldf = true := hsstate ▸ searchStateCode_eq_two_iff
  rw [Machine.enumerateLoop, copyRom_eq h.running h.idle, hsres, h.found, if_neg (by decide)]
  by_cases hroom : room = 0
  · rw [if_pos hroom, if_pos (.inl hroom)]
  · simp only [hroom, hexhausted, false_or, if_false]

/-- The loop of R270 enumerates the codes from the one just found on, by induction on the room for more. -/
theorem Reports.enumerateLoop {codes : List Rom} (hne : codes ≠ []) (hvalid : ∀ c ∈ codes, romValid c = true ∧ c ≠ 0)
    (room : Nat) {s : State} (h : Reports codes s) :
    EnumeratesFrom codes s.rom (room + 1) (Machine.enumerateLoop (room + 1) s).1
      (Machine.enumerateLoop (room + 1) s).2 := by
  induction room generalizing s with
  | zero =>
    rw [h.enumerateLoop_succ, if_pos (.inl rfl)]
    exact h.enumerates_one le_rfl (.inl rfl)
  | succ room ih =>
    rw [h.enumerateLoop_succ]
    cases hldf : s.ldf with
    | true =>
      rw [if_pos (.inr rfl)]
      exact h.enumerates_one (by omega) (.inr hldf)
    | false =>
      rw [if_neg (by simp)]
      obtain ⟨hreports, hnext, hleast⟩ := h.hostDo_searchNext hne hvalid hldf
      exact (ih hreports).cons h.mem hnext hleast

/-- Codes in ascending order are distinct. -/
theorem nodup_of_ascending {l : List Rom} (h : l.Pairwise RomBefore) : l.Nodup :=
  List.nodup_iff_pairwise_ne.mpr (h.imp fun {a b} (hab : RomBefore a b) (heq : a = b) => romBefore_irrefl b (heq ▸ hab))

/-- From the least code on, the loop reports as many codes as there are, or as it has room for. -/
theorem EnumeratesFrom.length_eq {codes : List Rom} {r : Rom} {room : Nat} {found : List Rom} {t : State}
    (h : EnumeratesFrom codes r room found t) (hnodup : codes.Nodup) (hleast : ∀ c ∈ codes, c = r ∨ RomBefore r c) :
    found.length = min codes.length room ∧ (codes.length ≤ room → t.ldf = true) := by
  have hlength := h.length_le
  rcases h.ends with ⟨hldf, hall⟩ | ⟨hfull, c, hc, hleft⟩
  · have hle : found.length ≤ codes.length := ((nodup_of_ascending h.ascending).subperm h.sound).length_le
    have hge : codes.length ≤ found.length := (hnodup.subperm fun c hc => hall c hc (hleast c hc)).length_le
    exact ⟨by omega, fun _ => hldf⟩
  · have hmore : (found ++ [c]).Pairwise RomBefore :=
      List.pairwise_append.mpr ⟨h.ascending, List.pairwise_singleton _ _, by simpa using hleft⟩
    have hle : (found ++ [c]).length ≤ codes.length :=
      ((nodup_of_ascending hmore).subperm (List.append_subset.mpr ⟨h.sound, by simpa using hc⟩)).length_le
    simp only [List.length_append, List.length_singleton] at hle
    exact ⟨by omega, fun hroom => by omega⟩

/-- On an empty line SEARCH_FIRST fails, and the enumeration reports nothing (R102, R270). -/
theorem enumerateDevices_empty {s : State} (hidle : s.busy = false) (hrun : s.inReset = false)
    (hbus : s.bus = .reference [] false) (capacity : Nat) : (enumerateDevices capacity s).1 = [] := by
  have ho : (s.accept (encode .searchFirst)).bus.resetAnswer (s.accept (encode .searchFirst)).history = .noPresence := by
    simp [hbus, Bus.resetAnswer]
  obtain ⟨u, hu, hsres, -⟩ := exec_searchFirst_of_reset_failed ho (by decide)
  obtain ⟨es, hframe⟩ := exec_next hu
  have hrun' : u.complete.inReset = false := hframe.inReset.trans hrun
  obtain ⟨hstatus, -⟩ := hostRead_status_search (s := u.complete) hrun' rfl
  rw [show u.complete.sres = .failed from hsres] at hstatus
  unfold enumerateDevices
  rw [hostDo_eq (i := .searchFirst) rfl hidle hrun hu]
  cases capacity with
  | zero => rfl
  | succ room => rw [if_neg (by omega), enumerateLoop, hstatus, if_pos (by decide)]

/-- Settles O48: an empty line reports nothing; on any other the loop enumerates from the least code on. -/
theorem enumerationFindsEveryDeviceInOrder : Obligations.EnumerationFindsEveryDeviceInOrder := by
  unfold Obligations.EnumerationFindsEveryDeviceInOrder
  intro s devices capacity hidle hrun hbus hnodup hvalid found
  rcases eq_or_ne devices [] with rfl | hne
  · have hnone : found = [] := enumerateDevices_empty hidle hrun hbus capacity
    simp [hnone]
  cases capacity with
  | zero =>
    have hnone : found = [] := rfl
    simp [hnone, hne]
  | succ room =>
    have hcodes : devices.map (·.romCode) ≠ [] := mt List.map_eq_nil_iff.mp hne
    have hvalid' : ∀ c ∈ devices.map (·.romCode), romValid c = true ∧ c ≠ 0 := List.forall_mem_map.mpr hvalid
    obtain ⟨hreports, hleast⟩ := hostDo_searchFirst_reports hcodes hvalid' hidle hrun ⟨devices, hbus, rfl⟩
    have henum := hreports.enumerateLoop hcodes hvalid' room
    obtain ⟨hlength, hldf⟩ := henum.length_eq hnodup hleast
    rw [List.length_map] at hlength hldf
    refine ⟨henum.ascending, hlength, fun r hr => List.mem_map.mp (henum.sound r hr), fun d hd => ?_, fun _ => hldf⟩
    have hd' := List.mem_map_of_mem (f := (·.romCode)) hd
    exact henum.complete d.romCode hd' (hleast d.romCode hd')

end Sys2Proof.Machine
end

section
/-!
The host sequences on any bus (43_host_sequences.md): the validation of a ROM Code (R261), a selector whose presence check is
good or failed (R262 to R264), and the conversion pass (R265).
-/

namespace Sys2Proof.Machine

open Sys2Proof.Claims

/-! ## The validation of a ROM Code (R261) -/

/-- `DO CRC_CLEAR` on an idle block. -/
theorem hostDo_crcClear {s : State} (hidle : s.busy = false) (hrun : s.inReset = false) :
    hostDo .crcClear s = { s with acc := 0, cmdLast := 0x0006, pending := none } := by
  rw [hostDo_eq (i := .crcClear) rfl hidle hrun rfl]
  simp only [State.complete, State.setAcc, State.accept, hidle]
  rfl

/-- `DO CRC_STEP v` on an idle block. -/
theorem hostDo_crcStep {s : State} (v : Byte) (hidle : s.busy = false) (hrun : s.inReset = false) :
    hostDo (.crcStep v) s = { s with
      acc := crcStep s.acc v, cmdLast := (encode (.crcStep v)).extractLsb' 0 16, pending := none } := by
  rw [hostDo_eq (i := .crcStep v) rfl hidle hrun (exec_crcStep v _)]
  simp only [State.complete, State.setAcc, State.accept, hidle]

/-- A sequence of `DO CRC_STEP` lines folds its bytes into the accumulator, and otherwise writes CMD only. -/
theorem hostDoAll_crcSteps (bytes : List Byte) {s : State} (hidle : s.busy = false) (hrun : s.inReset = false) :
    ∃ cmd pending, hostDoAll (bytes.map .crcStep) s =
      { s with acc := bytes.foldl crcStep s.acc, cmdLast := cmd, pending := pending } := by
  induction bytes generalizing s with
  | nil => exact ⟨s.cmdLast, s.pending, rfl⟩
  | cons v bytes ih =>
    rw [List.map_cons, hostDoAll, hostDo_crcStep v hidle hrun]
    exact ih hidle hrun

/-- The lines of R261 leave the checksum of the bytes in the accumulator, and otherwise write CMD only. -/
theorem hostDoAll_crc8 (bytes : List Byte) {s : State} (hidle : s.busy = false) (hrun : s.inReset = false) :
    ∃ cmd pending, hostDoAll (.crcClear :: bytes.map .crcStep) s =
      { s with acc := crc8 bytes, cmdLast := cmd, pending := pending } := by
  rw [hostDoAll, hostDo_crcClear hidle hrun]
  exact hostDoAll_crcSteps bytes hidle hrun

/-- CRC, read while no command executes, is the accumulator (R43). -/
theorem hostRead_crc_byte {s : State} (hidle : s.busy = false) (hrun : s.inReset = false) :
    (hostRead .crc s).extractLsb' 0 8 = s.acc := by
  obtain ⟨b, hword, hb⟩ := hostRead_crc hrun
  rw [hword, byte_register, hb hidle]

/-- The sequence of R261 answers validity and performs no slot: it writes CMD and the accumulator only. -/
theorem validateRom_eq (r : Rom) {s : State} (hidle : s.busy = false) (hrun : s.inReset = false) :
    ∃ cmd pending, validateRom r s =
      (romValid r, { s with acc := crc8 ((romBytes r).take 7), cmdLast := cmd, pending := pending }) := by
  obtain ⟨cmd, pending, ht⟩ := hostDoAll_crc8 ((romBytes r).take 7) hidle hrun
  refine ⟨cmd, pending, ?_⟩
  unfold validateRom
  rw [ht]
  exact congrArg (fun b => (b == romByte r 7, _)) (hostRead_crc_byte hidle hrun)

/-- Settles O53: the accumulator ends as the checksum of bytes 0 to 6, which the host compares with byte 7. -/
theorem validateRomSequenceDecidesValidity : Obligations.ValidateRomSequenceDecidesValidity := by
  unfold Obligations.ValidateRomSequenceDecidesValidity
  intro s r hidle hrun
  obtain ⟨cmd, pending, h⟩ := validateRom_eq r hidle hrun
  rw [h]
  exact ⟨rfl, rfl, rfl⟩

/-! ## A failed presence check (R262) -/

/-- A selector writes its bytes after its presence check (R263, R264). -/
theorem selectorWrites_eq {sel : Selector} {bytes : List Byte} (h : SelectorWrites sel bytes) :
    sel = afterPresence presenceCheck (bytes.map .owWriteByte) := by
  cases h <;> rfl

/-- A reading whose selector fails stops with the selector's code, before it waits for anything. -/
theorem fullReading_failed {sel : Selector} {s : State} (tConv slack : Nat) (h : (sel s).1 ≠ 1) :
    fullReading tConv slack sel s = (.failed (sel s).1, (sel s).2) := by
  simp only [fullReading, convertTemperature, afterPresence_failed _ h, if_neg h]

/-- A selector stops where the presence check fails. -/
theorem selectorWrites_failed {sel : Selector} {bytes : List Byte} (h : SelectorWrites sel bytes) {s : State}
    (hcheck : (presenceCheck s).1 ≠ 1) : sel s = presenceCheck s := by
  rw [selectorWrites_eq h, afterPresence_failed _ hcheck]

/-- Settles O56: `init` is the presence check, and both readings stop at theirs. -/
theorem failedPresenceIsReportedAndStops : Obligations.FailedPresenceIsReportedAndStops := by
  unfold Obligations.FailedPresenceIsReportedAndStops
  intro tConv slack r s hidle hrun hfail o code t
  have hcheck : presenceCheck s = (code, t) := by
    rw [presenceCheck_eq hidle hrun]
    cases ho : s.bus.resetAnswer s.history with
    | ok => exact absurd ho hfail
    | noPresence => simp [code, t, o, ho, State.slot, Pres.ofOutcome, Pres.code]
    | releaseFailure => simp [code, t, o, ho, State.slot, Pres.ofOutcome, Pres.code]
  have hcode : (presenceCheck s).1 ≠ 1 := by
    rw [hcheck]
    change (if o = .noPresence then 2 else 3 : BitVec 2) ≠ 1
    split <;> decide
  have hreading : ∀ {sel bytes}, SelectorWrites sel bytes → fullReading tConv slack sel s = (.failed code, t) :=
    fun hsel => by
      have hsel' := selectorWrites_failed hsel hcode
      rw [fullReading_failed _ _ (hsel' ▸ hcode), hsel', hcheck]
  exact ⟨hcheck, hreading .skip, hreading (.matchRom r)⟩

/-! ## A conversion pass (R265) -/

/-- A conversion pass where the reset slot is answered OK: the slots of the selector's bytes and 0x44, and the wait. -/
theorem convertTemperature_ok {sel : Selector} {bytes : List Byte} (h : SelectorWrites sel bytes) (tConv slack : Nat)
    {s : State} (hidle : s.busy = false) (hrun : s.inReset = false) (hok : s.bus.resetAnswer s.history = .ok) :
    convertTemperature tConv slack sel s = (1, { s with
      cmdLast := 0x4404, pending := none, pres := .ok, drive := .released
      history := s.history ++ .rst .ok :: writeEvents (bytes ++ [0x44])
      bus := s.bus.afterAll (.rst .ok :: writeEvents (bytes ++ [0x44]))
      hostClock := s.hostClock + (tConv + slack) }) := by
  have hbegun := afterPresence_ok (bytes := bytes) 0x44 hidle hrun hok
  rw [← selectorWrites_eq h] at hbegun
  simp only [convertTemperature, hbegun, if_true, hostWait, State.letPass,
    State.slots_eq_of_ne_nil (List.cons_ne_nil _ _)]
  rfl

/-- Settles O55: the pass as above; the host's timer advances by T_CONV and what it waits longer. -/
theorem conversionPassWritesItsBytesAndWaits : Obligations.ConversionPassWritesItsBytesAndWaits := by
  unfold Obligations.ConversionPassWritesItsBytesAndWaits
  intro tConv slack sel bytes s hsel hidle hrun hok converted
  have hconverted := convertTemperature_ok hsel tConv slack hidle hrun hok
  have hclock : converted.2.hostClock = s.hostClock + (tConv + slack) :=
    congrArg (fun x => x.2.hostClock) hconverted
  refine ⟨congrArg Prod.fst hconverted, ?_, by omega⟩
  rw [hclock]
  refine (congrArg Prod.snd hconverted).trans ?_
  have hslots : ∀ bs, writeEvents bs = byteSlots bs := fun bs => by
    simp only [writeEvents, byteSlots, byteBits, List.map_map, Function.comp_def]
  rw [hslots]

end Sys2Proof.Machine
end

section
/-!
The temperature decode of R268: two's complement in sixteenths of a degree, and the binary32 pattern of a number of
sixteenths.
-/

namespace Sys2Proof.Machine

open Sys2Proof.Claims

/-! ## Two's complement -/

/-- The decode of R268 over the whole 16-bit value: complement and add one where the sign bit is set. -/
theorem toInt_eq_complement (v : BitVec 16) :
    v.toInt = if v.getLsbD 15 then -((~~~v + 1#16).toNat : Int) else (v.toNat : Int) := by
  have hsign : v.getLsbD 15 = decide (2 ^ 15 ≤ v.toNat) := BitVec.msb_eq_decide v
  have hneg : (~~~v + 1#16).toNat = (2 ^ 16 - v.toNat) % 2 ^ 16 := by
    rw [← BitVec.neg_eq_not_add, BitVec.toNat_neg]
  have hlt := v.isLt
  rw [hsign, hneg, BitVec.toInt_eq_toNat_cond]
  by_cases hv : 2 ^ 15 ≤ v.toNat
  · simp only [hv, decide_true, if_true]
    omega
  · simp only [hv, decide_false, Bool.false_eq_true, if_false]
    omega

theorem decodeTemperature_eq_toInt (lsb msb : Byte) : decodeTemperature lsb msb = (msb ++ lsb).toInt :=
  (toInt_eq_complement (msb ++ lsb)).symm

/-! ## The binary32 pattern -/

/-- A binary32 word put together from sign, exponent and fraction has them as its fields. -/
theorem binary32_fields {w : Word} {sign exponent fraction : Nat} (hs : sign < 2) (he : exponent < 2 ^ 8)
    (hf : fraction < 2 ^ 23) (hw : w.toNat = sign * 2 ^ 31 + exponent * 2 ^ 23 + fraction) :
    w.getLsbD 31 = decide (sign = 1) ∧ (w.extractLsb' 23 8).toNat = exponent ∧ (w.extractLsb' 0 23).toNat = fraction := by
  have hsign : w.getLsbD 31 = decide (2 ^ 31 ≤ w.toNat) := BitVec.msb_eq_decide w
  refine ⟨?_, ?_, ?_⟩
  · rw [hsign, hw]
    exact decide_eq_decide.mpr (by omega)
  · rw [BitVec.extractLsb'_toNat, hw, Nat.shiftRight_eq_div_pow]
    omega
  · rw [BitVec.extractLsb'_toNat, hw, Nat.shiftRight_zero]
    omega

/-- The magnitude, shifted until its highest bit is bit 23: that bit is the hidden one, the rest is the fraction. -/
theorem normalized_magnitude {m : Nat} (h0 : m ≠ 0) (hm : m ≤ 32768) :
    m.log2 ≤ 15 ∧ 2 ^ 23 ≤ m * 2 ^ (23 - m.log2) ∧ m * 2 ^ (23 - m.log2) < 2 ^ 24 := by
  have hlog : m.log2 < 16 := (Nat.log2_lt h0).mpr (by omega)
  have hsplit : 2 ^ m.log2 * 2 ^ (23 - m.log2) = 2 ^ 23 := by rw [← pow_add]; congr 1; omega
  have hsplit' : 2 ^ (m.log2 + 1) * 2 ^ (23 - m.log2) = 2 ^ 24 := by rw [← pow_add]; congr 1; omega
  refine ⟨by omega, ?_, ?_⟩
  · rw [← hsplit]
    exact Nat.mul_le_mul_right _ (Nat.log2_self_le h0)
  · rw [← hsplit']
    exact Nat.mul_lt_mul_of_pos_right Nat.lt_log2_self (by positivity)

/-- The pattern is exact wherever the magnitude fits the fraction with the hidden bit (R268). -/
theorem isBinary32_binary32OfSixteenths {n : Int} (hn : n.natAbs ≤ 32768) :
    IsBinary32OfSixteenths (binary32OfSixteenths n) n := by
  refine ⟨fun h0 => by rw [h0]; rfl, fun h0 => ?_⟩
  obtain ⟨hlog, hlow, hhigh⟩ := normalized_magnitude (Int.natAbs_ne_zero.mpr h0) hn
  have hword : (binary32OfSixteenths n).toNat = (if n < 0 then 1 else 0) * 2 ^ 31 +
      (123 + n.natAbs.log2) * 2 ^ 23 + (n.natAbs * 2 ^ (23 - n.natAbs.log2) - 2 ^ 23) := by
    rw [binary32OfSixteenths, if_neg h0, BitVec.toNat_ofNat, Nat.mod_eq_of_lt]
    · rw [ite_mul, one_mul, zero_mul]
    · split <;> omega
  obtain ⟨hsign, hexponent, hfraction⟩ :=
    binary32_fields (by split <;> omega) (by omega) (by omega) hword
  have hpower : 23 - n.natAbs.log2 + (123 + n.natAbs.log2) = 127 + 23 - 4 := by omega
  rw [hsign, hexponent, hfraction, Nat.add_sub_cancel' hlow, mul_assoc, ← pow_add, hpower]
  refine ⟨?_, by omega, by omega, rfl⟩
  by_cases hneg : n < 0 <;> simp [hneg]

/-- Settles O54: complement and add one is negation, and the pattern's fields carry the shifted magnitude. -/
theorem temperatureDecodeIsTwosComplement : Obligations.TemperatureDecodeIsTwosComplement :=
  ⟨decodeTemperature_eq_toInt, fun _ => isBinary32_binary32OfSixteenths⟩

end Sys2Proof.Machine
end

section
/-!
A temperature reading on a healthy reference line (R266, R271, R272): what the bytes of a pass make of each device (R103,
R105), what the sending devices answer (R105, R107), and the reading as a whole.
-/

namespace Sys2Proof.Machine

open Sys2Proof.Claims

/-! ## One device along a sequence of events -/

/-- What a sequence of events, oldest first, does to a device. -/
def Device.afterAll (es : List BusEvent) (d : Device) : Device := es.foldl (fun d e => d.after e) d

@[simp] theorem Device.afterAll_nil (d : Device) : d.afterAll [] = d := rfl

@[simp] theorem Device.afterAll_cons (e : BusEvent) (es : List BusEvent) (d : Device) :
    d.afterAll (e :: es) = (d.after e).afterAll es := rfl

theorem Device.afterAll_append (es fs : List BusEvent) (d : Device) :
    d.afterAll (es ++ fs) = (d.afterAll es).afterAll fs := List.foldl_append

theorem Bus.afterAll_devices (es : List BusEvent) (devices : List Device) (stuckLow : Bool) :
    (Bus.reference devices stuckLow).afterAll es = .reference (devices.map (Device.afterAll es)) stuckLow :=
  Bus.afterAll_reference_eq es devices stuckLow

/-- Events that leave a device as it is, one by one, leave it as it is. -/
theorem Device.afterAll_eq_self {es : List BusEvent} {d : Device} (h : ∀ e ∈ es, d.after e = d) : d.afterAll es = d := by
  induction es with
  | nil => rfl
  | cons e es ih =>
    obtain ⟨hfirst, hrest⟩ := List.forall_mem_cons.mp h
    rw [Device.afterAll_cons, hfirst, ih hrest]

/-- A device that takes no part does not see write slots (R103). -/
theorem Device.after_write_ignoring {d : Device} (h : d.phase = .ignoring) (b : Bool) : d.after (.w b) = d := by
  simp [Device.after, Device.afterWrite, h]

/-- A device that takes no part does not see read slots. -/
theorem Device.after_read_ignoring {d : Device} (h : d.phase = .ignoring) (b : Bool) : d.after (.r b) = d := by
  simp [Device.after, Device.afterRead, h]

theorem Device.afterAll_writes_ignoring {d : Device} (h : d.phase = .ignoring) (bits : List Bool) :
    d.afterAll (bits.map .w) = d :=
  Device.afterAll_eq_self (List.forall_mem_map.mpr fun b _ => d.after_write_ignoring h b)

theorem Device.afterAll_reads_ignoring {d : Device} (h : d.phase = .ignoring) (bits : List Bool) :
    d.afterAll (bits.map .r) = d :=
  Device.afterAll_eq_self (List.forall_mem_map.mpr fun b _ => d.after_read_ignoring h b)

/-- A read slot moves a sender to its next bit (R105). -/
theorem Device.afterAll_reads_sending {d : Device} {n : Nat} (h : d.phase = .sending n) (bits : List Bool) :
    d.afterAll (bits.map .r) = { d with phase := .sending (n + bits.length) } := by
  induction bits generalizing d n with
  | nil => simp [← h]
  | cons b bits ih =>
    have hfirst : d.after (.r b) = { d with phase := .sending (n + 1) } := by simp [Device.after, Device.afterRead, h]
    rw [List.map_cons, Device.afterAll_cons, hfirst, ih rfl, List.length_cons, Nat.add_assoc, Nat.add_comm 1]

/-! ## The bytes of a pass (R103, R105) -/

theorem byteOfBits_byteBits (v : Byte) : byteOfBits (byteBits v) = v := by
  refine BitVec.eq_of_getLsbD_eq fun i hi => ?_
  have hlen : (byteBits v).length = 8 := by simp [byteBits]
  rw [getLsbD_byteOfBits hlen (hlen ▸ hi)]
  simp [byteBits]

/-- Eight write slots complete a ROM command byte (R103). -/
theorem Device.afterAll_romCommand {d : Device} (h : d.phase = .romCommand []) (v : Byte) :
    d.afterAll ((byteBits v).map .w) = d.romCommandByte v := by
  conv_rhs => rw [← byteOfBits_byteBits v]
  simp [byteBits, List.range_succ, Device.after, Device.afterWrite, h, Device.romCommandByte]

/-- Eight write slots complete a function command byte (R105). -/
theorem Device.afterAll_function {d : Device} (h : d.phase = .function []) (v : Byte) :
    d.afterAll ((byteBits v).map .w) = d.functionByte v := by
  conv_rhs => rw [← byteOfBits_byteBits v]
  simp [byteBits, List.range_succ, Device.after, Device.afterWrite, h, Device.functionByte]

/-- The ROM Code in the 64 write slots of Match ROM, position 1 first (R98, R264). -/
theorem writeEvents_romBytes (r : Rom) :
    writeEvents (romBytes r) = ((List.range' 1 64).map (romBit r)).map .w := by
  simp [writeEvents, romBytes, byteBits, List.range_succ, List.range', romByte, romBit]

/-- One position of a Match ROM (R103). -/
theorem Device.after_matchRom {d : Device} {p : Nat} (h : d.phase = .matchRom p) (b : Bool) :
    d.after (.w b) = { d with
      phase := if romBit d.romCode p ≠ b then .ignoring else if p < 64 then .matchRom (p + 1) else .function [] } := by
  simp only [Device.after, Device.afterWrite, h]
  split
  · rfl
  · split <;> rfl

/-- The rest of a Match ROM, from position p on: a device whose ROM Code agrees there is selected, any other takes no part
(R103). -/
theorem Device.afterAll_matchRom {r : Rom} {n p : Nat} (hn : p + n = 64) {d : Device} (h : d.phase = .matchRom p) :
    d.afterAll (((List.range' p (n + 1)).map (romBit r)).map .w) =
      { d with phase := if ∀ q, p ≤ q → q ≤ 64 → romBit d.romCode q = romBit r q then .function [] else .ignoring } := by
  induction n generalizing p d with
  | zero =>
    obtain rfl : p = 64 := hn
    have hlast : (∀ q, 64 ≤ q → q ≤ 64 → romBit d.romCode q = romBit r q) ↔ romBit d.romCode 64 = romBit r 64 :=
      ⟨fun hq => hq 64 le_rfl le_rfl, fun hq q h1 h2 => (Nat.le_antisymm h2 h1) ▸ hq⟩
    simp [List.range', Device.after_matchRom h, hlast]
  | succ n ih =>
    rw [List.range'_succ, List.map_cons, List.map_cons, Device.afterAll_cons, Device.after_matchRom h]
    by_cases hbit : romBit d.romCode p = romBit r p
    · rw [if_neg (not_not.mpr hbit), if_pos (by omega), ih (by omega) rfl]
      have hrest : (∀ q, p ≤ q → q ≤ 64 → romBit d.romCode q = romBit r q) ↔
          ∀ q, p + 1 ≤ q → q ≤ 64 → romBit d.romCode q = romBit r q :=
        ⟨fun hq q h1 => hq q (by omega), fun hq q h1 => (Nat.eq_or_lt_of_le h1).elim (fun he _ => he ▸ hbit) (hq q)⟩
      simp only [hrest]
    · rw [if_pos hbit, Device.afterAll_writes_ignoring rfl, if_neg fun hq => hbit (hq p le_rfl (by omega))]

/-! ## Selection (R263, R264) -/

/-- A reset slot and the selector's bytes leave the devices with a chosen ROM Code waiting for a function command, and the
others without a part in it (R103). -/
def Selects (bytes : List Byte) (chosen : Rom → Bool) : Prop :=
  ∀ d : Device, d.afterAll (.rst .ok :: writeEvents bytes) =
    { d with phase := if chosen d.romCode then .function [] else .ignoring }

/-- Skip ROM selects every device (R103, R263). -/
theorem selects_skipRom : Selects [0xCC] fun _ => true := fun d => by
  have hbytes : writeEvents [0xCC] = (byteBits 0xCC).map .w := List.append_nil _
  rw [Device.afterAll_cons, hbytes, Device.afterAll_romCommand rfl]
  rfl

/-- Match ROM selects the devices with the ROM Code sent (R103, R264). -/
theorem selects_matchRom (r : Rom) : Selects (0x55 :: romBytes r) fun c => decide (c = r) := fun d => by
  have hbytes : writeEvents (0x55 :: romBytes r) = (byteBits 0x55).map .w ++ writeEvents (romBytes r) := List.flatMap_cons
  have hcode : (d.after (.rst .ok)).romCommandByte 0x55 = { d with phase := .matchRom 1 } := rfl
  have hall : (∀ q, 1 ≤ q → q ≤ 64 → romBit d.romCode q = romBit r q) ↔ d.romCode = r :=
    ⟨rom_ext, fun he _ _ _ => he ▸ rfl⟩
  rw [Device.afterAll_cons, hbytes, Device.afterAll_append, Device.afterAll_romCommand rfl, hcode, writeEvents_romBytes,
    Device.afterAll_matchRom (n := 63) rfl rfl]
  simp only [hall, decide_eq_true_eq]

/-- The events of a pass: the presence check, the selector's bytes and the function command byte (R265, R266). -/
def passOf (bytes : List Byte) (command : Byte) : List BusEvent := .rst .ok :: writeEvents (bytes ++ [command])

section
variable {bytes : List Byte} {chosen : Rom → Bool} (h : Selects bytes chosen)
include h

/-- A pass gives its function command to the devices chosen. -/
theorem Selects.afterAll_passOf (command : Byte) (d : Device) : d.afterAll (passOf bytes command) =
    if chosen d.romCode then d.functionByte command else { d with phase := .ignoring } := by
  have hbytes : passOf bytes command = (.rst .ok :: writeEvents bytes) ++ (byteBits command).map .w := by
    simp [passOf, writeEvents]
  rw [hbytes, Device.afterAll_append, h d]
  split
  · rw [Device.afterAll_function rfl]
    rfl
  · exact Device.afterAll_writes_ignoring rfl _

/-- A conversion pass: the devices chosen copy their temperature to the scratchpad (R105). -/
theorem Selects.afterAll_convert (d : Device) : d.afterAll (passOf bytes 0x44) =
    if chosen d.romCode then { d with scratchpad := d.temperature, phase := .unknown } else { d with phase := .ignoring } :=
  h.afterAll_passOf 0x44 d

/-- A read pass: the devices chosen send their scratchpad (R105). -/
theorem Selects.afterAll_read (d : Device) : d.afterAll (passOf bytes 0xBE) =
    { d with phase := if chosen d.romCode then .sending 0 else .ignoring } := by
  rw [h.afterAll_passOf 0xBE d]
  split <;> rfl

end

/-! ## What the senders answer (R105 to R107) -/

/-- Some devices send the scratchpad `v`, from bit `n` on, and the others take no part. -/
structure Sends (v : BitVec 16) (n : Nat) (devices : List Device) : Prop where
  phase : ∀ d ∈ devices, d.phase = .sending n ∨ d.phase = .ignoring
  scratchpad : ∀ d ∈ devices, d.phase = .sending n → d.scratchpad = v
  sender : ∃ d ∈ devices, d.phase = .sending n

/-- The read slots that sample the bits of `v` from bit `n` on, `k` of them. -/
def readEvents (v : BitVec 16) (n k : Nat) : List BusEvent := ((List.range' n k).map v.getLsbD).map .r

/-- Devices that send the same bit give that bit (R107). -/
theorem Sends.readAnswer {v : BitVec 16} {n : Nat} {devices : List Device} (h : Sends v n devices) (hn : n < 16)
    (history : List BusEvent) : (Bus.reference devices false).readAnswer history = v.getLsbD n := by
  rw [Bool.eq_iff_iff, readAnswer_eq_true history h.phase fun d => Device.pull_sending hn]
  obtain ⟨d, hd, hsending⟩ := h.sender
  constructor
  · intro hall
    rw [← h.scratchpad d hd hsending]
    exact hall d hd hsending
  · intro hbit e he hsending'
    rw [h.scratchpad e he hsending', hbit]

/-- Read slots move the senders on. -/
theorem Sends.afterAll_reads {v : BitVec 16} {n : Nat} {devices : List Device} (h : Sends v n devices)
    (bits : List Bool) : Sends v (n + bits.length) (devices.map (Device.afterAll (bits.map .r))) where
  phase := List.forall_mem_map.mpr fun d hd => (h.phase d hd).imp
    (fun hs => by rw [Device.afterAll_reads_sending hs]) (fun hi => by rw [Device.afterAll_reads_ignoring hi, hi])
  scratchpad := List.forall_mem_map.mpr fun d hd hs' => by
    rcases h.phase d hd with hs | hi
    · rw [Device.afterAll_reads_sending hs]
      exact h.scratchpad d hd hs
    · rw [Device.afterAll_reads_ignoring hi, hi] at hs'
      cases hs'
  sender := by
    obtain ⟨d, hd, hs⟩ := h.sender
    exact ⟨_, List.mem_map_of_mem hd, by rw [Device.afterAll_reads_sending hs]⟩

/-- The senders answer a run of read slots with their bits in order. -/
theorem Sends.readSlots {v : BitVec 16} {n : Nat} {devices : List Device} (h : Sends v n devices) {k : Nat}
    (hk : n + k ≤ 16) {s : State} (hbus : s.bus = .reference devices false) :
    (readSlots k s).1 = (List.range' n k).map v.getLsbD := by
  induction k generalizing n devices s with
  | zero => rfl
  | succ k ih =>
    have hfirst : (busReadSlot s).1 = v.getLsbD n := by
      rw [busReadSlot_fst, hbus, h.readAnswer (by omega)]
    have hrest := ih (h.afterAll_reads [(busReadSlot s).1]) (by simp; omega) (s := (busReadSlot s).2) (by simp [hbus])
    rw [Machine.readSlots, hrest, hfirst]
    rfl

/-- Eight bits of the scratchpad in bus order are one of its bytes. -/
theorem byteOfBits_range' (v : BitVec 16) (n : Nat) : byteOfBits ((List.range' n 8).map v.getLsbD) = v.extractLsb' n 8 := by
  refine BitVec.eq_of_getLsbD_eq fun i hi => ?_
  rw [getLsbD_byteOfBits (by simp) (by simpa using hi)]
  simp [hi]

/-! ## The host's lines on a healthy line -/

/-- DATA, read while no command executes, is the byte read last (R42). -/
theorem hostRead_data_byte {s : State} (hidle : s.busy = false) (hrun : s.inReset = false) :
    (hostRead .data s).extractLsb' 0 8 = s.data := by
  obtain ⟨b, hword, hb⟩ := hostRead_data hrun
  rw [hword, byte_register, hb hidle]

/-- The block is idle on a healthy line of these devices. -/
structure IdleOn (devices : List Device) (s : State) : Prop where
  idle : s.busy = false
  running : s.inReset = false
  bus : s.bus = .reference devices false

section
variable {devices : List Device} {s : State} (h : IdleOn devices s)
include h

/-- `DO OW_READ_BYTE` while the devices send: the next byte of the scratchpad. -/
theorem IdleOn.hostDo_owReadByte {v : BitVec 16} {n : Nat} (hsends : Sends v n devices) (hn : n + 8 ≤ 16) :
    (hostDo .owReadByte s).data = v.extractLsb' n 8 ∧
      IdleOn (devices.map (Device.afterAll (readEvents v n 8))) (hostDo .owReadByte s) := by
  have hbits := hsends.readSlots hn (s := s.accept (encode .owReadByte)) h.bus
  rw [hostDo_eq (i := .owReadByte) rfl h.idle h.running (exec_owReadByte _), hbits]
  refine ⟨byteOfBits_range' v n, rfl, ?_, ?_⟩
  · simp [State.slots_eq, h.running]
  · simp [h.bus, Bus.afterAll_devices, readEvents]

/-- The two bytes of R266 are the low and the high byte of the scratchpad. -/
theorem IdleOn.readTwoBytes {v : BitVec 16} (hsends : Sends v 0 devices) :
    ∃ t, readTwoBytes s = (v.extractLsb' 0 8, v.extractLsb' 8 8, t) ∧
      IdleOn (devices.map (Device.afterAll (readEvents v 0 16))) t := by
  obtain ⟨hlow, hfirst⟩ := h.hostDo_owReadByte hsends (by omega)
  have hsends' : Sends v 8 (devices.map (Device.afterAll (readEvents v 0 8))) :=
    hsends.afterAll_reads ((List.range' 0 8).map v.getLsbD)
  obtain ⟨hhigh, hsecond⟩ := hfirst.hostDo_owReadByte hsends' (by omega)
  refine ⟨hostDo .owReadByte (hostDo .owReadByte s), ?_, ?_⟩
  · rw [Machine.readTwoBytes, hostRead_data_byte hfirst.idle hfirst.running, hlow,
      hostRead_data_byte hsecond.idle hsecond.running, hhigh]
  · have hevents : readEvents v 0 16 = readEvents v 0 8 ++ readEvents v 8 8 := rfl
    have hdevice : Device.afterAll (readEvents v 0 16) =
        Device.afterAll (readEvents v 8 8) ∘ Device.afterAll (readEvents v 0 8) :=
      funext fun d => by rw [hevents, Device.afterAll_append, Function.comp_apply]
    rwa [hdevice, ← List.map_map]

/-- A healthy line with a device answers its reset slot OK (R102). -/
theorem IdleOn.resetAnswer (hne : devices ≠ []) : s.bus.resetAnswer s.history = .ok := by
  simp [h.bus, Bus.resetAnswer, hne]

section
variable {sel : Selector} {bytes : List Byte} (hsel : SelectorWrites sel bytes) (hne : devices ≠ [])
include hsel hne

/-- A conversion pass on a healthy line. -/
theorem IdleOn.convertTemperature (tConv slack : Nat) : ∃ t, convertTemperature tConv slack sel s = (1, t) ∧
    IdleOn (devices.map (Device.afterAll (passOf bytes 0x44))) t := by
  refine ⟨_, convertTemperature_ok hsel tConv slack h.idle h.running (h.resetAnswer hne), h.idle, h.running, ?_⟩
  change s.bus.afterAll (passOf bytes 0x44) = _
  rw [h.bus, Bus.afterAll_devices]

/-- A selector and a Read Scratchpad on a healthy line. -/
theorem IdleOn.beginRead : ∃ t, afterPresence sel [.owWriteByte 0xBE] s = (1, t) ∧
    IdleOn (devices.map (Device.afterAll (passOf bytes 0xBE))) t := by
  have hbegun := afterPresence_ok (bytes := bytes) 0xBE h.idle h.running (h.resetAnswer hne)
  rw [← selectorWrites_eq hsel] at hbegun
  refine ⟨_, hbegun, ?_, ?_, ?_⟩
  · simp [State.slots_eq, h.idle]
  · simp [State.slots_eq, h.running]
  · change (s.slots (passOf bytes 0xBE)).bus = _
    rw [State.slots_bus, h.bus, Bus.afterAll_devices]

end

/-- A read pass on a healthy line: the value that the devices selected send, decoded (R266, R268). -/
theorem IdleOn.readTemperature {sel : Selector} {bytes : List Byte} (hsel : SelectorWrites sel bytes) {v : BitVec 16}
    (hsends : Sends v 0 (devices.map (Device.afterAll (passOf bytes 0xBE)))) :
    ∃ t, readTemperature sel s = (.celsius (binary32OfSixteenths v.toInt), t) ∧
      IdleOn (devices.map fun d => (d.afterAll (passOf bytes 0xBE)).afterAll (readEvents v 0 16)) t := by
  have hne : devices ≠ [] := by
    obtain ⟨d, hd, -⟩ := hsends.sender
    rintro rfl
    cases hd
  obtain ⟨t, hbegun, ht⟩ := h.beginRead hsel hne
  obtain ⟨u, htwo, hu⟩ := ht.readTwoBytes hsends
  have hvalue : v.extractLsb' 8 8 ++ v.extractLsb' 0 8 = v :=
    (BitVec.extractLsb'_append_extractLsb'_eq_extractLsb' rfl).trans BitVec.extractLsb'_eq_self
  refine ⟨u, ?_, by simpa [Function.comp_def] using hu⟩
  simp only [Machine.readTemperature, hbegun, if_true, htwo, decodeTemperature_eq_toInt, hvalue]

end

/-! ## A full reading (R271, R272) -/

/-- The devices after a full reading: those chosen have converted and sent 16 bits, the others take no part. -/
def afterReading (chosen : Rom → Bool) (d : Device) : Device :=
  if chosen d.romCode then { d with scratchpad := d.temperature, phase := .sending 16 } else { d with phase := .ignoring }

section
variable {bytes : List Byte} {chosen : Rom → Bool} (hselects : Selects bytes chosen)
include hselects

/-- A conversion pass and a read pass: the devices chosen send their temperature. -/
theorem Selects.afterAll_convert_read (d : Device) :
    (d.afterAll (passOf bytes 0x44)).afterAll (passOf bytes 0xBE) =
      if chosen d.romCode then { d with scratchpad := d.temperature, phase := .sending 0 }
      else { d with phase := .ignoring } := by
  rw [hselects.afterAll_read, hselects.afterAll_convert]
  split <;> simp_all

/-- A full reading, one device. -/
theorem Selects.afterAll_reading (v : BitVec 16) (d : Device) :
    ((d.afterAll (passOf bytes 0x44)).afterAll (passOf bytes 0xBE)).afterAll (readEvents v 0 16) =
      afterReading chosen d := by
  rw [hselects.afterAll_convert_read, afterReading, readEvents]
  split
  · rw [Device.afterAll_reads_sending rfl]
    simp
  · exact Device.afterAll_reads_ignoring rfl _

/-- Where the devices chosen have one temperature, it is what they send after the two passes. -/
theorem Selects.sends {devices : List Device} {v : BitVec 16}
    (hvalue : ∀ d ∈ devices, chosen d.romCode = true → d.temperature = v)
    (hsome : ∃ d ∈ devices, chosen d.romCode = true) :
    Sends v 0 ((devices.map (Device.afterAll (passOf bytes 0x44))).map (Device.afterAll (passOf bytes 0xBE))) := by
  rw [List.map_map]
  simp only [Function.comp_def, hselects.afterAll_convert_read]
  refine ⟨List.forall_mem_map.mpr fun d _ => ?_, List.forall_mem_map.mpr fun d hd => ?_, ?_⟩
  · split
    · exact .inl rfl
    · exact .inr rfl
  · split
    next hchosen => exact fun _ => hvalue d hd hchosen
    next => nofun
  · obtain ⟨d, hd, hchosen⟩ := hsome
    exact ⟨_, List.mem_map_of_mem hd, by rw [if_pos hchosen]⟩

/-- A full reading on a healthy line gives the temperature of the devices chosen (R271, R272). -/
theorem Selects.fullReading {sel : Selector} (hsel : SelectorWrites sel bytes) (tConv slack : Nat)
    {devices : List Device} {s : State} (h : IdleOn devices s) {v : BitVec 16}
    (hvalue : ∀ d ∈ devices, chosen d.romCode = true → d.temperature = v)
    (hsome : ∃ d ∈ devices, chosen d.romCode = true) :
    ∃ t, fullReading tConv slack sel s = (.celsius (binary32OfSixteenths v.toInt), t) ∧
      IdleOn (devices.map (afterReading chosen)) t := by
  have hne : devices ≠ [] := by
    obtain ⟨d, hd, -⟩ := hsome
    rintro rfl
    cases hd
  obtain ⟨t, hconverted, ht⟩ := h.convertTemperature hsel hne tConv slack
  obtain ⟨u, hread, hu⟩ := ht.readTemperature hsel (hselects.sends hvalue hsome)
  refine ⟨u, ?_, ?_⟩
  · simp only [Machine.fullReading, hconverted, if_true, hread]
  · simpa only [List.map_map, Function.comp_def, hselects.afterAll_reading] using hu

end

theorem isBinary32_of_temperature (v : BitVec 16) : IsBinary32OfSixteenths (binary32OfSixteenths v.toInt) v.toInt := by
  refine isBinary32_binary32OfSixteenths ?_
  have hlow := BitVec.le_toInt v
  have hhigh := BitVec.toInt_lt (x := v)
  omega

/-- A full reading of a single device, and what it leaves: the block idle, the device with the same temperature. -/
theorem readTemperatureSingle_eq (tConv slack : Nat) {d : Device} {s : State} (h : IdleOn [d] s) :
    ∃ t, readTemperatureSingle tConv slack s = (.celsius (binary32OfSixteenths d.temperature.toInt), t) ∧
      IdleOn [afterReading (fun _ => true) d] t :=
  selects_skipRom.fullReading .skip tConv slack h (by simp) (by simp)

/-- Settles O57: Skip ROM chooses the one device, and a reading leaves its temperature as it was. -/
theorem singleDeviceReadingIsItsTemperature : Obligations.SingleDeviceReadingIsItsTemperature := by
  unfold Obligations.SingleDeviceReadingIsItsTemperature
  intro tConv slack slack' s d hidle hrun hbus first
  obtain ⟨t, hfirst, ht⟩ := readTemperatureSingle_eq tConv slack ⟨hidle, hrun, hbus⟩
  obtain ⟨u, hsecond, -⟩ := readTemperatureSingle_eq tConv slack' ht
  refine ⟨_, isBinary32_of_temperature d.temperature, congrArg Prod.fst hfirst, ?_⟩
  have hstate : first.2 = t := congrArg Prod.snd hfirst
  rw [hstate, hsecond]
  rfl

/-- Settles O58: Match ROM chooses the one device with the ROM Code sent. -/
theorem matchRomReadingIsTheAddressedDevices : Obligations.MatchRomReadingIsTheAddressedDevices := by
  unfold Obligations.MatchRomReadingIsTheAddressedDevices
  intro tConv slack s devices d hidle hrun hbus hnodup hd reading
  have hunique : ∀ e ∈ devices, decide (e.romCode = d.romCode) = true → e.temperature = d.temperature :=
    fun e he hcode => congrArg Device.temperature (List.inj_on_of_nodup_map hnodup he hd (of_decide_eq_true hcode))
  obtain ⟨t, hreading, ht⟩ := (selects_matchRom d.romCode).fullReading (.matchRom d.romCode) tConv slack
    ⟨hidle, hrun, hbus⟩ hunique ⟨d, hd, decide_eq_true rfl⟩
  have hstate : reading.2 = t := congrArg Prod.snd hreading
  refine ⟨⟨_, isBinary32_of_temperature d.temperature, congrArg Prod.fst hreading⟩, ?_⟩
  rw [hstate, ht.bus]
  exact congrArg (Bus.reference · false)
    (List.map_congr_left fun e _ => by simp only [afterReading, decide_eq_true_eq])

end Sys2Proof.Machine
end

section
/-!
Reset at any time, also in the middle of a command (R310 to R312), and how long the slots of a command last (R328).
-/

namespace Sys2Proof.Machine

open Sys2Proof.Claims

/-! ## Reset is asserted -/

theorem runPending_eq_exec {s : State} {p : Half} {i : Instr} (hpending : s.pending = some p)
    (hdecode : decode (p.setWidth 32) = .ok i) : runPending s = exec i s := by
  simp [runPending, decodePending, hpending, hdecode]

/-- The slots the pending command would perform are those by which it lengthens the history (R99). -/
theorem pendingSlots_eq {s t : State} {full : List BusEvent} (hrun : runPending s = .next t)
    (hfull : t.history = s.history ++ full) : pendingSlots s = full := by
  simp [pendingSlots, hrun, hfull]

/-- A reset leaves nothing on the bus when no command executes. -/
theorem slotsBeforeReset_idle (k : Nat) {s : State} (hidle : s.busy = false) : slotsBeforeReset k s = [] := by
  simp [slotsBeforeReset, hidle]

/-- A reset that cuts the executing command short leaves its finished slots and `Abort` on the bus; a later one leaves
all its slots (R311; log 9). -/
theorem slotsBeforeReset_busy (k : Nat) {s : State} (hbusy : s.busy = true) (hrun : s.inReset = false) :
    slotsBeforeReset k s =
      if k < (pendingSlots s).length then (pendingSlots s).take k ++ [.abort] else pendingSlots s := by
  have hslots : slotsBeforeReset k s =
      (pendingSlots s).take k ++ if k < (pendingSlots s).length then [.abort] else [] := by
    simp [slotsBeforeReset, hbusy, hrun]
  rw [hslots]
  split
  next => rfl
  next hk => rw [List.take_of_length_le (Nat.le_of_not_lt hk), List.append_nil]

/-- What a reset leaves of a command that lengthens the history by `full` (R311; log 9). -/
theorem slotsBeforeReset_of_exec (k : Nat) {s t : State} {p : Half} {i : Instr} {full : List BusEvent}
    (hbusy : s.busy = true) (hrun : s.inReset = false) (hpending : s.pending = some p)
    (hdecode : decode (p.setWidth 32) = .ok i) (hexec : exec i s = .next t) (hfull : t.history = s.history ++ full) :
    slotsBeforeReset k s = if k < full.length then full.take k ++ [.abort] else full := by
  have hslots : pendingSlots s = full := pendingSlots_eq ((runPending_eq_exec hpending hdecode).trans hexec) hfull
  rw [slotsBeforeReset_busy k hbusy hrun, hslots]

/-- Settles O15: the reset values hold by definition; what is left on the bus is the executing command's slots, cut. -/
theorem assertedResetAbortsTheCommand : Obligations.AssertedResetAbortsTheCommand := by
  unfold Obligations.AssertedResetAbortsTheCommand
  intro s k rest
  refine ⟨assertReset k { s with inputs := rest }, slotsBeforeReset k { s with inputs := rest }, rfl,
    assertReset_atReset k _, rfl, rfl, rfl, rfl, rfl, rfl, rfl, ?_, fun p i u full => ?_⟩
  · exact slotsBeforeReset_idle k (s := { s with inputs := rest })
  · exact slotsBeforeReset_of_exec k (s := { s with inputs := rest })

/-! ## While reset is asserted, and its end -/

section
variable {s : State} (hreset : s.inReset = true)
include hreset

theorem hostWrite_inReset (r : Reg) (v : Word) : hostWrite r v s = s := by simp [hostWrite, hreset]

theorem hostRead_inReset (r : Reg) : hostRead r s = 0 := by simp [hostRead, hreset]

theorem controllerStep_inReset : controllerStep s = .next s := by simp [controllerStep, hreset]

theorem releaseReset_inReset : releaseReset s = { s.resetRegisters with inReset := false } := if_pos hreset

theorem releaseReset_atReset : (releaseReset s).AtReset := by
  rw [releaseReset_inReset hreset]
  constructor <;> rfl

end

/-- Settles O16: the accesses, the controller's turn and the end of reset, each on the state with its input served. -/
theorem assertedResetIgnoresTheHost : Obligations.AssertedResetIgnoresTheHost := by
  unfold Obligations.AssertedResetIgnoresTheHost
  intro s r v rest hreset
  have hserved : { s with inputs := rest }.inReset = true := hreset
  refine ⟨?_, ⟨{ s with inputs := rest }.respond 0, ?_, rfl⟩, controllerStep_inReset hserved,
    controllerStep_inReset (s := { s with inputs := [] }) hreset,
    releaseReset { s with inputs := rest }, rfl, releaseReset_atReset hserved, ?_⟩
  · rw [step_hostWrites, hostWrite_inReset hserved]
  · rw [step_hostReads, hostRead_inReset hreset]
  · rw [releaseReset_inReset hserved]
    exact ⟨rfl, rfl, rfl, rfl, rfl, rfl, rfl⟩

/-! ## How long the slots of a command last -/

@[simp] theorem slotsBound_nil (t : Timing) : slotsBound t [] = 0 := rfl

@[simp] theorem slotsBound_cons (t : Timing) (e : BusEvent) (es : List BusEvent) :
    slotsBound t (e :: es) = slotBound t e + slotsBound t es := by simp [slotsBound]

@[simp] theorem slotsBound_append (t : Timing) (es fs : List BusEvent) :
    slotsBound t (es ++ fs) = slotsBound t es + slotsBound t fs := by simp [slotsBound]

/-- The default figures of R164. -/
@[simp] theorem slotBound_defaults_rst (o : ResetOutcome) : slotBound .defaults (.rst o) = 1247 := rfl
@[simp] theorem slotBound_defaults_w (b : Bool) : slotBound .defaults (.w b) = 64 := rfl
@[simp] theorem slotBound_defaults_r (b : Bool) : slotBound .defaults (.r b) = 60 := rfl

theorem slotsBound_writes (bits : List Bool) : slotsBound .defaults (bits.map .w) = 64 * bits.length := by
  induction bits with
  | nil => rfl
  | cons b bits ih => simp [ih]; omega

theorem slotsBound_reads (bits : List Bool) : slotsBound .defaults (bits.map .r) = 60 * bits.length := by
  induction bits with
  | nil => rfl
  | cons b bits ih => simp [ih]; omega

/-- A resolved position is two read slots and a write slot (R239). -/
theorem slotsBound_positions (ts : List Resolved) :
    slotsBound .defaults (ts.flatMap Resolved.events) = 184 * ts.length := by
  induction ts with
  | nil => rfl
  | cons x ts ih => simp [Resolved.events, ih]; omega

/-- A reset slot, the Search ROM byte, the resolved positions, and the pair of reads that ended the pass, if one did
(R239). -/
theorem slotsBound_passEvents (ts : List Resolved) (noResponse : Bool) :
    slotsBound .defaults (passEvents ts noResponse) = 1759 + 184 * ts.length + if noResponse then 120 else 0 := by
  cases noResponse <;> simp [passEvents, positionEvents, slotsBound_positions] <;> omega

/-- The slots of a pass last longest when it resolves all 64 positions (R225, R328). -/
theorem searchPass_duration (s : State) :
    ∃ es, (searchPass s).history = s.history ++ es ∧ slotsBound .defaults es ≤ 13535 := by
  rcases searchPass_result s with ⟨o, -, -, h⟩ | ⟨-, ts, noResponse, h⟩
  · exact ⟨[.rst o], by simp [h], by simp⟩
  · refine ⟨passEvents ts noResponse, h.history, ?_⟩
    rw [slotsBound_passEvents]
    rcases h.length_le with ⟨rfl, hlen⟩ | ⟨rfl, hlen⟩
    · simp [hlen]
    · simp
      omega

/-- Every command performs slots within its row of R328. -/
theorem exec_duration {i : Instr} {s t : State} (h : exec i s = .next t) :
    ∃ es, t.history = s.history ++ es ∧ slotsBound .defaults es ≤ durationBound i := by
  cases i with
  | owReset =>
    obtain rfl := Host.Outcome.next.inj h
    exact ⟨[.rst (s.bus.resetAnswer s.history)], rfl, Nat.le_refl 1247⟩
  | owWriteBit arg =>
    obtain rfl := Host.Outcome.next.inj h
    exact ⟨[.w (argBit arg)], rfl, Nat.le_refl 64⟩
  | owReadBit =>
    obtain rfl := Host.Outcome.next.inj h
    exact ⟨[.r (s.bus.readAnswer s.history)], rfl, Nat.le_refl 60⟩
  | owWriteByte arg =>
    rw [exec_owWriteByte] at h
    obtain rfl := Host.Outcome.next.inj h
    exact ⟨_, State.slots_history _ s, Nat.le_of_eq (slotsBound_writes _)⟩
  | owReadByte =>
    rw [exec_owReadByte] at h
    obtain rfl := Host.Outcome.next.inj h
    refine ⟨_, State.slots_history _ s, ?_⟩
    rw [slotsBound_reads, readSlots_length]
    exact Nat.le_refl 480
  | crcClear | crcStep =>
    obtain rfl := Host.Outcome.next.inj h
    exact ⟨[], (List.append_nil _).symm, Nat.le_refl 0⟩
  | searchFirst =>
    obtain rfl := Host.Outcome.next.inj h
    exact searchPass_duration (s.clearSearch.setRom 0)
  | searchNext =>
    obtain rfl := Host.Outcome.next.inj h
    split
    next => exact ⟨[], (List.append_nil _).symm, Nat.zero_le _⟩
    next => exact searchPass_duration s

/-- Settles O52: the growth of the history determines the slots, which last no longer than the command's row says. -/
theorem commandDurationsAreBounded : Obligations.CommandDurationsAreBounded := by
  unfold Obligations.CommandDurationsAreBounded
  intro i s t es hexec hes
  obtain ⟨fs, hfs, hbound⟩ := exec_duration hexec
  rwa [List.append_cancel_left (hes.symm.trans hfs)]

end Sys2Proof.Machine
end
